-- ==== Sys2Proof/Word.lean ====
section
/-!
DEFINITION. The widths of the block's values: the 32-bit register interface (R9), the bytes of its
buffers (R11), its 64-bit operand registers (R8) and the 12-bit offsets of its register space (R60).
-/

namespace Sys2Proof

/-- One byte of a buffer or of a byte string (R11). -/
abbrev Byte := BitVec 8

/-- A register, a command word, the data of a bus access (R9). -/
abbrev Word := BitVec 32

/-- TIME, CTR and MATCH_CTR (R33, R34, R35). -/
abbrev Dword := BitVec 64

/-- A byte offset in the block's 4 KiB register space (R9, R60). -/
abbrev Offset := BitVec 12

end Sys2Proof
end

