-- ==== Sys2Proof/Syntax.lean ====
section
/-!
DEFINITION. The block's instructions are its commands (R14, R80): one constructor per row of the
opcode table, in the order of R81. No command has an operand field (R80): every operand is a register
or a buffer that the opcode names.
-/

namespace Sys2Proof

/-- The seven commands of the opcode map (R81). -/
inductive Instr where
  /-- B32ENC, OP 0x1: Base32-encode KEY into TXT (R105). -/
  | b32enc
  /-- B32DEC, OP 0x2: Base32-decode TXT into KEY (R110). -/
  | b32dec
  /-- TRUNC, OP 0x3: dynamic truncation of the digest in DIG (R140). -/
  | trunc
  /-- HOTP, OP 0x4: the code of the key in KEY for the counter in CTR (R145). -/
  | hotp
  /-- TDIV, OP 0x5: convert TIME to the counter (R165). -/
  | tdiv
  /-- TOTP, OP 0x6: the time-based code (R170). -/
  | totp
  /-- VERIFY, OP 0x7: search the window for the submitted code (R185). -/
  | verify
  deriving DecidableEq, Repr

end Sys2Proof
end

