-- ==== Sys2Proof/WellFormed.lean ====
section
/-!
DEFINITION. What a well-formed command is. A command as syntax has no operand, so every `Instr` is
well-formed (R80); a command WORD is well-formed when it is legal by R82. (The check on a bus access,
R65, stands with the bus: `Machine.busAccessLegal`.)
-/

namespace Sys2Proof

/-- Every command is well-formed: there are no register-number fields and no immediate fields (R80). -/
def Instr.wellFormed : Instr → Bool
  | .b32enc | .b32dec | .trunc | .hotp | .tdiv | .totp | .verify => true

/-- A command word is legal when CMD[31:4] = 0 and OP is 0x1 to 0x7 (R82). -/
def commandWordLegal (w : Word) : Bool :=
  w.extractLsb' 4 28 == 0#28 && 1#4 ≤ w.extractLsb' 0 4 && w.extractLsb' 0 4 ≤ 7#4

end Sys2Proof
end

