-- ==== Sys2Proof/Decode.lean ====
section
/-!
DEFINITION. Decoding and encoding of the 32-bit command word (R80, R81, R82, R90). Decoding is total:
a word is a command or is rejected by name.
-/

namespace Sys2Proof

/-- Why a command word is illegal (R82). -/
inductive DecodeError where
  /-- CMD[31:4] is not zero. -/
  | nonzeroZ
  /-- OP is 0x0 or 0x8 to 0xF. -/
  | reservedOpcode
  deriving DecidableEq, Repr

/-- The two fields of the one instruction format: OP = CMD[3:0] (R80). -/
def opField (w : Word) : BitVec 4 := w.extractLsb' 0 4

/-- Z = CMD[31:4] (R80). -/
def zField (w : Word) : BitVec 28 := w.extractLsb' 4 28

/-- The opcode map, opcode to command (R81); the other opcodes are reserved. -/
def decodeOp (op : BitVec 4) : Option Instr :=
  match op.toNat with
  | 0x1 => some .b32enc
  | 0x2 => some .b32dec
  | 0x3 => some .trunc
  | 0x4 => some .hotp
  | 0x5 => some .tdiv
  | 0x6 => some .totp
  | 0x7 => some .verify
  | _ => none

/-- The command a word stands for; Z is checked before OP, as in R90. -/
def decode (w : Word) : Except DecodeError Instr :=
  if zField w ≠ 0#28 then .error .nonzeroZ
  else match decodeOp (opField w) with
    | some i => .ok i
    | none => .error .reservedOpcode

/-- The opcode map, command to opcode (R81). -/
def opcode : Instr → BitVec 4
  | .b32enc => 0x1#4
  | .b32dec => 0x2#4
  | .trunc => 0x3#4
  | .hotp => 0x4#4
  | .tdiv => 0x5#4
  | .totp => 0x6#4
  | .verify => 0x7#4

/-- The command word of a command: Z = 0 above the opcode (R80). -/
def encode (i : Instr) : Word := 0#28 ++ opcode i

/-- The command the decoder reads from the table's bits: a command is one 32-bit word (R87), numbered
bit 0 first, and the bits above `nbits` are 0. -/
def decodeTableWord (nbits w : Nat) : Option Instr :=
  match decode (BitVec.ofNat 32 (w % 2 ^ nbits)) with
  | .ok i => some i
  | .error _ => none

end Sys2Proof
end

