-- ==== Sys2Proof/Config.lean ====
section
/-!
DEFINITION. What is fixed for the block and is not state (R20): the parameters of R8, the HMAC port
(R130), and the values the spec leaves open, as constants with no body.
-/

namespace Sys2Proof

/-- The three hash algorithms of the HMAC primitive (R3, R86). -/
inductive HashAlg where
  | sha1
  | sha256
  | sha512
  deriving DecidableEq, Repr

/-- DIGEST_LEN: 20, 32 and 64 bytes (R8, R132). -/
def HashAlg.digestLen : HashAlg → Nat
  | .sha1 => 20
  | .sha256 => 32
  | .sha512 => 64

namespace Config

/-- KEY_MAX: bytes of the KEY buffer (R8). -/
def keyMax : Nat := 80

/-- TXT_MAX: bytes of the TXT buffer (R8). -/
def txtMax : Nat := 128

/-- DIG_SIZE: bytes of the DIG buffer, the largest digest (R8). -/
def digSize : Nat := 64

/-- SUB_SIZE: bytes of the SUB buffer (R8). -/
def subSize : Nat := 8

/-- CODE_SIZE: bytes of the CODE_TXT buffer (R8). -/
def codeSize : Nat := 8

/-- WIN_MAX: the largest WINDOW value (R8). -/
def winMax : Nat := 255

/-- DIGITS_MIN: the shortest legal code (R8). -/
def digitsMin : Nat := 1

/-- DIGITS_MAX: the longest legal code (R8). -/
def digitsMax : Nat := 8

/-- VERIFY_DIGITS: the code length VERIFY uses (R8, R180). -/
def verifyDigits : Nat := 6

/-- VERIFY_ALG: the algorithm VERIFY uses (R8, R180). -/
def verifyAlg : HashAlg := .sha1

/-- The HMAC port: the platform's keyed-hash primitive, a total deterministic function of the
algorithm, the key and the message whose result has DIGEST_LEN bytes (R130). It has no body: which
function it is stays open (D27, log entry 1), and every claim holds whatever it is. -/
opaque hmac (alg : HashAlg) (key msg : List Byte) : Vector Byte alg.digestLen

/-- The value a host read of any address but STATUS returns while BUSY = 1: unspecified, a free draw
per read (R241, U1, log entry 2). `draw` numbers the draws; nothing constrains the value. -/
opaque busyRead (draw : Nat) : Word

/-- BASE: where the platform places the block; every address of the model is an offset from it (R60,
U6, log entry 3). -/
opaque base : Nat

/-- The platform address of an offset (R60, R69). -/
def platformAddress (a : Offset) : Nat := base + a.toNat

/-- The parameters a model may take as arguments (R8, R130, R161, D19, D21, D27). -/
structure Params where
  /-- T0, the epoch origin of the divider in seconds. -/
  t0 : Nat
  /-- STEP, the time step in seconds, at least 1. -/
  stepSeconds : Nat
  /-- B32_STRICT_TAIL: whether B32DEC rejects non-zero leftover bits. -/
  strictTail : Bool
  /-- HMAC, the external keyed hash. -/
  hmac : (alg : HashAlg) → List Byte → List Byte → Vector Byte alg.digestLen

/-- The values this block fixes: T0 = 0, STEP = 30, B32_STRICT_TAIL = false (R8, R161, R113); HMAC is
the platform's. -/
def params : Params :=
  { t0 := 0, stepSeconds := 30, strictTail := false, hmac := hmac }

end Config

end Sys2Proof
end

