-- ==== Sys2Proof/Machine/State.lean ====
section
/-!
DEFINITION. The state of the machine: the block's architectural state, exactly the record of R46, and
beside it what stands outside the block: the host's remaining inputs, the turns of the two agents
(R20), and what the host's last read returned. Plain data throughout.
-/

namespace Sys2Proof.Machine

/-- The error kinds a command reports in STATUS.ERRCODE (R200). They are defined outcomes of a command,
not faults of the machine (R205). -/
inductive CmdError where
  /-- Code 1: malformed Base32 input. -/
  | invalidEncoding
  /-- Code 2: CFG.ALG = 3. -/
  | unsupportedAlgorithm
  /-- Code 3: CFG.DIGITS = 0 or 9 to 15. -/
  | invalidDigitCount
  /-- Code 4: a zero-length secret where a positive length is required. -/
  | invalidSecretLength
  /-- Code 5: a reserved opcode, or CMD[31:4] not zero. -/
  | badCommand
  /-- Code 6: a length register holds a value its buffer cannot hold (R201). -/
  | lengthRange
  /-- Code 7: TIME < T0 (R162). -/
  | timeBeforeEpoch
  deriving DecidableEq, Repr

/-- The block's state, field by field the record of R46. -/
structure OtpState where
  /-- STATUS[0]: a command is pending or executing (R25). -/
  busy : Bool
  /-- STATUS[1]: the last command has completed (R25). -/
  done : Bool
  /-- STATUS[2]: the last command raised an error (R25). -/
  err : Bool
  /-- STATUS[3], MATCH: the last command was VERIFY and a candidate matched (R25). -/
  matched : Bool
  /-- STATUS[7:4]: the error code of the last command (R25, R200). -/
  errcode : BitVec 4
  /-- STATUS[8]: sticky, a host write was dropped because BUSY was 1 (R25). -/
  busyerr : Bool
  /-- PENDING, the latch of the command word, meaningful iff `busy` (R44). -/
  pending : Word
  /-- CFG[3:0], codeDigits (R27). -/
  digits : BitVec 4
  /-- CFG[5:4], hashAlgorithm (R27). -/
  alg : BitVec 2
  /-- CFG[8], padded output (R27). -/
  pad : Bool
  /-- WINDOW[7:0] (R28). -/
  window : BitVec 8
  /-- KEY_LEN[6:0] (R29). -/
  keyLen : BitVec 7
  /-- TXT_LEN[7:0] (R30). -/
  txtLen : BitVec 8
  /-- SUB_LEN[3:0] (R31). -/
  subLen : BitVec 4
  /-- TIME (R33). -/
  time : Dword
  /-- CTR (R34). -/
  ctr : Dword
  /-- MATCH_CTR (R35). -/
  matchCtr : Dword
  /-- OFFSET[3:0] (R36). -/
  offset : BitVec 4
  /-- BINARY[30:0] (R37). -/
  binary : BitVec 31
  /-- CODE_BIN[26:0] (R38). -/
  codeBin : BitVec 27
  /-- CODE_TXT (R39). -/
  codeTxt : Vector Byte 8
  /-- SUB (R40). -/
  sub : Vector Byte 8
  /-- DIG (R41). -/
  dig : Vector Byte 64
  /-- KEY (R42). -/
  key : Vector Byte 80
  /-- TXT (R43). -/
  txt : Vector Byte 128
  deriving DecidableEq, Repr

/-- What the outside world does to the block: the host's bus accesses (R20), its poll of STATUS (R89)
and the reset input (R231). An access may be one the interface does not have (R65). -/
inductive Input where
  /-- A write of `data` at `offset`, `width` bytes wide; BusWrite has width 4 (R64). -/
  | write (offset : Offset) (width : Nat) (data : Word)
  /-- A read at `offset`, `width` bytes wide; BusRead has width 4 (R63). -/
  | read (offset : Offset) (width : Nat)
  /-- WAIT: read STATUS again and again until bit 0 is 0 (R89). -/
  | wait
  /-- The reset input is asserted (R231). -/
  | reset
  deriving DecidableEq, Repr

/-- The two agents that step (R20). -/
inductive Agent where
  | host
  | engine
  deriving DecidableEq, Repr

/-- The whole machine. The fields beside `otp` are the model's own (log entries 2, 4 and 5). -/
structure State where
  /-- The block (R46). -/
  otp : OtpState
  /-- What the outside world is still going to do, oldest first (log entry 4). -/
  inputs : List Input
  /-- Which agent takes each of the coming steps, next one first; when it is used up the engine goes
  first whenever it is enabled (R84, R251; log entry 5). -/
  turns : List Agent
  /-- What the host's last bus read returned (R63; log entry 4). -/
  readData : Word
  /-- How many free values have been drawn for reads while BUSY (R241; log entry 2). -/
  draws : Nat
  deriving DecidableEq, Repr

/-- Why the machine stops. -/
inductive Fault where
  /-- The host's next access is not an aligned 32-bit access. The interface has no such access and the
  model gives it no step (R65, R205). Raised by `hostStep` alone; safe: nothing is claimed of what
  the hardware does next. -/
  | accessOutsideInterface (offset : Offset) (width : Nat)
  deriving DecidableEq, Repr

/-- Why a command has no meaning in the model. -/
inductive Refusal where
  /-- The command of that mnemonic is not modelled yet. Raised by arms of `exec` alone, and by none
  now; safe. -/
  | notModelled (mnemonic : String)
  deriving DecidableEq, Repr

/-- The block right after reset (R230). PENDING is empty there; the latch holds 0 (log entry 6). -/
def OtpState.reset : OtpState :=
  { busy := false, done := false, err := false, matched := false, errcode := 0, busyerr := false,
    pending := 0, digits := 6, alg := 0, pad := false, window := 0,
    keyLen := 0, txtLen := 0, subLen := 0, time := 0, ctr := 0, matchCtr := 0,
    offset := 0, binary := 0, codeBin := 0,
    codeTxt := Vector.replicate 8 0, sub := Vector.replicate 8 0,
    dig := Vector.replicate 64 0, key := Vector.replicate 80 0, txt := Vector.replicate 128 0 }

/-- The machine right after reset: the block as R230 says, and no input, no turn and no read yet. -/
def State.reset : State :=
  { otp := OtpState.reset, inputs := [], turns := [], readData := 0, draws := 0 }

end Sys2Proof.Machine
end

