-- ==== Sys2Proof/Machine/Flags.lean ====
section
/-!
DEFINITION. STATUS, the block's one flag register: its error codes (R200), its word (R25), and every
way its fields are written: an accepted command (R83), a completion (R84), a dropped write (R240) and
the host's clear of BUSYERR (R26).
-/

namespace Sys2Proof.Machine

/-- STATUS.ERRCODE of an error (R200). -/
def CmdError.code : CmdError → BitVec 4
  | .invalidEncoding => 1
  | .unsupportedAlgorithm => 2
  | .invalidDigitCount => 3
  | .invalidSecretLength => 4
  | .badCommand => 5
  | .lengthRange => 6
  | .timeBeforeEpoch => 7

/-- STATUS as the host reads it: BUSYERR, ERRCODE, MATCH, ERR, DONE, BUSY; bits 31:9 read 0 (R25). -/
def statusWord (o : OtpState) : Word :=
  0#23 ++ BitVec.ofBool o.busyerr ++ o.errcode ++ BitVec.ofBool o.matched ++ BitVec.ofBool o.err
    ++ BitVec.ofBool o.done ++ BitVec.ofBool o.busy

/-- STATUS when a command is accepted: BUSY is set, the record of the last command is cleared, BUSYERR
stays (R83). -/
def statusAccept (o : OtpState) : OtpState :=
  { o with busy := true, done := false, err := false, matched := false, errcode := 0 }

/-- STATUS when a command completes without error (R84). -/
def statusSucceed (hit : Bool) (o : OtpState) : OtpState :=
  { o with busy := false, done := true, err := false, matched := hit, errcode := 0 }

/-- STATUS when a command completes with an error (R84, R203). -/
def statusFail (e : CmdError) (o : OtpState) : OtpState :=
  { o with busy := false, done := true, err := true, matched := false, errcode := e.code }

/-- STATUS when a host write is dropped (R240). -/
def statusDropped (o : OtpState) : OtpState := { o with busyerr := true }

/-- A host write of `v` to STATUS: bit 8 clears BUSYERR, every other bit is ignored (R26). -/
def statusWrite (v : Word) (o : OtpState) : OtpState :=
  if v.getLsbD 8 then { o with busyerr := false } else o

end Sys2Proof.Machine
end

