-- ==== Sys2Proof/Machine/Operands.lean ====
section
/-!
DEFINITION. The operands of the commands, assembled from registers and buffers as R85 says, each
zero-extended, and the checks on them that the error table names (R200, R201).
-/

namespace Sys2Proof.Machine

/-- codeDigits, CFG[3:0] (R85). -/
def codeDigits (o : OtpState) : Nat := o.digits.toNat

/-- A legal code length, 1 to 8 (R27, R136). -/
def digitsLegal (n : Nat) : Bool := decide (Config.digitsMin ≤ n ∧ n ≤ Config.digitsMax)

/-- hashAlgorithm, CFG[5:4]; 3 is no algorithm (R85, R86, R132). -/
def hashAlgorithm (o : OtpState) : Option HashAlg :=
  match o.alg.toNat with
  | 0 => some .sha1
  | 1 => some .sha256
  | 2 => some .sha512
  | _ => none

/-- KEY_LEN (R85). -/
def keyLength (o : OtpState) : Nat := o.keyLen.toNat

/-- TXT_LEN (R85). -/
def textLength (o : OtpState) : Nat := o.txtLen.toNat

/-- The secret KEY[0..KEY_LEN) (R42). -/
def keyBytes (o : OtpState) : List Byte := o.key.toList.take (keyLength o)

/-- The Base32 text TXT[0..TXT_LEN) (R43). -/
def textBytes (o : OtpState) : List Byte := o.txt.toList.take (textLength o)

/-- The digest DIG[0..L) with L = DIGEST_LEN (R41). -/
def digestBytes (alg : HashAlg) (o : OtpState) : List Byte := o.dig.toList.take alg.digestLen

/-- windowOffset, WINDOW[7:0] (R85). -/
def windowOffset (o : OtpState) : Nat := o.window.toNat

/-- The first six bytes of SUB, what VERIFY compares when SUB_LEN = 6 (R183). -/
def submittedDigits (o : OtpState) : List Byte := o.sub.toList.take Config.verifyDigits

/-- A code of the right length is submitted: SUB_LEN = 6 (R183). -/
def submittedLengthLegal (o : OtpState) : Bool := o.subLen.toNat == Config.verifyDigits

/-- KEY_LEN exceeds KEY_MAX (R201). -/
def keyTooLong (o : OtpState) : Bool := decide (Config.keyMax < keyLength o)

/-- TXT_LEN exceeds TXT_MAX (R201). -/
def textTooLong (o : OtpState) : Bool := decide (Config.txtMax < textLength o)

end Sys2Proof.Machine
end

