-- ==== Sys2Proof/Machine/Ops.lean ====
section
/-!
DEFINITION. The shared operations: writing a prefix or a word of a buffer, the byte lanes of the bus
(R62), accepting a command (R83), raising an error (R203, the block's one exception) and completing a
command (R84).
-/

namespace Sys2Proof.Machine

/-- `v` with the bytes `bs` written from index `start` on; every other byte is unchanged, and bytes
that would fall past the end are not written. -/
def overlay {n : Nat} (v : Vector Byte n) (start : Nat) (bs : List Byte) : Vector Byte n :=
  Vector.ofFn fun i => if start ≤ i.val then bs.getD (i.val - start) v[i] else v[i]

/-- Byte `i` of a buffer. -/
def bufferByte {n : Nat} (v : Vector Byte n) (i : Nat) : Byte := v[i]?.getD 0

/-- A word from its four bytes, the lowest lane first (R62). -/
def wordOfLanes (b0 b1 b2 b3 : Byte) : Word := b3 ++ b2 ++ b1 ++ b0

/-- The four bytes of a word, the lowest lane first (R62). -/
def lanesOfWord (w : Word) : List Byte :=
  [w.extractLsb' 0 8, w.extractLsb' 8 8, w.extractLsb' 16 8, w.extractLsb' 24 8]

/-- Word `k` of a buffer window: bytes 4k to 4k+3 (R62). -/
def bufferWord {n : Nat} (v : Vector Byte n) (k : Nat) : Word :=
  wordOfLanes (bufferByte v (4 * k)) (bufferByte v (4 * k + 1)) (bufferByte v (4 * k + 2))
    (bufferByte v (4 * k + 3))

/-- A buffer with word `k` of its window written (R62, R64). -/
def setBufferWord {n : Nat} (v : Vector Byte n) (k : Nat) (w : Word) : Vector Byte n :=
  overlay v (4 * k) (lanesOfWord w)

/-- The lower half of a 64-bit register, X_LO (R62). -/
def lowHalf (x : Dword) : Word := x.extractLsb' 0 32

/-- The upper half of a 64-bit register, X_HI (R62). -/
def highHalf (x : Dword) : Word := x.extractLsb' 32 32

/-- A 64-bit register with X_LO written (R64). -/
def setLowHalf (x : Dword) (w : Word) : Dword := highHalf x ++ w

/-- A 64-bit register with X_HI written (R64). -/
def setHighHalf (x : Dword) (w : Word) : Dword := w ++ lowHalf x

/-- What a command computes from the state at the moment the engine takes it: the block with its write
set applied and whether a candidate matched, or an error (R13, R84). -/
abbrev CmdResult := Except CmdError (OtpState × Bool)

/-- A command word is accepted: it is latched and BUSY is set (R83). It also is what ends the record of
an error: nothing else returns from one (R204). -/
def acceptCommand (v : Word) (o : OtpState) : OtpState := statusAccept { o with pending := v }

/-- Raising an error: STATUS records it and nothing else changes (R203). -/
def raiseError (e : CmdError) (o : OtpState) : OtpState := statusFail e o

/-- The end of a command: every write of its write set together with STATUS, or the error and STATUS
alone (R13, R84). -/
def commit (o : OtpState) : CmdResult → OtpState
  | .ok (w, hit) => statusSucceed hit w
  | .error e => raiseError e o

/-- The engine completes a command with the result it computed from the state it took the command in
(R84). -/
def complete (s : State) (r : CmdResult) : Host.Outcome State Fault Refusal :=
  .next { s with otp := commit s.otp r }

end Sys2Proof.Machine
end

