-- ==== Sys2Proof/Machine/Bus.lean ====
section
/-!
DEFINITION. The register bus (20_memory.md, 10_state.md): the register map (R23), a read of it (R63),
a write to it (R64) with the BUSY rules (R240, R241), and the step of the host (R20): one access, one
poll, or the reset input (R231).
-/

namespace Sys2Proof.Machine

/-- The access column of the register map (R23). -/
inductive Access where
  | rw
  | ro
  | wo
  /-- STATUS: read-only, bit 8 write-one-to-clear. -/
  | roW1c
  deriving DecidableEq, Repr

/-- The registers of the map (R23). -/
inductive Reg where
  | cmd | status | cfg | window | keyLen | txtLen | subLen
  | timeLo | timeHi | ctrLo | ctrHi | matchCtrLo | matchCtrHi
  | offset | binary | codeBin
  deriving DecidableEq, Repr

/-- The buffer windows of the map (R23). -/
inductive Buf where
  | codeTxt | sub | dig | key | txt
  deriving DecidableEq, Repr

/-- The registers, in the map's order (R23). -/
def Reg.all : List Reg :=
  [.cmd, .status, .cfg, .window, .keyLen, .txtLen, .subLen, .timeLo, .timeHi, .ctrLo, .ctrHi,
   .matchCtrLo, .matchCtrHi, .offset, .binary, .codeBin]

/-- The buffer windows, in the map's order (R23). -/
def Buf.all : List Buf := [.codeTxt, .sub, .dig, .key, .txt]

/-- The offset column for registers (R23). -/
def Reg.addr : Reg → Nat
  | .cmd => 0x000
  | .status => 0x004
  | .cfg => 0x008
  | .window => 0x00C
  | .keyLen => 0x010
  | .txtLen => 0x014
  | .subLen => 0x018
  | .timeLo => 0x020
  | .timeHi => 0x024
  | .ctrLo => 0x028
  | .ctrHi => 0x02C
  | .matchCtrLo => 0x030
  | .matchCtrHi => 0x034
  | .offset => 0x038
  | .binary => 0x03C
  | .codeBin => 0x040

/-- The access column for registers (R23). -/
def Reg.access : Reg → Access
  | .cmd => .wo
  | .status => .roW1c
  | .cfg | .window | .keyLen | .txtLen | .subLen | .timeLo | .timeHi | .ctrLo | .ctrHi => .rw
  | .matchCtrLo | .matchCtrHi | .offset | .binary | .codeBin => .ro

/-- The first offset of a buffer window (R23). -/
def Buf.addr : Buf → Nat
  | .codeTxt => 0x048
  | .sub => 0x050
  | .dig => 0x100
  | .key => 0x140
  | .txt => 0x200

/-- The bytes of a buffer (R8, R39 to R43). -/
def Buf.size : Buf → Nat
  | .codeTxt => Config.codeSize
  | .sub => Config.subSize
  | .dig => Config.digSize
  | .key => Config.keyMax
  | .txt => Config.txtMax

/-- The access column for buffer windows (R23). -/
def Buf.access : Buf → Access
  | .codeTxt => .ro
  | .sub | .dig | .key | .txt => .rw

/-- What an offset names: a register, a word of a buffer window, or nothing (R23, R32). -/
inductive Location where
  | reg (r : Reg)
  | buf (b : Buf) (k : Nat)
  | reserved
  deriving DecidableEq, Repr

/-- The offset lies in the window of the buffer (R23). -/
def Buf.covers (b : Buf) (a : Nat) : Bool := decide (b.addr ≤ a ∧ a < b.addr + b.size)

/-- The register map read from an offset; any offset it does not list is reserved (R23, R32). -/
def locate (a : Offset) : Location :=
  match Reg.all.find? (fun r => r.addr == a.toNat) with
  | some r => .reg r
  | none =>
    match Buf.all.find? (fun b => b.covers a.toNat) with
    | some b => .buf b ((a.toNat - b.addr) / 4)
    | none => .reserved

/-- A register as the host reads it, its fields assembled and its reserved bits 0 (R25 to R38, R63). -/
def readReg (o : OtpState) : Reg → Word
  | .cmd => 0
  | .status => statusWord o
  | .cfg => 0#23 ++ BitVec.ofBool o.pad ++ 0#2 ++ o.alg ++ o.digits
  | .window => o.window.setWidth 32
  | .keyLen => o.keyLen.setWidth 32
  | .txtLen => o.txtLen.setWidth 32
  | .subLen => o.subLen.setWidth 32
  | .timeLo => lowHalf o.time
  | .timeHi => highHalf o.time
  | .ctrLo => lowHalf o.ctr
  | .ctrHi => highHalf o.ctr
  | .matchCtrLo => lowHalf o.matchCtr
  | .matchCtrHi => highHalf o.matchCtr
  | .offset => o.offset.setWidth 32
  | .binary => o.binary.setWidth 32
  | .codeBin => o.codeBin.setWidth 32

/-- A word of a buffer window as the host reads it (R62, R63). -/
def readBuf (o : OtpState) : Buf → Nat → Word
  | .codeTxt, k => bufferWord o.codeTxt k
  | .sub, k => bufferWord o.sub k
  | .dig, k => bufferWord o.dig k
  | .key, k => bufferWord o.key k
  | .txt, k => bufferWord o.txt k

/-- The value at an offset of the register space (R63); reserved space reads 0 (R32). -/
def busValue (o : OtpState) (a : Offset) : Word :=
  match locate a with
  | .reg r => readReg o r
  | .buf b k => readBuf o b k
  | .reserved => 0

/-- One byte of the register space: the lane of `a` in the word that holds it (R62). -/
def busByte (o : OtpState) (a : Offset) : Byte :=
  (busValue o (a.extractLsb' 2 10 ++ 0#2)).extractLsb' (8 * (a.toNat % 4)) 8

/-- A host write to a register of an idle block: its fields take the matching bits, reserved bits are
ignored, a read-only register ignores the write, and CMD starts a command (R24, R26 to R38, R64). -/
def writeReg (v : Word) (o : OtpState) : Reg → OtpState
  | .cmd => acceptCommand v o
  | .status => statusWrite v o
  | .cfg =>
    { o with digits := v.extractLsb' 0 4, alg := v.extractLsb' 4 2, pad := v.getLsbD 8 }
  | .window => { o with window := v.extractLsb' 0 8 }
  | .keyLen => { o with keyLen := v.extractLsb' 0 7 }
  | .txtLen => { o with txtLen := v.extractLsb' 0 8 }
  | .subLen => { o with subLen := v.extractLsb' 0 4 }
  | .timeLo => { o with time := setLowHalf o.time v }
  | .timeHi => { o with time := setHighHalf o.time v }
  | .ctrLo => { o with ctr := setLowHalf o.ctr v }
  | .ctrHi => { o with ctr := setHighHalf o.ctr v }
  | .matchCtrLo | .matchCtrHi | .offset | .binary | .codeBin => o

/-- A host write to a word of a buffer window of an idle block: the four bytes of R62; CODE_TXT is
read-only (R39, R64). -/
def writeBuf (v : Word) (o : OtpState) : Buf → Nat → OtpState
  | .codeTxt, _ => o
  | .sub, k => { o with sub := setBufferWord o.sub k v }
  | .dig, k => { o with dig := setBufferWord o.dig k v }
  | .key, k => { o with key := setBufferWord o.key k v }
  | .txt, k => { o with txt := setBufferWord o.txt k v }

/-- The offset of STATUS (R25), the one a host may use while BUSY = 1 (R240, R241). -/
def statusOffset : Offset := 0x004#12

/-- BusWrite(a, 4, v) (R64): STATUS first, then the drop while BUSY (R240), then the map. -/
def busWrite (a : Offset) (v : Word) (o : OtpState) : OtpState :=
  if a = statusOffset then statusWrite v o
  else if o.busy then statusDropped o
  else match locate a with
    | .reg r => writeReg v o r
    | .buf b k => writeBuf v o b k
    | .reserved => o

/-- BusRead(a, 4) (R63): the block is unchanged and the value goes to the host; while BUSY = 1 any
address but STATUS gives a free draw (R241). -/
def busRead (a : Offset) (s : State) : State :=
  if s.otp.busy && a != statusOffset then
    { s with readData := Config.busyRead s.draws, draws := s.draws + 1 }
  else { s with readData := busValue s.otp a }

/-- The only accesses of the interface: 32 bits wide, a[1:0] = 0 (R65). -/
def busAccessLegal (a : Offset) (width : Nat) : Bool := width == 4 && a.extractLsb' 0 2 == 0#2

/-- The input is one the interface has (R65). -/
def Input.legal : Input → Bool
  | .write a width _ => busAccessLegal a width
  | .read a width => busAccessLegal a width
  | .wait | .reset => true

/-- The reset input: the block is as R230 says, whatever it was doing (R231). What stands outside the
block is not reset. -/
def resetBlock (s : State) : State := { s with otp := OtpState.reset }

/-- The host's step on one input, already taken from `s.inputs`: one bus access (R20), one poll of a
WAIT that goes on while STATUS.BUSY = 1 (R89), or the reset input (R231). An access outside the
interface has no step (R65). -/
def hostStep (i : Input) (s : State) : Host.Outcome State Fault Refusal :=
  match i with
  | .write a width v =>
    if busAccessLegal a width then .next { s with otp := busWrite a v s.otp }
    else .fault (.accessOutsideInterface a width)
  | .read a width =>
    if busAccessLegal a width then .next (busRead a s)
    else .fault (.accessOutsideInterface a width)
  | .wait =>
    let t := busRead statusOffset s
    if t.readData.getLsbD 0 then .next { t with inputs := .wait :: t.inputs } else .next t
  | .reset => .next (resetBlock s)

/-- The host's turn: it takes its next input; with none left its turn passes. -/
def hostTurn (s : State) : Host.Outcome State Fault Refusal :=
  match s.inputs with
  | [] => .next s
  | i :: rest => hostStep i { s with inputs := rest }

end Sys2Proof.Machine
end

