-- ==== Sys2Proof/Machine/Base32.lean ====
section
/-!
DEFINITION. The Base32 codec (40_base32.md): the alphabet (R100), the bit packing (R101), the lengths
and pads (R103), decoding with its normalisation, pad and tail rules (R110 to R113), and the commands
B32ENC (R105) and B32DEC (R110).
-/

namespace Sys2Proof.Machine

/-- ALPHA: the character of a 5-bit value (R100). -/
def alphaChar (v : BitVec 5) : Byte :=
  if v.toNat < 26 then 0x41#8 + v.setWidth 8 else 0x32#8 + (v.setWidth 8 - 26#8)

/-- The pad character "=" (R100). -/
def padChar : Byte := 0x3D#8

/-- ALPHA^-1: the 5-bit value of a character of the alphabet; no other byte has one (R100). -/
def alphaValue (x : Byte) : Option (BitVec 5) :=
  if 0x41 ≤ x.toNat ∧ x.toNat ≤ 0x5A then some (BitVec.ofNat 5 (x.toNat - 0x41))
  else if 0x32 ≤ x.toNat ∧ x.toNat ≤ 0x37 then some (BitVec.ofNat 5 (x.toNat - 0x32 + 26))
  else none

/-- Bit `i` of a string of `w`-bit values, the first value first and inside each value the most
significant bit first; 0 past the end (R101). -/
def bitOf {w : Nat} (xs : List (BitVec w)) (i : Nat) : Bool :=
  (xs.getD (i / w) 0).getMsbD (i % w)

/-- The `v`-bit value whose bits, most significant first, are `f 0`, `f 1`, … -/
def ofMsbs (f : Nat → Bool) : (v : Nat) → BitVec v
  | 0 => 0#0
  | v + 1 => (ofMsbs f v).concat (f v)

/-- The bit string of `xs` cut from its start into `m` values of `v` bits, completed with 0 bits on its
right (R101). -/
def regroup {w : Nat} (v : Nat) (xs : List (BitVec w)) (m : Nat) : List (BitVec v) :=
  (List.range m).map fun j => ofMsbs (fun r => bitOf xs (v * j + r)) v

/-- The number of unpadded characters of `n` bytes, ceil(8n / 5) (R103). -/
def textLengthOf (n : Nat) : Nat := (8 * n + 4) / 5

/-- The number of whole bytes in `d` characters, floor(5d / 8) (R110). -/
def byteLengthOf (d : Nat) : Nat := 5 * d / 8

/-- PADCOUNT, by the length of the unpadded text modulo 8 (R103). -/
def padCount : Nat → Nat
  | 2 => 6
  | 4 => 4
  | 5 => 3
  | 7 => 1
  | _ => 0

/-- A residue modulo 8 that a padded text's data can have (R110, R112). -/
def padResidue (r : Nat) : Bool := r == 2 || r == 4 || r == 5 || r == 7

/-- A residue modulo 8 that no legal text's data has (R103). -/
def illegalResidue (r : Nat) : Bool := r == 1 || r == 3 || r == 6

/-- The Base32 text of a byte string, padded or not (R101, R105). -/
def base32Encode (pad : Bool) (b : List Byte) : List Byte :=
  (regroup 5 b (textLengthOf b.length)).map alphaChar ++
    (if pad then List.replicate (padCount (textLengthOf b.length % 8)) padChar else [])

/-- The normalisation: 'a' to 'z' become 'A' to 'Z', every other byte stands (R111). -/
def foldCase (x : Byte) : Byte :=
  if 0x61 ≤ x.toNat ∧ x.toNat ≤ 0x7A then x - 0x20#8 else x

/-- The number of trailing pad characters (R110). -/
def trailingPads (u : List Byte) : Nat := (u.reverse.takeWhile (· == padChar)).length

/-- A text of length `m` that ends in `p` pad characters ends in no pad, or in exactly the canonical one
with `m` a multiple of 8 (R110, R112). -/
def padLegal (m p : Nat) : Bool :=
  p == 0 || (m % 8 == 0 && padResidue ((m - p) % 8) && p == padCount ((m - p) % 8))

/-- The values of a string of characters, if each is of the alphabet (R110, R111). -/
def alphaValues : List Byte → Option (List (BitVec 5))
  | [] => some []
  | x :: xs =>
    match alphaValue x, alphaValues xs with
    | some v, some vs => some (v :: vs)
    | _, _ => none

/-- The bits of the last character that do not fill a byte are all 0 (R113). -/
def tailClear (vs : List (BitVec 5)) : Bool :=
  (List.range (5 * vs.length - 8 * byteLengthOf vs.length)).all fun r =>
    !bitOf vs (8 * byteLengthOf vs.length + r)

/-- The byte string of a legal Base32 text; none where the text is InvalidEncoding (R110). -/
def base32Decode (strictTail : Bool) (t : List Byte) : Option (List Byte) :=
  let u := t.map foldCase
  let d := u.length - trailingPads u
  if padLegal u.length (trailingPads u) then
    match alphaValues (u.take d) with
    | none => none
    | some vs =>
      if illegalResidue (d % 8) then none
      else if strictTail && !tailClear vs then none
      else some (regroup 8 vs (byteLengthOf d))
  else none

/-- What B32ENC computes (R105). -/
def b32encCmd (o : OtpState) : CmdResult :=
  if keyTooLong o then .error .lengthRange
  else
    let t := base32Encode o.pad (keyBytes o)
    .ok ({ o with txt := overlay o.txt 0 t, txtLen := BitVec.ofNat 8 t.length }, false)

/-- The block with a decoded secret written: KEY[0..n) and KEY_LEN (R42, R110). -/
def writeKey (b : List Byte) (o : OtpState) : OtpState :=
  { o with key := overlay o.key 0 b, keyLen := BitVec.ofNat 7 b.length }

/-- What B32DEC computes (R110). -/
def b32decCmd (p : Config.Params) (o : OtpState) : CmdResult :=
  if textTooLong o then .error .lengthRange
  else match base32Decode p.strictTail (textBytes o) with
    | none => .error .invalidEncoding
    | some b => .ok (writeKey b o, false)

/-- B32ENC (R105). -/
def execB32enc (s : State) : Host.Outcome State Fault Refusal :=
  complete s (b32encCmd s.otp)

/-- B32DEC (R110). -/
def execB32dec (s : State) : Host.Outcome State Fault Refusal :=
  complete s (b32decCmd Config.params s.otp)

end Sys2Proof.Machine
end

