-- ==== Sys2Proof/Machine/Truncation.lean ====
section
/-!
DEFINITION. The HMAC truncation engine (41_truncation.md): the counter message (R133), dynamic
truncation (R134, R135), decimal reduction and text (R136, R137), code generation (R144), and the
commands TRUNC (R140) and HOTP (R145).
-/

namespace Sys2Proof.Machine

/-- be64: the counter as 8 bytes, the most significant first (R133). -/
def be64 (c : Dword) : List Byte :=
  [c.extractLsb' 56 8, c.extractLsb' 48 8, c.extractLsb' 40 8, c.extractLsb' 32 8,
   c.extractLsb' 24 8, c.extractLsb' 16 8, c.extractLsb' 8 8, c.extractLsb' 0 8]

/-- The results of a truncation: OFFSET, BINARY, CODE_BIN and CODE_TXT (R138). -/
structure Truncated where
  offset : BitVec 4
  binary : BitVec 31
  codeBin : BitVec 27
  codeTxt : Vector Byte 8
  deriving DecidableEq, Repr

/-- The dynamic offset: the low nibble of the final digest byte (R134). -/
def dynamicOffset (h : List Byte) : BitVec 4 := (h.getD (h.length - 1) 0).extractLsb' 0 4

/-- The 31-bit value at index `i`: the first byte without its top bit, then three bytes, the lowest
index most significant (R135). -/
def extractBinary (h : List Byte) (i : Nat) : BitVec 31 :=
  (h.getD i 0).extractLsb' 0 7 ++ h.getD (i + 1) 0 ++ h.getD (i + 2) 0 ++ h.getD (i + 3) 0

/-- POW10, the powers of ten (R136). -/
def pow10 (n : Nat) : Nat := 10 ^ n

/-- Digit `j` of the `n`-digit decimal text of `k`, the most significant first (R137). -/
def decDigit (n k j : Nat) : Nat := k / pow10 (n - 1 - j) % 10

/-- The decimal text: `n` ASCII digits, left-zero-padded, then bytes 0x00 (R137). -/
def decText (n k : Nat) : Vector Byte 8 :=
  Vector.ofFn fun j => if j.val < n then BitVec.ofNat 8 (0x30 + decDigit n k j.val) else 0

/-- Dynamic truncation of a digest to `n` digits (R138). -/
def truncate (h : List Byte) (n : Nat) : Truncated :=
  let o := dynamicOffset h
  let bin := extractBinary h o.toNat
  let k := bin.toNat % pow10 n
  { offset := o, binary := bin, codeBin := BitVec.ofNat 27 k, codeTxt := decText n k }

/-- The digest and the code of a key for a counter (R144). -/
def genCode (p : Config.Params) (alg : HashAlg) (key : List Byte) (c : Dword) (n : Nat) :
    List Byte × Truncated :=
  let h := (p.hmac alg key (be64 c)).toList
  (h, truncate h n)

/-- The block with the code registers written (R140). -/
def writeCode (r : Truncated) (o : OtpState) : OtpState :=
  { o with offset := r.offset, binary := r.binary, codeBin := r.codeBin, codeTxt := r.codeTxt }

/-- The block with a digest written to DIG[0..L) (R41). -/
def writeDigest (h : List Byte) (o : OtpState) : OtpState := { o with dig := overlay o.dig 0 h }

/-- What TRUNC computes, its errors in order (R140). -/
def truncCmd (o : OtpState) : CmdResult :=
  match hashAlgorithm o with
  | none => .error .unsupportedAlgorithm
  | some alg =>
    if digitsLegal (codeDigits o) then
      .ok (writeCode (truncate (digestBytes alg o) (codeDigits o)) o, false)
    else .error .invalidDigitCount

/-- The operands HOTP and TOTP share and the checks on them, in order: LengthRange,
UnsupportedAlgorithm, InvalidDigitCount, InvalidSecretLength (R145, R170). -/
def codeOperands (o : OtpState) : Except CmdError HashAlg :=
  if keyTooLong o then .error .lengthRange
  else match hashAlgorithm o with
    | none => .error .unsupportedAlgorithm
    | some alg =>
      if digitsLegal (codeDigits o) then
        if keyLength o = 0 then .error .invalidSecretLength else .ok alg
      else .error .invalidDigitCount

/-- The block with the digest and the code of KEY for the counter `c` written (R145, R170). -/
def writeGenerated (p : Config.Params) (alg : HashAlg) (c : Dword) (o : OtpState) : OtpState :=
  let g := genCode p alg (keyBytes o) c (codeDigits o)
  writeCode g.2 (writeDigest g.1 o)

/-- What HOTP computes (R145). -/
def hotpCmd (p : Config.Params) (o : OtpState) : CmdResult :=
  match codeOperands o with
  | .error e => .error e
  | .ok alg => .ok (writeGenerated p alg o.ctr o, false)

/-- TRUNC (R140). -/
def execTrunc (s : State) : Host.Outcome State Fault Refusal :=
  complete s (truncCmd s.otp)

/-- HOTP (R145). -/
def execHotp (s : State) : Host.Outcome State Fault Refusal :=
  complete s (hotpCmd Config.params s.otp)

end Sys2Proof.Machine
end

