-- ==== Sys2Proof/Machine/Divider.lean ====
section
/-!
DEFINITION. The time-to-counter divider (42_time_counter.md): the divider function (R160, R162) and the
commands TDIV (R165) and TOTP (R170).
-/

namespace Sys2Proof.Machine

/-- The counter of a time: the exact quotient floor((t - T0) / STEP), or TimeBeforeEpoch when t < T0
(R160, R162). -/
def counterOf (p : Config.Params) (t : Dword) : Except CmdError Dword :=
  if t.toNat < p.t0 then .error .timeBeforeEpoch
  else .ok (BitVec.ofNat 64 ((t.toNat - p.t0) / p.stepSeconds))

/-- What TDIV computes (R165). -/
def tdivCmd (p : Config.Params) (o : OtpState) : CmdResult :=
  match counterOf p o.time with
  | .error e => .error e
  | .ok c => .ok ({ o with ctr := c }, false)

/-- What TOTP computes, its errors in order (R170). -/
def totpCmd (p : Config.Params) (o : OtpState) : CmdResult :=
  match codeOperands o with
  | .error e => .error e
  | .ok alg =>
    match counterOf p o.time with
    | .error e => .error e
    | .ok c => .ok (writeGenerated p alg c { o with ctr := c }, false)

/-- TDIV (R165). -/
def execTdiv (s : State) : Host.Outcome State Fault Refusal :=
  complete s (tdivCmd Config.params s.otp)

/-- TOTP (R170). -/
def execTotp (s : State) : Host.Outcome State Fault Refusal :=
  complete s (totpCmd Config.params s.otp)

end Sys2Proof.Machine
end

