-- ==== Sys2Proof/Machine/Verify.lean ====
section
/-!
DEFINITION. The verification window search (43_verify.md): the candidates (R181, R184), the comparison
(R183) and the command VERIFY (R185).
-/

namespace Sys2Proof.Machine

/-- The candidate counters in order: the current one, then the pairs cur - i, cur + i outward, modulo
2^64 (R181, R184). -/
def candidates (cur : Dword) (w : Nat) : List Dword :=
  cur :: (List.range w).flatMap fun i =>
    [cur - BitVec.ofNat 64 (i + 1), cur + BitVec.ofNat 64 (i + 1)]

/-- The six digits of the code of a candidate, SHA-1 and 6 digits whatever CFG says (R180, R183). -/
def candidateDigits (p : Config.Params) (key : List Byte) (c : Dword) : List Byte :=
  (genCode p Config.verifyAlg key c Config.verifyDigits).2.codeTxt.toList.take Config.verifyDigits

/-- A candidate's code equals the submitted code: SUB_LEN = 6 and the six bytes agree (R183). -/
def candidateMatches (p : Config.Params) (key : List Byte) (o : OtpState) (c : Dword) : Bool :=
  submittedLengthLegal o && candidateDigits p key c == submittedDigits o

/-- The first matching candidate, if one matches (R182, R185). -/
def firstMatch (p : Config.Params) (key : List Byte) (cur : Dword) (o : OtpState) : Option Dword :=
  (candidates cur (windowOffset o)).find? (candidateMatches p key o)

/-- The block with a match reported in MATCH_CTR; no match leaves it (R35, R182). -/
def writeMatch (m : Option Dword) (o : OtpState) : OtpState :=
  { o with matchCtr := m.getD o.matchCtr }

/-- What VERIFY computes, its errors in order (R185). -/
def verifyCmd (p : Config.Params) (o : OtpState) : CmdResult :=
  if textTooLong o then .error .lengthRange
  else match base32Decode p.strictTail (textBytes o) with
    | none => .error .invalidEncoding
    | some key =>
      if key.length = 0 then .error .invalidSecretLength
      else match counterOf p o.time with
        | .error e => .error e
        | .ok cur =>
          let m := firstMatch p key cur o
          .ok (writeMatch m (writeKey key { o with ctr := cur }), m.isSome)

/-- VERIFY (R185). -/
def execVerify (s : State) : Host.Outcome State Fault Refusal :=
  complete s (verifyCmd Config.params s.otp)

end Sys2Proof.Machine
end

