-- ==== Sys2Proof/Machine/Dispatch.lean ====
section
/-!
DEFINITION. One arm per command: execute's dispatch (R90).
-/

namespace Sys2Proof.Machine

def exec (i : Instr) (s : State) : Host.Outcome State Fault Refusal :=
  match i with
  | .b32enc => Sys2Proof.Machine.execB32enc s
  | .b32dec => Sys2Proof.Machine.execB32dec s
  | .trunc => Sys2Proof.Machine.execTrunc s
  | .hotp => Sys2Proof.Machine.execHotp s
  | .tdiv => Sys2Proof.Machine.execTdiv s
  | .totp => Sys2Proof.Machine.execTotp s
  | .verify => Sys2Proof.Machine.execVerify s

end Sys2Proof.Machine
end

