-- ==== Sys2Proof/Machine/Engine.lean ====
section
/-!
DEFINITION. The engine (R84) and which of the two agents steps next (R20, R251).
-/

namespace Sys2Proof.Machine

/-- The engine step: the pending command word is decoded and executed as one atomic transition; an
illegal word completes with BadCommand (R82, R84, R90). -/
def engineStep (s : State) : Host.Outcome State Fault Refusal :=
  match decode s.otp.pending with
  | .ok i => exec i s
  | .error _ => complete s (.error .badCommand)

/-- The engine's turn: it is enabled exactly when BUSY = 1 (R84); otherwise its turn passes and the idle
block holds all its state (R213). -/
def engineTurn (s : State) : Host.Outcome State Fault Refusal :=
  if s.otp.busy then engineStep s else .next s

/-- The agent that steps next. The turns listed may be any; when none is listed the engine goes first
whenever it is enabled, so that no run starves it (R251; log entry 5). -/
def nextAgent (s : State) : Agent :=
  match s.turns with
  | [] => if s.otp.busy then .engine else .host
  | a :: _ => a

/-- The state with the turn that is being taken removed from the list. -/
def takeTurn (s : State) : State := { s with turns := s.turns.tail }

end Sys2Proof.Machine
end

