-- ==== Sys2Proof/Machine/Step.lean ====
section
/-!
DEFINITION. One step of the machine: the agent whose turn it is takes it (R20).
-/

namespace Sys2Proof.Machine

/-- One step: one bus access (or poll, or reset) of the host, or one whole command of the engine. -/
def step (s : State) : Host.Outcome State Fault Refusal :=
  match nextAgent s with
  | .engine => engineTurn (takeTurn s)
  | .host => hostTurn (takeTurn s)

/-- The state in which the word `w` has been accepted as a command (R83) and the engine has the next
turn, so that the next step executes exactly it. It stands for the host's CMD write (log entry 7). -/
def State.withFetchWord (s : State) (nbits w : Nat) : State :=
  { s with
    otp := acceptCommand (BitVec.ofNat 32 (w % 2 ^ nbits)) s.otp
    turns := .engine :: s.turns }

end Sys2Proof.Machine
end

