-- ==== Sys2Proof/Machine/HostProgram.lean ====
section
/-!
DEFINITION. The host program syntax (30_encoding.md section 5): statements (R88), pseudo-statements and
their expansions (R89). A program is the list of inputs its statements expand to.
-/

namespace Sys2Proof.Machine

/-- `<reg>` of a statement: a register, or a buffer by the name of its first word (R88). -/
inductive RegName where
  | reg (r : Reg)
  | buf (b : Buf)
  deriving DecidableEq, Repr

/-- offset(reg) (R88). -/
def RegName.addr : RegName → Nat
  | .reg r => r.addr
  | .buf b => b.addr

/-- A 64-bit register pair `<X>` of WR64 (R89). -/
inductive Wide where
  | time | ctr | matchCtr
  deriving DecidableEq, Repr

/-- X_LO (R23). -/
def Wide.lo : Wide → Reg
  | .time => .timeLo
  | .ctr => .ctrLo
  | .matchCtr => .matchCtrLo

/-- X_HI (R23). -/
def Wide.hi : Wide → Reg
  | .time => .timeHi
  | .ctr => .ctrHi
  | .matchCtr => .matchCtrHi

/-- A statement or pseudo-statement of a host program (R88, R89); `WR <reg>` is `wr` with k = 0. -/
inductive Stmt where
  | wr (reg : RegName) (k : Nat) (v : Word)
  | rd (reg : RegName) (k : Nat)
  | cmd (i : Instr)
  | wait
  | wrbuf (buf : Buf) (bytes : List Byte)
  | rdbuf (buf : Buf) (n : Nat)
  | wr64 (x : Wide) (v : Dword)
  | run (i : Instr)
  deriving DecidableEq, Repr

/-- BusWrite(offset(reg) + k, 4, v) as an input (R88). -/
def writeAt (reg : RegName) (k : Nat) (v : Word) : Input :=
  .write (BitVec.ofNat 12 (reg.addr + k)) 4 v

/-- BusRead(offset(reg) + k, 4) as an input (R88). -/
def readAt (reg : RegName) (k : Nat) : Input := .read (BitVec.ofNat 12 (reg.addr + k)) 4

/-- The little-endian words of a byte string, the last word zero-filled (R89). -/
def laneWords (bs : List Byte) : List Word :=
  (List.range ((bs.length + 3) / 4)).map fun j =>
    wordOfLanes (bs.getD (4 * j) 0) (bs.getD (4 * j + 1) 0) (bs.getD (4 * j + 2) 0)
      (bs.getD (4 * j + 3) 0)

/-- What a statement expands to (R88, R89). -/
def Stmt.inputs : Stmt → List Input
  | .wr reg k v => [writeAt reg k v]
  | .rd reg k => [readAt reg k]
  | .cmd i => [writeAt (.reg .cmd) 0 (encode i)]
  | .wait => [.wait]
  | .wrbuf b bytes => (laneWords bytes).mapIdx fun j w => writeAt (.buf b) (4 * j) w
  | .rdbuf b n => (List.range ((n + 3) / 4)).map fun j => readAt (.buf b) (4 * j)
  | .wr64 x v => [writeAt (.reg x.lo) 0 (lowHalf v), writeAt (.reg x.hi) 0 (highHalf v)]
  | .run i => [writeAt (.reg .cmd) 0 (encode i), .wait]

/-- The inputs of a whole program, first statement first. -/
def programInputs (p : List Stmt) : List Input := p.flatMap Stmt.inputs

end Sys2Proof.Machine
end

