-- ==== Sys2Proof/Safety.lean ====
section
/-!
DEFINITION. What a good state and a good run are, in the terms the claims use: the invariants of STATUS
(R25), of ERRCODE (R200) and of the code registers (R36 to R39), a run that keeps to the interface
(R65), and the end of a run (R246).
-/

namespace Sys2Proof.Machine

/-- The invariants of STATUS: ERR = 1 iff ERRCODE is not 0, MATCH = 1 implies ERR = 0, BUSY = 1 implies
DONE = 0 (R25). -/
def OtpState.statusOk (o : OtpState) : Prop :=
  (o.err = true ↔ o.errcode ≠ 0) ∧ (o.matched = true → o.err = false) ∧ (o.busy = true → o.done = false)

/-- ERRCODE is 0 or one of the codes 1 to 7; 8 to 15 are never produced (R200). -/
def OtpState.errcodeOk (o : OtpState) : Prop := o.errcode.toNat ≤ 7

/-- The code registers belong together: OFFSET, BINARY, CODE_BIN and CODE_TXT are all zero, as at reset, or
all four are those of one truncation: of one digest of 20, 32 or 64 bytes, to one code length N of 1 to 8,
with OFFSET its dynamic offset, BINARY its 31-bit value there, CODE_BIN = BINARY mod 10^N and CODE_TXT the
N-digit text of CODE_BIN (R36 to R39, R134 to R138). -/
def OtpState.codeOk (o : OtpState) : Prop :=
  (o.offset = 0 ∧ o.binary = 0 ∧ o.codeBin = 0 ∧ o.codeTxt = Vector.replicate 8 0) ∨
  ∃ (h : List Byte) (n : Nat), (h.length = 20 ∨ h.length = 32 ∨ h.length = 64) ∧ 1 ≤ n ∧ n ≤ 8 ∧
    o.offset = dynamicOffset h ∧ o.binary = extractBinary h o.offset.toNat ∧
    o.codeBin.toNat = o.binary.toNat % 10 ^ n ∧ o.codeTxt = decText n o.codeBin.toNat

/-- The invariant of the block. -/
def OtpState.Good (o : OtpState) : Prop := o.statusOk ∧ o.errcodeOk ∧ o.codeOk

/-- Every input the outside world will make is one the interface has (R65). -/
def State.inputsLegal (s : State) : Prop := ∀ i ∈ s.inputs, i.legal = true

/-- The run is over: the host has made its last access and no command is pending (R246). -/
def State.runOver (s : State) : Prop := s.inputs = [] ∧ s.otp.busy = false

end Sys2Proof.Machine
end

