-- ==== Sys2Proof/Certificates/Slice0/Obligations.lean ====
section
/-!
DEFINITION. The statements. The first half restates the spec's formulas in plain numbers (bytes, lengths,
digits as natural numbers), independently of how the model computes them; the second half states the
claims with them. A statement about a command holds for every state, reachable or not, unless it says
otherwise. Where a statement's Lean says that a completed command leaves PENDING as it was, the latch is
the model's choice (log entry 6): R22 calls it cleared on completion, R44 meaningless while BUSY = 0.
-/

namespace Sys2Proof.Claims

open Sys2Proof.Machine

/-! ### STATUS and turns -/

/-- The block `o` after a command completed without error: STATUS says so (R84). -/
def completedOk (hit : Bool) (o : OtpState) : OtpState :=
  { o with busy := false, done := true, err := false, matched := hit, errcode := 0 }

/-- The block `o` after a command completed with the error of that code (R84, R203). -/
def completedErr (code : BitVec 4) (o : OtpState) : OtpState :=
  { o with busy := false, done := true, err := true, matched := false, errcode := code }

/-- Executing `i` in `s` answers a next state whose block is `o`; nothing outside the block changes. -/
def Yields (i : Instr) (s : State) (o : OtpState) : Prop := exec i s = .next { s with otp := o }

/-- The engine takes the next step and is enabled (R84). -/
def EngineSteps (s : State) : Prop := nextAgent s = .engine ∧ s.otp.busy = true

/-- The host takes the next step, and `i` is what it does; `rest` is left for later. -/
def HostSteps (s : State) (i : Input) (rest : List Input) : Prop :=
  nextAgent s = .host ∧ s.inputs = i :: rest

/-- `s` after a host step that left `rest` to do and the block `o`. -/
def afterHost (s : State) (rest : List Input) (o : OtpState) : State :=
  { s with otp := o, inputs := rest, turns := s.turns.tail }

/-! ### Bytes as numbers -/

/-- Byte `i` of a buffer as a number; 0 past its end. -/
def byteNat {n : Nat} (v : Vector Byte n) (i : Nat) : Nat := (v[i]?.getD 0).toNat

/-- Byte `i` of the buffer of that name as a number. -/
def bufferNat (o : OtpState) (b : Buf) (i : Nat) : Nat :=
  match b with
  | .codeTxt => byteNat o.codeTxt i
  | .sub => byteNat o.sub i
  | .dig => byteNat o.dig i
  | .key => byteNat o.key i
  | .txt => byteNat o.txt i

/-- Bit `i` of a string of `w`-bit numbers, the most significant bit of each first (R101). -/
def bitNat (w : Nat) (f : Nat → Nat) (i : Nat) : Nat := f (i / w) / 2 ^ (w - 1 - i % w) % 2

/-- The number whose `w` bits, most significant first, are bits w*j, w*j + 1, … of `f` (R101). -/
def groupNat (w : Nat) (f : Nat → Nat) (j : Nat) : Nat :=
  ((List.range w).map fun r => f (w * j + r) * 2 ^ (w - 1 - r)).sum

/-! ### Base32 -/

/-- The character code of a 5-bit value (R100). -/
def charNat (v : Nat) : Nat := if v < 26 then 0x41 + v else 0x32 + (v - 26)

/-- Case folding (R111). -/
def foldNat (x : Nat) : Nat := if 0x61 ≤ x ∧ x ≤ 0x7A then x - 0x20 else x

/-- The 5-bit value of a character code after folding, if it has one (R100, R111). -/
def charValue (x : Nat) : Option Nat :=
  if 0x41 ≤ foldNat x ∧ foldNat x ≤ 0x5A then some (foldNat x - 0x41)
  else if 0x32 ≤ foldNat x ∧ foldNat x ≤ 0x37 then some (foldNat x - 0x32 + 26)
  else none

/-- Bit `i` of the secret KEY[0..KEY_LEN), 0 past its end (R101). -/
def keyBit (o : OtpState) (i : Nat) : Nat :=
  if i < 8 * o.keyLen.toNat then bitNat 8 (byteNat o.key) i else 0

/-- Bit `i` of the text's 5-bit values (R101). -/
def textBit (o : OtpState) (i : Nat) : Nat :=
  bitNat 5 (fun j => (charValue (byteNat o.txt j)).getD 0) i

/-- The length of the unpadded text of KEY (R103). -/
def unpaddedLength (o : OtpState) : Nat := (8 * o.keyLen.toNat + 4) / 5

/-- The length of the text B32ENC writes: padded, the next multiple of 8 (R103). -/
def encodedLength (o : OtpState) : Nat :=
  if o.pad then 8 * ((unpaddedLength o + 7) / 8) else unpaddedLength o

/-- Byte `i` of TXT after B32ENC (R105). -/
def encodedByte (o : OtpState) (i : Nat) : Nat :=
  if i < unpaddedLength o then charNat (groupNat 5 (keyBit o) i)
  else if i < encodedLength o then 0x3D
  else byteNat o.txt i

/-- TXT[0..TXT_LEN) is a legal Base32 text with `d` characters of data: data of the alphabet, then only
"=", no impossible length, and no pad or exactly the canonical one (R103, R110, R112). -/
def LegalText (o : OtpState) (d : Nat) : Prop :=
  d ≤ o.txtLen.toNat ∧
  (∀ i, i < d → charValue (byteNat o.txt i) ≠ none) ∧
  (∀ i, d ≤ i → i < o.txtLen.toNat → byteNat o.txt i = 0x3D) ∧
  (d % 8 ≠ 1 ∧ d % 8 ≠ 3 ∧ d % 8 ≠ 6) ∧
  (d = o.txtLen.toNat ∨ (o.txtLen.toNat % 8 = 0 ∧ o.txtLen.toNat - d < 8))

/-- `o'` is `o` with the secret that `d` characters of data stand for in KEY and KEY_LEN (R110). -/
def SecretDecoded (o : OtpState) (d : Nat) (o' : OtpState) : Prop :=
  o'.keyLen.toNat = 5 * d / 8 ∧
  (∀ i, i < 80 → byteNat o'.key i =
    if i < 5 * d / 8 then groupNat 8 (textBit o) i else byteNat o.key i) ∧
  o' = { o with key := o'.key, keyLen := o'.keyLen }

/-! ### Truncation -/

/-- DIGEST_LEN of CFG.ALG (R132). -/
def digestLength (alg : BitVec 2) : Nat :=
  if alg = 0 then 20 else if alg = 1 then 32 else if alg = 2 then 64 else 0

/-- The algorithm CFG.ALG names (R132); 3 names none and is never asked for. -/
def algorithm (alg : BitVec 2) : HashAlg :=
  if alg = 0 then .sha1 else if alg = 1 then .sha256 else .sha512

/-- CFG.DIGITS is in [1,8] (R136). -/
def DigitsLegal (o : OtpState) : Prop := 1 ≤ o.digits.toNat ∧ o.digits.toNat ≤ 8

/-- The dynamic offset of a digest of `len` bytes (R134). -/
def offsetNat (h : Nat → Nat) (len : Nat) : Nat := h (len - 1) % 16

/-- The 31-bit value (R135). -/
def binaryNat (h : Nat → Nat) (len : Nat) : Nat :=
  h (offsetNat h len) % 128 * 2 ^ 24 + h (offsetNat h len + 1) * 2 ^ 16 +
    h (offsetNat h len + 2) * 2 ^ 8 + h (offsetNat h len + 3)

/-- The code as a number (R136). -/
def codeNat (h : Nat → Nat) (len n : Nat) : Nat := binaryNat h len % 10 ^ n

/-- Byte `j` of the text of the code `k` of `n` digits (R137). -/
def codeTextByte (n k j : Nat) : Nat := if j < n then 0x30 + k / 10 ^ (n - 1 - j) % 10 else 0

/-- OFFSET, BINARY, CODE_BIN and CODE_TXT of `o` are those of the digest `h` (R138). -/
def CodeOf (h : Nat → Nat) (len n : Nat) (o : OtpState) : Prop :=
  o.offset.toNat = offsetNat h len ∧ o.binary.toNat = binaryNat h len ∧
  o.codeBin.toNat = codeNat h len n ∧
  ∀ j, j < 8 → byteNat o.codeTxt j = codeTextByte n (codeNat h len n) j

/-- The 8-byte big-endian counter message (R133). -/
def message (c : Dword) : List Byte :=
  (List.range 8).map fun i => BitVec.ofNat 8 (c.toNat / 2 ^ (56 - 8 * i))

/-- The secret KEY[0..KEY_LEN) (R42). -/
def secret (o : OtpState) : List Byte := o.key.toList.take o.keyLen.toNat

/-- The digest the HMAC port answers for a secret and a counter, byte by byte (R130, R144). -/
def digestNat (alg : HashAlg) (key : List Byte) (c : Dword) : Nat → Nat :=
  byteNat (Config.hmac alg key (message c))

/-- `o'` is `o` with the digest and the code of its secret for the counter `c` written, and nothing
else (R145). -/
def CodeGenerated (o : OtpState) (c : Dword) (o' : OtpState) : Prop :=
  let h := digestNat (algorithm o.alg) (secret o) c
  CodeOf h (digestLength o.alg) o.digits.toNat o' ∧
  (∀ i, i < 64 → byteNat o'.dig i = if i < digestLength o.alg then h i else byteNat o.dig i) ∧
  o' = { o with dig := o'.dig, offset := o'.offset, binary := o'.binary, codeBin := o'.codeBin,
                codeTxt := o'.codeTxt }

/-! ### Verification -/

/-- Counter number `j` of the window around `cur`: cur, cur - 1, cur + 1, cur - 2, … modulo 2^64 (R181,
R184). -/
def candidateAt (cur : Dword) (j : Nat) : Dword :=
  if j % 2 = 1 then cur - BitVec.ofNat 64 ((j + 1) / 2) else cur + BitVec.ofNat 64 (j / 2)

/-- Byte `j` of the six-digit SHA-1 code of a secret for a counter (R180, R183). -/
def verifyCodeByte (key : List Byte) (c : Dword) (j : Nat) : Nat :=
  codeTextByte 6 (codeNat (digestNat .sha1 key c) 20 6) j

/-- The submitted code is the code of the counter `c`: SUB_LEN = 6 and the six bytes agree (R183). -/
def Submitted (o : OtpState) (key : List Byte) (c : Dword) : Prop :=
  o.subLen.toNat = 6 ∧ ∀ j, j < 6 → byteNat o.sub j = verifyCodeByte key c j

/-- `o'` is the decoded block `o` after the window search around `cur`: CTR is `cur`, `hit` says whether
a candidate matched, MATCH_CTR is the first one that did and is unchanged if none did (R182, R185). -/
def Searched (o : OtpState) (cur : Dword) (hit : Bool) (o' : OtpState) : Prop :=
  (hit = true ↔ ∃ j, j ≤ 2 * o.window.toNat ∧ Submitted o (secret o) (candidateAt cur j)) ∧
  (∀ j, j ≤ 2 * o.window.toNat → Submitted o (secret o) (candidateAt cur j) →
    (∀ k, k < j → ¬ Submitted o (secret o) (candidateAt cur k)) →
    o'.matchCtr = candidateAt cur j) ∧
  (hit = false → o'.matchCtr = o.matchCtr) ∧
  o' = { o with ctr := cur, matchCtr := o'.matchCtr }

/-! ### Errors -/

/-- The error kinds in the order of priority (R202). -/
def priority : List CmdError :=
  [.badCommand, .lengthRange, .unsupportedAlgorithm, .invalidDigitCount, .invalidEncoding,
   .invalidSecretLength, .timeBeforeEpoch]

/-- The condition of an error holds for a command, by the table's "raised by" and "cause" columns (R200,
R201); a decoded command is never BadCommand, and with T0 = 0 no time is before the epoch (R162). -/
def Raised (i : Instr) (o : OtpState) : CmdError → Prop
  | .badCommand => False
  | .lengthRange =>
    ((i = .b32enc ∨ i = .hotp ∨ i = .totp) ∧ 80 < o.keyLen.toNat) ∨
    ((i = .b32dec ∨ i = .verify) ∧ 128 < o.txtLen.toNat)
  | .unsupportedAlgorithm => (i = .trunc ∨ i = .hotp ∨ i = .totp) ∧ o.alg = 3
  | .invalidDigitCount => (i = .trunc ∨ i = .hotp ∨ i = .totp) ∧ ¬ DigitsLegal o
  | .invalidEncoding => (i = .b32dec ∨ i = .verify) ∧ ¬ ∃ d, LegalText o d
  | .invalidSecretLength =>
    ((i = .hotp ∨ i = .totp) ∧ o.keyLen.toNat = 0) ∨
    (i = .verify ∧ ∃ d, LegalText o d ∧ 5 * d / 8 = 0)
  | .timeBeforeEpoch => (i = .tdiv ∨ i = .totp ∨ i = .verify) ∧ o.time.toNat < 0

/-- STATUS.ERRCODE of an error (R200). -/
def errorNumber : CmdError → BitVec 4
  | .invalidEncoding => 1
  | .unsupportedAlgorithm => 2
  | .invalidDigitCount => 3
  | .invalidSecretLength => 4
  | .badCommand => 5
  | .lengthRange => 6
  | .timeBeforeEpoch => 7

/-- The condition of an error holds for a command word: BadCommand for an illegal word (R82), any other
error for the command the word encodes (R200). -/
def RaisedBy (w : Word) (o : OtpState) (e : CmdError) : Prop :=
  match e with
  | .badCommand => w.toNat % 16 = 0 ∨ 8 ≤ w.toNat % 16 ∨ w.toNat / 16 ≠ 0
  | e => ∃ i, w = encode i ∧ Raised i o e

/-! ### The register map as numbers -/

/-- The four bytes of a buffer from index `i` on as a little-endian number (R62). -/
def laneNat {n : Nat} (v : Vector Byte n) (i : Nat) : Nat :=
  byteNat v i + byteNat v (i + 1) * 2 ^ 8 + byteNat v (i + 2) * 2 ^ 16 + byteNat v (i + 3) * 2 ^ 24

/-- STATUS as a number (R25). -/
def statusNat (o : OtpState) : Nat :=
  o.busy.toNat + o.done.toNat * 2 + o.err.toNat * 4 + o.matched.toNat * 8 + o.errcode.toNat * 16 +
    o.busyerr.toNat * 256

/-- What an aligned offset reads as while the block is idle (R23, R25 to R43, R63). -/
def mapNat (o : OtpState) (a : Nat) : Nat :=
  if a = 0x004 then statusNat o
  else if a = 0x008 then o.digits.toNat + o.alg.toNat * 16 + o.pad.toNat * 256
  else if a = 0x00C then o.window.toNat
  else if a = 0x010 then o.keyLen.toNat
  else if a = 0x014 then o.txtLen.toNat
  else if a = 0x018 then o.subLen.toNat
  else if a = 0x020 then o.time.toNat % 2 ^ 32
  else if a = 0x024 then o.time.toNat / 2 ^ 32
  else if a = 0x028 then o.ctr.toNat % 2 ^ 32
  else if a = 0x02C then o.ctr.toNat / 2 ^ 32
  else if a = 0x030 then o.matchCtr.toNat % 2 ^ 32
  else if a = 0x034 then o.matchCtr.toNat / 2 ^ 32
  else if a = 0x038 then o.offset.toNat
  else if a = 0x03C then o.binary.toNat
  else if a = 0x040 then o.codeBin.toNat
  else if 0x048 ≤ a ∧ a < 0x050 then laneNat o.codeTxt (a - 0x048)
  else if 0x050 ≤ a ∧ a < 0x058 then laneNat o.sub (a - 0x050)
  else if 0x100 ≤ a ∧ a < 0x140 then laneNat o.dig (a - 0x100)
  else if 0x140 ≤ a ∧ a < 0x190 then laneNat o.key (a - 0x140)
  else if 0x200 ≤ a ∧ a < 0x280 then laneNat o.txt (a - 0x200)
  else 0

/-- The bits of an aligned offset that a host write to an idle block stores (R23, R27 to R34, R40 to
R43): all of a read-write register's fields, none of a read-only, write-only or reserved one. -/
def storedBits (a : Nat) : Nat :=
  if a = 0x008 then 0x13F
  else if a = 0x00C then 0xFF
  else if a = 0x010 then 0x7F
  else if a = 0x014 then 0xFF
  else if a = 0x018 then 0xF
  else if 0x020 ≤ a ∧ a < 0x030 then 0xFFFFFFFF
  else if 0x050 ≤ a ∧ a < 0x058 then 0xFFFFFFFF
  else if 0x100 ≤ a ∧ a < 0x190 then 0xFFFFFFFF
  else if 0x200 ≤ a ∧ a < 0x280 then 0xFFFFFFFF
  else 0

/-- An offset a register or a buffer window of the map covers (R23). -/
def Mapped (a : Nat) : Prop :=
  (a < 0x01C) ∨ (0x020 ≤ a ∧ a < 0x044) ∨ (0x048 ≤ a ∧ a < 0x058) ∨ (0x100 ≤ a ∧ a < 0x190) ∨
  (0x200 ≤ a ∧ a < 0x280)

/-! ### What a command reads and writes -/

/-- Two blocks agree on a command's operands: the "reads" column of the opcode map, a buffer only as far
as its length register says (R81). -/
def SameOperands (i : Instr) (o o' : OtpState) : Prop :=
  match i with
  | .b32enc => o.keyLen = o'.keyLen ∧ o.pad = o'.pad ∧ secret o = secret o'
  | .b32dec =>
    o.txtLen = o'.txtLen ∧ (∀ k, k < o.txtLen.toNat → byteNat o.txt k = byteNat o'.txt k)
  | .trunc =>
    o.alg = o'.alg ∧ o.digits = o'.digits ∧
      (∀ k, k < digestLength o.alg → byteNat o.dig k = byteNat o'.dig k)
  | .hotp =>
    o.keyLen = o'.keyLen ∧ secret o = secret o' ∧ o.ctr = o'.ctr ∧ o.alg = o'.alg ∧
      o.digits = o'.digits
  | .tdiv => o.time = o'.time
  | .totp =>
    o.keyLen = o'.keyLen ∧ secret o = secret o' ∧ o.time = o'.time ∧ o.alg = o'.alg ∧
      o.digits = o'.digits
  | .verify =>
    o.txtLen = o'.txtLen ∧ (∀ k, k < o.txtLen.toNat → byteNat o.txt k = byteNat o'.txt k) ∧
      o.time = o'.time ∧ o.window = o'.window ∧ o.subLen = o'.subLen ∧ o.sub = o'.sub

/-- Two completed blocks agree on what a command reports: STATUS but BUSYERR, which is the host's. -/
def SameReport (o o' : OtpState) : Prop :=
  o.busy = o'.busy ∧ o.done = o'.done ∧ o.err = o'.err ∧ o.matched = o'.matched ∧
  o.errcode = o'.errcode

/-- Two blocks agree on a command's write set, a buffer as far as the command writes it; MATCH_CTR only
where a candidate matched (R45). -/
def SameResults (i : Instr) (o o' : OtpState) : Prop :=
  match i with
  | .b32enc =>
    o.txtLen = o'.txtLen ∧ (∀ k, k < o.txtLen.toNat → byteNat o.txt k = byteNat o'.txt k)
  | .b32dec => o.keyLen = o'.keyLen ∧ secret o = secret o'
  | .trunc =>
    o.offset = o'.offset ∧ o.binary = o'.binary ∧ o.codeBin = o'.codeBin ∧ o.codeTxt = o'.codeTxt
  | .hotp =>
    o.offset = o'.offset ∧ o.binary = o'.binary ∧ o.codeBin = o'.codeBin ∧ o.codeTxt = o'.codeTxt ∧
      (∀ k, k < digestLength o.alg → byteNat o.dig k = byteNat o'.dig k)
  | .tdiv => o.ctr = o'.ctr
  | .totp =>
    o.offset = o'.offset ∧ o.binary = o'.binary ∧ o.codeBin = o'.codeBin ∧ o.codeTxt = o'.codeTxt ∧
      (∀ k, k < digestLength o.alg → byteNat o.dig k = byteNat o'.dig k) ∧ o.ctr = o'.ctr
  | .verify =>
    o.keyLen = o'.keyLen ∧ secret o = secret o' ∧ o.ctr = o'.ctr ∧
      (o.matched = true → o.matchCtr = o'.matchCtr)

/-- Everything outside a command's write set and STATUS is the same in the block `o` it took and the
block `o'` it left; a buffer is the same from the end of what the command wrote (R45). -/
def OutsideWriteSetSame (i : Instr) (o o' : OtpState) : Prop :=
  match i with
  | .b32enc =>
    (∀ k, o'.txtLen.toNat ≤ k → byteNat o'.txt k = byteNat o.txt k) ∧
    o' = completedOk false { o with txt := o'.txt, txtLen := o'.txtLen }
  | .b32dec =>
    (∀ k, o'.keyLen.toNat ≤ k → byteNat o'.key k = byteNat o.key k) ∧
    o' = completedOk false { o with key := o'.key, keyLen := o'.keyLen }
  | .trunc =>
    o' = completedOk false { o with offset := o'.offset, binary := o'.binary,
                                    codeBin := o'.codeBin, codeTxt := o'.codeTxt }
  | .hotp =>
    (∀ k, digestLength o.alg ≤ k → byteNat o'.dig k = byteNat o.dig k) ∧
    o' = completedOk false { o with dig := o'.dig, offset := o'.offset, binary := o'.binary,
                                    codeBin := o'.codeBin, codeTxt := o'.codeTxt }
  | .tdiv => o' = completedOk false { o with ctr := o'.ctr }
  | .totp =>
    (∀ k, digestLength o.alg ≤ k → byteNat o'.dig k = byteNat o.dig k) ∧
    o' = completedOk false { o with ctr := o'.ctr, dig := o'.dig, offset := o'.offset,
                                    binary := o'.binary, codeBin := o'.codeBin,
                                    codeTxt := o'.codeTxt }
  | .verify =>
    (∀ k, o'.keyLen.toNat ≤ k → byteNat o'.key k = byteNat o.key k) ∧
    (o'.matched = false → o'.matchCtr = o.matchCtr) ∧
    o' = completedOk o'.matched { o with key := o'.key, keyLen := o'.keyLen, ctr := o'.ctr,
                                         matchCtr := o'.matchCtr }

/-- The byte offsets of the register space a command may store to: STATUS, its registers' words and the
bytes of its buffers, `n` of them (R23, R45). `n` is the length the command left in the register of
the buffer it wrote, and DIGEST_LEN for DIG. -/
def storedOffsets (i : Instr) (o o' : OtpState) (a : Nat) : Prop :=
  (0x004 ≤ a ∧ a < 0x008) ∨
  match i with
  | .b32enc => (0x014 ≤ a ∧ a < 0x018) ∨ (0x200 ≤ a ∧ a < 0x200 + o'.txtLen.toNat)
  | .b32dec => (0x010 ≤ a ∧ a < 0x014) ∨ (0x140 ≤ a ∧ a < 0x140 + o'.keyLen.toNat)
  | .trunc => (0x038 ≤ a ∧ a < 0x044) ∨ (0x048 ≤ a ∧ a < 0x050)
  | .hotp =>
    (0x038 ≤ a ∧ a < 0x044) ∨ (0x048 ≤ a ∧ a < 0x050) ∨
    (0x100 ≤ a ∧ a < 0x100 + digestLength o.alg)
  | .tdiv => 0x028 ≤ a ∧ a < 0x030
  | .totp =>
    (0x028 ≤ a ∧ a < 0x030) ∨ (0x038 ≤ a ∧ a < 0x044) ∨ (0x048 ≤ a ∧ a < 0x050) ∨
    (0x100 ≤ a ∧ a < 0x100 + digestLength o.alg)
  | .verify =>
    (0x010 ≤ a ∧ a < 0x014) ∨ (0x028 ≤ a ∧ a < 0x030) ∨
    (o'.matched = true ∧ 0x030 ≤ a ∧ a < 0x038) ∨
    (0x140 ≤ a ∧ a < 0x140 + o'.keyLen.toNat)

end Sys2Proof.Claims

open Sys2Proof Sys2Proof.Machine Sys2Proof.Claims

/-! ## Encoding -/

/-- The words of the opcode map decode to the commands they stand for, and words with a reserved opcode
or a set bit above the opcode are rejected by name (30_encoding.md section 1). -/
def Obligations.TabulatedWordsDecode : Prop :=
  decode 0x00000001#32 = .ok .b32enc ∧ decode 0x00000002#32 = .ok .b32dec ∧
  decode 0x00000003#32 = .ok .trunc ∧ decode 0x00000004#32 = .ok .hotp ∧
  decode 0x00000005#32 = .ok .tdiv ∧ decode 0x00000006#32 = .ok .totp ∧
  decode 0x00000007#32 = .ok .verify ∧
  decode 0x00000000#32 = .error .reservedOpcode ∧ decode 0x00000008#32 = .error .reservedOpcode ∧
  decode 0x0000000F#32 = .error .reservedOpcode ∧
  decode 0x00000017#32 = .error .nonzeroZ ∧ decode 0x80000001#32 = .error .nonzeroZ

/-- Decoding and encoding agree both ways, for every word and every command: a word decodes to a command
exactly when it is that command's word (30_encoding.md section 1). -/
def Obligations.DecodeIsExactlyEncodeInverse : Prop :=
  ∀ (w : Word) (i : Instr), decode w = .ok i ↔ w = encode i

/-- R82: every illegal word is accepted like any other (BUSY is set) and completes with BadCommand,
writing nothing but STATUS; every other word is a command. -/
def Obligations.IllegalWordCompletesWithBadCommand : Prop :=
  ∀ v : Word,
    ((v.toNat % 16 = 0 ∨ 8 ≤ v.toNat % 16 ∨ v.toNat / 16 ≠ 0) →
      (∀ s rest, HostSteps s (.write 0x000#12 4 v) rest → s.otp.busy = false →
        ∃ t, step s = .next t ∧ t.otp.busy = true ∧ t.otp.pending = v) ∧
      (∀ s, EngineSteps s → s.otp.pending = v →
        step s = .next { takeTurn s with otp := completedErr 5 s.otp })) ∧
    (¬ (v.toNat % 16 = 0 ∨ 8 ≤ v.toNat % 16 ∨ v.toNat / 16 ≠ 0) →
      ∃ i, decode v = .ok i ∧ i.wellFormed = true ∧ encode i = v)

/-! ## The step -/

/-- A step of the engine is `exec` of the command its pending word decodes to, at that state with the
turn taken; a step of the host is its next input, and an agent with nothing to do passes. -/
def Obligations.StepRunsTheDecodedCommandOrTheHostInput : Prop :=
  ∀ s : State,
    (∀ i, EngineSteps s → decode s.otp.pending = .ok i → i.wellFormed = true →
      step s = exec i (takeTurn s)) ∧
    (∀ i rest, HostSteps s i rest →
      step s = hostStep i { takeTurn s with inputs := rest }) ∧
    (nextAgent s = .engine → s.otp.busy = false → step s = .next (takeTurn s)) ∧
    (nextAgent s = .host → s.inputs = [] → step s = .next (takeTurn s))

/-- The engine step always ends, sets DONE and clears BUSY, touches nothing outside the block and never
BUSYERR, reports ERRCODE 0 without an error, and reports MATCH for VERIFY alone (30_encoding.md section
2). That PENDING keeps its word is no rule of the spec, which calls it cleared on completion and
meaningless while BUSY = 0 (10_state.md sections 1 and 5): that clause is the model's choice, log entry 6. -/
def Obligations.EngineStepAlwaysCompletes : Prop :=
  ∀ s : State, EngineSteps s →
    ∃ o, step s = .next { takeTurn s with otp := o } ∧ o.busy = false ∧ o.done = true ∧
      o.busyerr = s.otp.busyerr ∧ o.pending = s.otp.pending ∧
      (o.err = false → o.errcode = 0) ∧
      (o.matched = true → decode s.otp.pending = .ok .verify ∧ o.err = false) ∧
      (o.err = true → o = completedErr o.errcode s.otp ∧ 1 ≤ o.errcode.toNat ∧ o.errcode.toNat ≤ 7)

/-- R65: the machine stops exactly where the host's next access is not an aligned 32-bit access, and no
step is ever refused. -/
def Obligations.StopsExactlyOutsideTheInterface : Prop :=
  ∀ s : State,
    (∀ r, step s ≠ .refused r) ∧
    (∀ f, step s = .fault f ↔
      ∃ a width rest, ((∃ v, HostSteps s (.write a width v) rest) ∨ HostSteps s (.read a width) rest) ∧
        (a.toNat % 4 ≠ 0 ∨ width ≠ 4) ∧ f = .accessOutsideInterface a width)

/-! ## The host's accesses -/

/-- R83: a CMD write to an idle block latches the word, sets BUSY, clears DONE, ERR, MATCH and ERRCODE,
and leaves BUSYERR and everything else. -/
def Obligations.CommandWriteIsAccepted : Prop :=
  ∀ (s : State) (rest : List Input) (v : Word),
    HostSteps s (.write 0x000#12 4 v) rest → s.otp.busy = false →
    step s = .next (afterHost s rest { s.otp with
      pending := v, busy := true, done := false, err := false, matched := false, errcode := 0 })

/-- R240 and R26: while BUSY = 1 a write to any other address than STATUS changes BUSYERR alone, setting
it; a write to STATUS, busy or idle, clears BUSYERR if its bit 8 is set and changes nothing else. -/
def Obligations.BusyWritesAreDroppedAndStatusWritesClearBusyerr : Prop :=
  ∀ (s : State) (rest : List Input) (a : Offset) (v : Word),
    HostSteps s (.write a 4 v) rest → a.toNat % 4 = 0 →
    (a.toNat ≠ 0x004 → s.otp.busy = true →
      step s = .next (afterHost s rest { s.otp with busyerr := true })) ∧
    (a.toNat = 0x004 →
      step s = .next (afterHost s rest
        { s.otp with busyerr := if v.toNat / 256 % 2 = 1 then false else s.otp.busyerr }))

/-- A read of an idle block, or of STATUS at any time, returns the value of the register map and changes
nothing of the block, for every aligned offset (20_memory.md section 3, 10_state.md section 2). -/
def Obligations.ReadsReturnTheRegisterMap : Prop :=
  ∀ (s : State) (rest : List Input) (a : Offset),
    HostSteps s (.read a 4) rest → a.toNat % 4 = 0 → (s.otp.busy = false ∨ a.toNat = 0x004) →
    ∃ t, step s = .next t ∧ t.readData.toNat = mapNat s.otp a.toNat ∧
      t = { afterHost s rest s.otp with readData := t.readData }

/-- While BUSY = 1 a read of any address other than STATUS returns a free draw, and the next such read
another; the block does not change (70_reset_and_hazards.md section 3; that the draws are numbered is
the model's, log entry 2). A read of STATUS returns its fields. -/
def Obligations.BusyReadsReturnFreeDraws : Prop :=
  ∀ (s : State) (rest : List Input) (a : Offset),
    HostSteps s (.read a 4) rest → a.toNat % 4 = 0 → s.otp.busy = true →
    (a.toNat ≠ 0x004 →
      step s = .next { afterHost s rest s.otp with
        readData := Config.busyRead s.draws, draws := s.draws + 1 }) ∧
    (a.toNat = 0x004 →
      step s = .next { afterHost s rest s.otp with readData := BitVec.ofNat 32 (statusNat s.otp) })

/-- A write to an idle block stores exactly the writable bits of the addressed word and leaves every
other word of the register space; where the word has none (read-only, reserved), nothing changes
(20_memory.md section 3, 10_state.md sections 2 and 3). CMD and STATUS have statements of their own. -/
def Obligations.IdleWritesStoreTheWritableBits : Prop :=
  ∀ (s : State) (rest : List Input) (a : Offset) (v : Word),
    HostSteps s (.write a 4 v) rest → a.toNat % 4 = 0 → s.otp.busy = false →
    a.toNat ≠ 0x000 → a.toNat ≠ 0x004 →
    ∃ o, step s = .next (afterHost s rest o) ∧ o.pending = s.otp.pending ∧
      (storedBits a.toNat = 0 → o = s.otp) ∧
      (storedBits a.toNat ≠ 0 →
        mapNat o a.toNat = v.toNat &&& storedBits a.toNat ∧
        ∀ b, b < 4096 → b % 4 = 0 → b ≠ a.toNat → mapNat o b = mapNat s.otp b)

/-- R32: of an idle block a reserved address reads 0 and ignores writes; reserved bits of every listed
register read 0 and ignore writes; a read-only register ignores writes. None of these sets BUSYERR. -/
def Obligations.ReservedSpaceReadsZeroAndIgnoresWrites : Prop :=
  ∀ (s : State) (rest : List Input) (a : Offset) (v : Word), s.otp.busy = false → a.toNat % 4 = 0 →
    (HostSteps s (.read a 4) rest →
      ∃ t, step s = .next t ∧ (¬ Mapped a.toNat → t.readData = 0) ∧
        (storedBits a.toNat ≠ 0 → t.readData.toNat &&& storedBits a.toNat = t.readData.toNat) ∧
        (a.toNat = 0x004 → t.readData.toNat < 2 ^ 9) ∧ (a.toNat = 0x038 → t.readData.toNat < 2 ^ 4) ∧
        (a.toNat = 0x03C → t.readData.toNat < 2 ^ 31) ∧ (a.toNat = 0x040 → t.readData.toNat < 2 ^ 27)) ∧
    (HostSteps s (.write a 4 v) rest → a.toNat ≠ 0x000 → a.toNat ≠ 0x004 →
      (storedBits a.toNat = 0 → step s = .next (afterHost s rest s.otp)) ∧
      (storedBits a.toNat ≠ 0 →
        ∃ t, step s = .next t ∧ t.otp.busyerr = s.otp.busyerr ∧ t.otp.err = s.otp.err ∧
          mapNat t.otp a.toNat = v.toNat &&& storedBits a.toNat))

/-- R62: lane j of word k of a buffer window is byte 4k + j of the buffer, for every buffer; a 64-bit
register is its low word at the lower offset and its high word 4 above it. -/
def Obligations.BusLanesAreLittleEndian : Prop :=
  ∀ (o : OtpState) (k j : Nat), j < 4 →
    (k < 2 → (busValue o (BitVec.ofNat 12 (0x048 + 4 * k))).toNat / 2 ^ (8 * j) % 256
      = byteNat o.codeTxt (4 * k + j)) ∧
    (k < 2 → (busValue o (BitVec.ofNat 12 (0x050 + 4 * k))).toNat / 2 ^ (8 * j) % 256
      = byteNat o.sub (4 * k + j)) ∧
    (k < 16 → (busValue o (BitVec.ofNat 12 (0x100 + 4 * k))).toNat / 2 ^ (8 * j) % 256
      = byteNat o.dig (4 * k + j)) ∧
    (k < 20 → (busValue o (BitVec.ofNat 12 (0x140 + 4 * k))).toNat / 2 ^ (8 * j) % 256
      = byteNat o.key (4 * k + j)) ∧
    (k < 32 → (busValue o (BitVec.ofNat 12 (0x200 + 4 * k))).toNat / 2 ^ (8 * j) % 256
      = byteNat o.txt (4 * k + j)) ∧
    o.time = busValue o 0x024#12 ++ busValue o 0x020#12 ∧
    o.ctr = busValue o 0x02C#12 ++ busValue o 0x028#12 ∧
    o.matchCtr = busValue o 0x034#12 ++ busValue o 0x030#12

/-! ## Reset -/

/-- R230: the value of every field after reset (PENDING is empty and has none), and what the host then
reads: CFG 0x00000006, every other aligned offset 0. -/
def Obligations.ResetValues : Prop :=
  let o := State.reset.otp
  o.busy = false ∧ o.done = false ∧ o.err = false ∧ o.matched = false ∧ o.busyerr = false ∧
  o.errcode = 0 ∧ o.digits = 6 ∧ o.alg = 0 ∧ o.pad = false ∧ o.window = 0 ∧
  o.keyLen = 0 ∧ o.txtLen = 0 ∧ o.subLen = 0 ∧ o.time = 0 ∧ o.ctr = 0 ∧ o.matchCtr = 0 ∧
  o.offset = 0 ∧ o.binary = 0 ∧ o.codeBin = 0 ∧
  (∀ i, byteNat o.codeTxt i = 0) ∧ (∀ i, byteNat o.sub i = 0) ∧ (∀ i, byteNat o.dig i = 0) ∧
  (∀ i, byteNat o.key i = 0) ∧ (∀ i, byteNat o.txt i = 0) ∧
  ∀ a : Offset, a.toNat % 4 = 0 → busValue o a = if a.toNat = 0x008 then 6 else 0

/-- The reset input, at any time and whatever is pending, puts every field of the block in the state after
reset (70_reset_and_hazards.md section 1; PENDING, which is empty then, holds 0: log entry 6). -/
def Obligations.ResetInputAbandonsTheCommand : Prop :=
  ∀ (s : State) (rest : List Input), HostSteps s .reset rest →
    step s = .next (afterHost s rest State.reset.otp)

/-! ## Invariants of every step -/

/-- The invariant holds of the block after reset. -/
def Obligations.ResetIsGood : Prop := State.reset.otp.Good

/-- Every step of either agent, from any good state and not only from reset, keeps the invariant: ERR = 1
iff ERRCODE is not 0, MATCH = 1 implies ERR = 0, BUSY = 1 implies DONE = 0, ERRCODE is at most 7, and
OFFSET, BINARY, CODE_BIN and CODE_TXT are those of one truncation of one digest to one code length, or
all zero as at reset. -/
def Obligations.EveryStepKeepsTheBlockGood : Prop :=
  ∀ s t : State, s.otp.Good → step s = .next t → t.otp.Good

/-- No engine step changes TIME, WINDOW, SUB, SUB_LEN, CFG or BUSYERR, whatever the command. That PENDING
keeps its word too is no rule of the spec, which calls it cleared on completion and meaningless while
BUSY = 0 (10_state.md sections 1 and 5): that clause is the model's choice, log entry 6. -/
def Obligations.EngineLeavesTheHostsRegisters : Prop :=
  ∀ s t : State, nextAgent s = .engine → step s = .next t →
    t.otp.time = s.otp.time ∧ t.otp.window = s.otp.window ∧ t.otp.sub = s.otp.sub ∧
    t.otp.subLen = s.otp.subLen ∧ t.otp.digits = s.otp.digits ∧ t.otp.alg = s.otp.alg ∧
    t.otp.pad = s.otp.pad ∧ t.otp.busyerr = s.otp.busyerr ∧ t.otp.pending = s.otp.pending

/-- No host step but the reset input changes a read-only result: OFFSET, BINARY, CODE_BIN, CODE_TXT and
MATCH_CTR come from the engine alone. -/
def Obligations.HostLeavesTheResults : Prop :=
  ∀ (s t : State), nextAgent s = .host → s.inputs.head? ≠ some .reset → step s = .next t →
    t.otp.offset = s.otp.offset ∧ t.otp.binary = s.otp.binary ∧ t.otp.codeBin = s.otp.codeBin ∧
    t.otp.codeTxt = s.otp.codeTxt ∧ t.otp.matchCtr = s.otp.matchCtr

/-- Command coherence (20_memory.md section 5, which derives it): while a command is pending, no host step but the reset input changes an operand, the pending
word or a result, and BUSYERR, the one thing it may change, has no part in what a command computes. -/
def Obligations.StartedCommandCannotBeChanged : Prop :=
  (∀ s t : State, nextAgent s = .host → s.otp.busy = true → s.inputs.head? ≠ some .reset →
    step s = .next t → t.otp = { s.otp with busyerr := t.otp.busyerr }) ∧
  (∀ (i : Instr) (s : State) (o : OtpState) (flag : Bool), Yields i s o →
    Yields i { s with otp := { s.otp with busyerr := flag } } { o with busyerr := flag })

/-! ## Base32 -/

/-- R105: B32ENC, its one error, and otherwise the Base32 text of the key in TXT and TXT_LEN, cut bit by bit
from the key's bits and padded as CFG.PAD says; nothing else but STATUS changes. -/
def Obligations.Base32EncodeWritesTheText : Prop :=
  encode .b32enc = 0x00000001#32 ∧ ∀ s : State,
    (80 < s.otp.keyLen.toNat → Yields .b32enc s (completedErr 6 s.otp)) ∧
    (s.otp.keyLen.toNat ≤ 80 →
      ∃ o, Yields .b32enc s (completedOk false o) ∧ o.txtLen.toNat = encodedLength s.otp ∧
        (∀ i, i < 128 → byteNat o.txt i = encodedByte s.otp i) ∧
        o = { s.otp with txt := o.txt, txtLen := o.txtLen })

/-- The bit packing per 5-byte block (40_base32.md section 1, which derives it): a whole block gives its eight values c0 to c7 and the rest
follows; a final block of 1 to 4 bytes gives its first 2, 4, 5 or 7 values, the missing bytes 0. -/
def Obligations.PackingPerFiveByteBlock : Prop :=
  ∀ b0 b1 b2 b3 b4 : Byte,
    let values (b0 b1 b2 b3 b4 : Byte) : List (BitVec 5) :=
      [b0.extractLsb' 3 5, b0.extractLsb' 0 3 ++ b1.extractLsb' 6 2, b1.extractLsb' 1 5,
       b1.extractLsb' 0 1 ++ b2.extractLsb' 4 4, b2.extractLsb' 0 4 ++ b3.extractLsb' 7 1,
       b3.extractLsb' 2 5, b3.extractLsb' 0 2 ++ b4.extractLsb' 5 3, b4.extractLsb' 0 5]
    (∀ rest, base32Encode false (b0 :: b1 :: b2 :: b3 :: b4 :: rest)
      = (values b0 b1 b2 b3 b4).map alphaChar ++ base32Encode false rest) ∧
    base32Encode false [b0, b1, b2, b3] = ((values b0 b1 b2 b3 0).take 7).map alphaChar ∧
    base32Encode false [b0, b1, b2] = ((values b0 b1 b2 0 0).take 5).map alphaChar ∧
    base32Encode false [b0, b1] = ((values b0 b1 0 0 0).take 4).map alphaChar ∧
    base32Encode false [b0] = ((values b0 0 0 0 0).take 2).map alphaChar

/-- R110: B32DEC, its errors in order, and otherwise the secret a legal text stands for in KEY and KEY_LEN;
nothing else but STATUS changes (B32_STRICT_TAIL = false). -/
def Obligations.Base32DecodeWritesTheSecretOrRejects : Prop :=
  encode .b32dec = 0x00000002#32 ∧ ∀ s : State,
    (128 < s.otp.txtLen.toNat → Yields .b32dec s (completedErr 6 s.otp)) ∧
    (s.otp.txtLen.toNat ≤ 128 → (¬ ∃ d, LegalText s.otp d) →
      Yields .b32dec s (completedErr 1 s.otp)) ∧
    (∀ d, s.otp.txtLen.toNat ≤ 128 → LegalText s.otp d →
      ∃ o, Yields .b32dec s (completedOk false o) ∧ SecretDecoded s.otp d o)

/-- The round trip: decode(encode(b)) = b for every byte string b, padded or not; and in the block, for
every key of at most 80 bytes and both values of CFG.PAD, B32ENC then B32DEC both complete without
error and leave KEY and KEY_LEN as they were (40_base32.md section 1, which derives the second). -/
def Obligations.Base32RoundTrip : Prop :=
  (∀ (pad : Bool) (b : List Byte), base32Decode false (base32Encode pad b) = some b) ∧
  ∀ s : State, s.otp.keyLen.toNat ≤ 80 →
    ∃ t u, exec .b32enc s = .next t ∧ t.otp.err = false ∧ exec .b32dec t = .next u ∧
      u.otp.err = false ∧ u.otp.key = s.otp.key ∧ u.otp.keyLen = s.otp.keyLen

/-- Decoding is case-insensitive: texts that agree after folding 'a' to 'z' decode to the same KEY and
KEY_LEN with the same STATUS (40_base32.md section 3). -/
def Obligations.DecodingIgnoresCase : Prop :=
  ∀ (s : State) (v : Vector Byte 128),
    (∀ i, i < 128 → foldNat (byteNat v i) = foldNat (byteNat s.otp.txt i)) →
    ∃ o, Yields .b32dec s o ∧
      Yields .b32dec { s with otp := { s.otp with txt := v } } { o with txt := v }

/-- R113: the bits of the last character that do not fill a byte are discarded: the decoded bytes are the
leading bits of the text's values and nothing else of it. Were B32_STRICT_TAIL true, a text that
decodes otherwise would decode exactly when those bits are all 0 and be InvalidEncoding if not. Either
setting keeps the round trip, with and without a pad. -/
def Obligations.TailBitsAreDiscardedUnlessStrict : Prop :=
  (∀ (t b : List Byte), base32Decode false t = some b →
    ∃ vs, alphaValues ((t.map foldCase).take ((t.map foldCase).length - trailingPads (t.map foldCase)))
        = some vs ∧ b.length = 5 * vs.length / 8 ∧
      (∀ i, i < 8 * b.length →
        bitNat 8 (fun j => (b.getD j 0).toNat) i = bitNat 5 (fun j => (vs.getD j 0).toNat) i) ∧
      (base32Decode true t = some b ↔
        ∀ i, 8 * (5 * vs.length / 8) ≤ i → i < 5 * vs.length →
          bitNat 5 (fun j => (vs.getD j 0).toNat) i = 0) ∧
      (base32Decode true t ≠ some b → base32Decode true t = none)) ∧
  ∀ (strict pad : Bool) (b : List Byte), base32Decode strict (base32Encode pad b) = some b

/-! ## Truncation -/

/-- R140: TRUNC, its errors in order, and on success OFFSET, BINARY, CODE_BIN and CODE_TXT of the first
DIGEST_LEN bytes of DIG; nothing else but STATUS changes. -/
def Obligations.TruncTruncatesTheDigest : Prop :=
  encode .trunc = 0x00000003#32 ∧ ∀ s : State,
    (s.otp.alg = 3 → Yields .trunc s (completedErr 2 s.otp)) ∧
    (s.otp.alg ≠ 3 → ¬ DigitsLegal s.otp → Yields .trunc s (completedErr 3 s.otp)) ∧
    (s.otp.alg ≠ 3 → DigitsLegal s.otp →
      ∃ o, Yields .trunc s (completedOk false o) ∧
        CodeOf (byteNat s.otp.dig) (digestLength s.otp.alg) s.otp.digits.toNat o ∧
        o = { s.otp with offset := o.offset, binary := o.binary, codeBin := o.codeBin,
                         codeTxt := o.codeTxt })

/-- R135: the extraction by shifts and masks, for every byte string and index: the top bit of the first
byte is masked off, so the value is below 2^31, and its fields are the four bytes. -/
def Obligations.ExtractionByShiftAndMask : Prop :=
  ∀ (h : List Byte) (o : Nat),
    (extractBinary h o).toNat =
      (((h.getD o 0).toNat &&& 0x7F) <<< 24) ||| ((h.getD (o + 1) 0).toNat <<< 16) |||
        ((h.getD (o + 2) 0).toNat <<< 8) ||| (h.getD (o + 3) 0).toNat ∧
    (extractBinary h o).toNat ≤ 2147483647 ∧
    (extractBinary h o).extractLsb' 24 7 = (h.getD o 0).extractLsb' 0 7 ∧
    (extractBinary h o).extractLsb' 16 8 = h.getD (o + 1) 0 ∧
    (extractBinary h o).extractLsb' 8 8 = h.getD (o + 2) 0 ∧
    (extractBinary h o).extractLsb' 0 8 = h.getD (o + 3) 0

/-- The laws of truncation (41_truncation.md section 2, which derives them): the text is exactly N digits, the code is below 10^N, the value below
2^31, the offset depends on the last byte alone, and no byte but the last and the four at the offset
affects the result. -/
def Obligations.LawsOfTruncation : Prop :=
  ∀ (h : List Byte) (n : Nat), (h.length = 20 ∨ h.length = 32 ∨ h.length = 64) → 1 ≤ n → n ≤ 8 →
    (∀ j, j < n → 0x30 ≤ byteNat (truncate h n).codeTxt j ∧ byteNat (truncate h n).codeTxt j ≤ 0x39) ∧
    (∀ j, n ≤ j → byteNat (truncate h n).codeTxt j = 0) ∧
    (truncate h n).codeBin.toNat < 10 ^ n ∧ (truncate h n).binary.toNat < 2 ^ 31 ∧
    (∀ h' : List Byte, h'.length = h.length →
      h'.getD (h.length - 1) 0 = h.getD (h.length - 1) 0 →
      (truncate h' n).offset = (truncate h n).offset ∧
      ((∀ j, j < 4 → h'.getD ((truncate h n).offset.toNat + j) 0
          = h.getD ((truncate h n).offset.toNat + j) 0) →
        truncate h' n = truncate h n))

/-- R137: digit j of the text is floor(k / 10^(N-1-j)) mod 10 in ASCII, the bytes from N on are 0x00, and
the N digits read back as the code: no two codes below 10^N have the same text. -/
def Obligations.DecimalTextReadsBack : Prop :=
  ∀ n k : Nat, 1 ≤ n → n ≤ 8 → k < 10 ^ n →
    (∀ j, j < 8 → byteNat (decText n k) j = codeTextByte n k j) ∧
    ((List.range n).map fun j => (byteNat (decText n k) j - 0x30) * 10 ^ (n - 1 - j)).sum = k

/-- R133: byte i of the counter message is (c >> (56 - 8i)) & 0xFF, for its 8 bytes. -/
def Obligations.CounterMessageIsBigEndian : Prop :=
  ∀ c : Dword, (be64 c).length = 8 ∧
    ∀ i, i < 8 → (be64 c).getD i 0 = BitVec.ofNat 8 ((c.toNat >>> (56 - 8 * i)) &&& 0xFF)

/-- R145: HOTP, its errors in order, and on success the digest of KEY for CTR in DIG[0..L) and its code in
the code registers; CTR and everything else but STATUS are unchanged. -/
def Obligations.HotpGeneratesTheCode : Prop :=
  encode .hotp = 0x00000004#32 ∧ ∀ s : State,
    (80 < s.otp.keyLen.toNat → Yields .hotp s (completedErr 6 s.otp)) ∧
    (s.otp.keyLen.toNat ≤ 80 → s.otp.alg = 3 → Yields .hotp s (completedErr 2 s.otp)) ∧
    (s.otp.keyLen.toNat ≤ 80 → s.otp.alg ≠ 3 → ¬ DigitsLegal s.otp →
      Yields .hotp s (completedErr 3 s.otp)) ∧
    (s.otp.keyLen.toNat = 0 → s.otp.alg ≠ 3 → DigitsLegal s.otp →
      Yields .hotp s (completedErr 4 s.otp)) ∧
    (1 ≤ s.otp.keyLen.toNat → s.otp.keyLen.toNat ≤ 80 → s.otp.alg ≠ 3 → DigitsLegal s.otp →
      ∃ o, Yields .hotp s (completedOk false o) ∧ CodeGenerated s.otp s.otp.ctr o)

/-! ## The divider -/

/-- R165: TDIV writes floor(TIME / 30) to CTR, always completes without error, and changes nothing else
but STATUS (T0 = 0, STEP = 30). -/
def Obligations.TdivWritesTheCounter : Prop :=
  encode .tdiv = 0x00000005#32 ∧ ∀ s : State,
    Yields .tdiv s (completedOk false { s.otp with ctr := BitVec.ofNat 64 (s.otp.time.toNat / 30) }) ∧
    (BitVec.ofNat 64 (s.otp.time.toNat / 30)).toNat = s.otp.time.toNat / 30

/-- The counter TDIV writes is the fixed-point shift-and-multiply ((t >> 1) * 0x8888888888888889) >> 67,
for every 64-bit time (42_time_counter.md section 1). -/
def Obligations.DividerEqualsFixedPointForm : Prop :=
  ∀ s t : State, exec .tdiv s = .next t →
    t.otp.ctr.toNat = ((s.otp.time.toNat >>> 1) * 0x8888888888888889) >>> 67

/-- The range of the counter (42_time_counter.md section 1, which derives it): it is at most 0x0888888888888888 and its top 4 bits are 0; it is monotonic in TIME; it
is C exactly for TIME in [30C, 30C + 29]. -/
def Obligations.CounterRangeAndIntervals : Prop :=
  ∀ s t : State, exec .tdiv s = .next t →
    t.otp.ctr.toNat ≤ 0x0888888888888888 ∧ t.otp.ctr.extractLsb' 60 4 = 0 ∧
    (∀ c : Nat, t.otp.ctr.toNat = c ↔ 30 * c ≤ s.otp.time.toNat ∧ s.otp.time.toNat ≤ 30 * c + 29) ∧
    (∀ s' t' : State, exec .tdiv s' = .next t' → s.otp.time.toNat ≤ s'.otp.time.toNat →
      t.otp.ctr.toNat ≤ t'.otp.ctr.toNat)

/-- R160 and R162, for any T0 and any STEP of at least 1: a time before T0 is TimeBeforeEpoch (code 7) and
leaves the counter, every other time gives the exact quotient; with this block's T0 = 0 no command
ever reports code 7. -/
def Obligations.DividerForAnyEpochAndStep : Prop :=
  (∀ (p : Config.Params) (o : OtpState), 1 ≤ p.stepSeconds →
    (o.time.toNat < p.t0 → commit o (tdivCmd p o) = completedErr 7 o) ∧
    (p.t0 ≤ o.time.toNat → ∃ c : Dword, c.toNat = (o.time.toNat - p.t0) / p.stepSeconds ∧
      commit o (tdivCmd p o) = completedOk false { o with ctr := c })) ∧
  (∀ (i : Instr) (s t : State), exec i s = .next t → t.otp.errcode ≠ 7)

/-- R170: TOTP, its errors in order, and on success CTR = floor(TIME / 30), the digest of KEY for that
counter in DIG[0..L) and its code in the code registers; everything else but STATUS is unchanged. -/
def Obligations.TotpGeneratesTheTimedCode : Prop :=
  encode .totp = 0x00000006#32 ∧ ∀ s : State,
    (80 < s.otp.keyLen.toNat → Yields .totp s (completedErr 6 s.otp)) ∧
    (s.otp.keyLen.toNat ≤ 80 → s.otp.alg = 3 → Yields .totp s (completedErr 2 s.otp)) ∧
    (s.otp.keyLen.toNat ≤ 80 → s.otp.alg ≠ 3 → ¬ DigitsLegal s.otp →
      Yields .totp s (completedErr 3 s.otp)) ∧
    (s.otp.keyLen.toNat = 0 → s.otp.alg ≠ 3 → DigitsLegal s.otp →
      Yields .totp s (completedErr 4 s.otp)) ∧
    (1 ≤ s.otp.keyLen.toNat → s.otp.keyLen.toNat ≤ 80 → s.otp.alg ≠ 3 → DigitsLegal s.otp →
      ∃ o, Yields .totp s (completedOk false o) ∧
        CodeGenerated { s.otp with ctr := BitVec.ofNat 64 (s.otp.time.toNat / 30) }
          (BitVec.ofNat 64 (s.otp.time.toNat / 30)) o)

/-- TOTP is TDIV followed by HOTP on the same state, except that on an error neither result is written
(42_time_counter.md section 3). -/
def Obligations.TotpIsTdivThenHotp : Prop :=
  ∀ s : State, ∃ t u w, exec .totp s = .next t ∧ exec .tdiv s = .next u ∧ exec .hotp u = .next w ∧
    (w.otp.err = false → t = w) ∧
    (w.otp.err = true → t = { w with otp := { w.otp with ctr := s.otp.ctr } })

/-! ## Verification -/

/-- R185: VERIFY, its errors in order, and otherwise the decoded secret in KEY and KEY_LEN, the current
counter in CTR, MATCH = 1 iff the submitted code is that of a counter of the window, and the first
such counter in MATCH_CTR, which is unchanged when there is none; nothing else but STATUS changes. -/
def Obligations.VerifySearchesTheWindow : Prop :=
  encode .verify = 0x00000007#32 ∧ ∀ s : State,
    (128 < s.otp.txtLen.toNat → Yields .verify s (completedErr 6 s.otp)) ∧
    (s.otp.txtLen.toNat ≤ 128 → (¬ ∃ d, LegalText s.otp d) →
      Yields .verify s (completedErr 1 s.otp)) ∧
    (∀ d, s.otp.txtLen.toNat ≤ 128 → LegalText s.otp d →
      (5 * d / 8 = 0 → Yields .verify s (completedErr 4 s.otp)) ∧
      (1 ≤ 5 * d / 8 →
        ∃ o1 o2 hit, Yields .verify s (completedOk hit o2) ∧ SecretDecoded s.otp d o1 ∧
          Searched o1 (BitVec.ofNat 64 (s.otp.time.toNat / 30)) hit o2))

/-- R181: the candidates are 2W + 1 counters, the current one first, then cur - i before cur + i for each
i from 1 to W outward; W = 0 gives the current one alone. -/
def Obligations.CandidatesInOrder : Prop :=
  ∀ (cur : Dword) (w : Nat), (candidates cur w).length = 2 * w + 1 ∧
    (candidates cur w).head? = some cur ∧ candidates cur 0 = [cur] ∧
    ∀ i, 1 ≤ i → i ≤ w →
      (candidates cur w)[2 * i - 1]? = some (cur - BitVec.ofNat 64 i) ∧
      (candidates cur w)[2 * i]? = some (cur + BitVec.ofNat 64 i)

/-- The window property's "succeeds" halves: a code valid at a counter at most W steps from the current
one, before or after, is accepted, for every secret (43_verify.md section 3). -/
def Obligations.WindowAcceptsCodesWithinIt : Prop :=
  ∀ (s : State) (d i : Nat) (c : Dword),
    s.otp.txtLen.toNat ≤ 128 → LegalText s.otp d → 1 ≤ 5 * d / 8 → i ≤ s.otp.window.toNat →
    (c = BitVec.ofNat 64 (s.otp.time.toNat / 30) - BitVec.ofNat 64 i ∨
      c = BitVec.ofNat 64 (s.otp.time.toNat / 30) + BitVec.ofNat 64 i) →
    (∀ o, SecretDecoded s.otp d o → Submitted s.otp (secret o) c) →
    ∃ t, exec .verify s = .next t ∧ t.otp.matched = true ∧ t.otp.err = false

/-- R180: VERIFY uses 6 digits and SHA-1: whatever CFG.DIGITS and CFG.ALG hold, the digits it compares are
those, it answers the same, and it never raises InvalidDigitCount or UnsupportedAlgorithm. -/
def Obligations.VerifyIgnoresDigitsAndAlgorithm : Prop :=
  (∀ (key : List Byte) (c : Dword), (candidateDigits Config.params key c).length = 6 ∧
    ∀ j, j < 6 → ((candidateDigits Config.params key c).getD j 0).toNat = verifyCodeByte key c j) ∧
  ∀ (s : State) (n : BitVec 4) (a : BitVec 2), ∃ o, Yields .verify s o ∧
    Yields .verify { s with otp := { s.otp with digits := n, alg := a } }
      { o with digits := n, alg := a } ∧
    o.errcode ≠ 2 ∧ o.errcode ≠ 3

/-- VERIFY of a syntactically invalid secret reports ERR = 1, ERRCODE = 1 and MATCH = 0, rather than no match
without an error (43_verify.md section 3). -/
def Obligations.VerifyRejectsInvalidSecretText : Prop :=
  ∀ s : State, s.otp.txtLen.toNat ≤ 128 → (¬ ∃ d, LegalText s.otp d) →
    ∃ t, exec .verify s = .next t ∧ t.otp.err = true ∧ t.otp.errcode = 1 ∧ t.otp.matched = false

/-- A submitted code never makes VERIFY raise an error: whatever SUB and SUB_LEN hold, ERR, ERRCODE, KEY,
KEY_LEN and CTR are the same, and a SUB_LEN other than 6 never matches (43_verify.md section 1). -/
def Obligations.SubmittedCodeNeverRaisesAnError : Prop :=
  ∀ (s : State) (v : Vector Byte 8) (n : BitVec 4), ∃ t u, exec .verify s = .next t ∧
    exec .verify { s with otp := { s.otp with sub := v, subLen := n } } = .next u ∧
    u.otp.err = t.otp.err ∧ u.otp.errcode = t.otp.errcode ∧ u.otp.key = t.otp.key ∧
    u.otp.keyLen = t.otp.keyLen ∧ u.otp.ctr = t.otp.ctr ∧ (n ≠ 6 → u.otp.matched = false)

/-! ## Errors, write sets and operands -/

/-- R202: the error the engine reports is the first, in the order of priority, whose condition holds for the
pending word; where none holds the command completes without error; BUSYERR has no part in it. -/
def Obligations.FirstErrorInPriorityOrderIsReported : Prop :=
  ∀ s : State, EngineSteps s → ∃ t, step s = .next t ∧ t.otp.busyerr = s.otp.busyerr ∧
    ((∀ e, ¬ RaisedBy s.otp.pending s.otp e) → t.otp.err = false ∧ t.otp.errcode = 0) ∧
    ∀ (before after : List CmdError) (e : CmdError), priority = before ++ e :: after →
      (∀ e' ∈ before, ¬ RaisedBy s.otp.pending s.otp e') → RaisedBy s.otp.pending s.otp e →
      t.otp.err = true ∧ t.otp.errcode = errorNumber e

/-- R203: an engine step that ends in an error ends in one whose condition holds, and writes ERR, its code,
MATCH, BUSY and DONE and nothing else. -/
def Obligations.ErrorWritesStatusAlone : Prop :=
  ∀ s t : State, EngineSteps s → step s = .next t → t.otp.err = true →
    ∃ e, RaisedBy s.otp.pending s.otp e ∧
      t = { takeTurn s with otp := completedErr (errorNumber e) s.otp }

/-- The write sets (10_state.md section 6, which derives them): on success everything outside a command's
write set and STATUS is unchanged, a buffer from the end of what was written; on error the write set
is empty. -/
def Obligations.WriteSetsAsTabulated : Prop :=
  ∀ (i : Instr) (s t : State), exec i s = .next t →
    t = { s with otp := t.otp } ∧
    (t.otp.err = false → OutsideWriteSetSame i s.otp t.otp) ∧
    (t.otp.err = true → t.otp = completedErr t.otp.errcode s.otp)

/-- The frame over the whole register space, byte by byte: a command that completes without error leaves
every byte the host can read outside STATUS and the command's stored bytes as it was. -/
def Obligations.CommandsLeaveEveryOtherByte : Prop :=
  ∀ (i : Instr) (s t : State) (a : Offset), exec i s = .next t → t.otp.err = false →
    ¬ storedOffsets i s.otp t.otp a.toNat → busByte t.otp a = busByte s.otp a

/-- The commands have no hidden state: two blocks that agree on a command's operands, whatever else they
hold (stale bytes of buffers included), report the same and agree on the whole write set
(30_encoding.md section 1, 41_truncation.md section 4). -/
def Obligations.ResultsDependOnTheOperandsAlone : Prop :=
  ∀ (i : Instr) (s s' : State), SameOperands i s.otp s'.otp →
    ∃ t t', exec i s = .next t ∧ exec i s' = .next t' ∧ SameReport t.otp t'.otp ∧
      (t.otp.err = false → SameResults i t.otp t'.otp)

/-! ## Runs -/

/-- Every accepted command completes: from any state with BUSY = 1 whose inputs the interface has, and
under every schedule, BUSY is 0 after at most one step more than the turns listed, with no stop on the
way. Unless the reset input is among the inputs (it abandons the command), DONE is 1 then, and the block is
what `exec` of the pending command, or the error BadCommand of an illegal word, makes of the block as it
stood at the start, but for BUSYERR, which the host's dropped writes may set in between
(70_reset_and_hazards.md sections 1, 3 and 5; the turns list is the model's own, log entry 5). -/
def Obligations.EveryAcceptedCommandCompletes : Prop :=
  ∀ s : State, s.otp.busy = true → s.inputsLegal →
    ∃ k t, k ≤ s.turns.length + 1 ∧ core.run k s = .next t ∧ t.otp.busy = false ∧
      (.reset ∉ s.inputs →
        t.otp.done = true ∧
        (∀ i, decode s.otp.pending = .ok i →
          ∃ o, Yields i s o ∧ t.otp = { o with busyerr := t.otp.busyerr }) ∧
        ((∀ i, decode s.otp.pending ≠ .ok i) →
          t.otp = { completedErr 5 s.otp with busyerr := t.otp.busyerr }))

/-- RUN of a command on an idle block. With no turns listed, three steps (the CMD write, the engine, the
poll) complete it; with the engine's turn put off for any number `n` of polls, which all read BUSY = 1, it
takes `n` steps more. In either case the last poll returns STATUS with BUSY = 0, the WAIT ends there, and
the block is what `exec` of the command leaves from the accepted state (30_encoding.md section 5; the turns
are the model's own, log entry 5). -/
def Obligations.RunStatementCompletesTheCommand : Prop :=
  ∀ (i : Instr) (s : State) (rest : List Input) (n : Nat),
    s.otp.busy = false →
    (s.turns = [] ∧ n = 0 ∨ s.turns = List.replicate (n + 1) .host ++ [.engine, .host]) →
    s.inputs = (Stmt.run i).inputs ++ rest →
    ∃ t, core.run (n + 3) s = .next t ∧ t.otp.busy = false ∧ t.otp.done = true ∧ t.inputs = rest ∧
      t.readData.toNat = statusNat t.otp ∧
      exec i { s with otp := { s.otp with
          pending := encode i, busy := true, done := false, err := false, matched := false,
          errcode := 0 } } = .next { s with otp := t.otp }

/-- WRBUF of a byte string that fits a read-write buffer, on an idle block, with no turns listed: after
its bus writes the buffer holds the bytes, the last word zero-filled, and its other bytes, the other
buffers and everything else are unchanged (30_encoding.md section 5). -/
def Obligations.WrbufStoresTheBytes : Prop :=
  ∀ (s : State) (b : Buf) (bytes : List Byte) (rest : List Input),
    s.otp.busy = false → s.turns = [] → b ≠ .codeTxt → bytes.length ≤ b.size →
    s.inputs = (Stmt.wrbuf b bytes).inputs ++ rest →
    ∃ t, core.run ((bytes.length + 3) / 4) s = .next t ∧
      (∀ i, i < bytes.length → bufferNat t.otp b i = (bytes.getD i 0).toNat) ∧
      (∀ i, bytes.length ≤ i → i < 4 * ((bytes.length + 3) / 4) → bufferNat t.otp b i = 0) ∧
      (∀ i, 4 * ((bytes.length + 3) / 4) ≤ i → bufferNat t.otp b i = bufferNat s.otp b i) ∧
      (∀ b' i, b' ≠ b → bufferNat t.otp b' i = bufferNat s.otp b' i) ∧
      t = { s with otp := { s.otp with sub := t.otp.sub, dig := t.otp.dig, key := t.otp.key,
                                       txt := t.otp.txt },
                   inputs := rest }

/-- WR64 of TIME or CTR on an idle block, with no turns listed: after its two bus writes the register holds
the 64-bit value and nothing else has changed (30_encoding.md section 5). -/
def Obligations.Wr64StoresTheDoubleWord : Prop :=
  ∀ (s : State) (v : Dword) (rest : List Input), s.otp.busy = false → s.turns = [] →
    (s.inputs = (Stmt.wr64 .time v).inputs ++ rest →
      core.run 2 s = .next { s with otp := { s.otp with time := v }, inputs := rest }) ∧
    (s.inputs = (Stmt.wr64 .ctr v).inputs ++ rest →
      core.run 2 s = .next { s with otp := { s.otp with ctr := v }, inputs := rest })

/-- WAIT polls STATUS until bit 0 is 0, one read for each step of the host: the read returns STATUS and
changes nothing of the block and draws no free value; while it returns BUSY = 1 the WAIT is still the next
thing the host does, and once it returns BUSY = 0 the host goes on with what follows (30_encoding.md section
5; the inputs are the model's own, log entry 4). -/
def Obligations.WaitPollsUntilNotBusy : Prop :=
  ∀ (s : State) (rest : List Input), HostSteps s .wait rest →
    ∃ v : Word, v.toNat = statusNat s.otp ∧ (v.getLsbD 0 = true ↔ s.otp.busy = true) ∧
      (s.otp.busy = true →
        step s = .next { afterHost s (.wait :: rest) s.otp with readData := v }) ∧
      (s.otp.busy = false → step s = .next { afterHost s rest s.otp with readData := v })
end

