-- ==== Sys2Proof/Laws/Bits.lean ====
section
/-!
SUPPORT. Bit fields as numbers, and the bit strings of the Base32 packing: what `ofMsbs`, `bitOf` and
`regroup` compute.
-/

namespace Sys2Proof.Machine

theorem extractLsb'_toNat_eq_div_mod {w : Nat} (x : BitVec w) (start len : Nat) :
    (x.extractLsb' start len).toNat = x.toNat / 2 ^ start % 2 ^ len := by
  simp [BitVec.extractLsb'_toNat, Nat.shiftRight_eq_div_pow]

theorem append_toNat_eq_mul_add {v w : Nat} (x : BitVec v) (y : BitVec w) :
    (x ++ y).toNat = x.toNat * 2 ^ w + y.toNat := by
  rw [BitVec.toNat_append, Nat.shiftLeft_eq, Nat.mul_comm, ← Nat.two_pow_add_eq_or_of_lt y.isLt]

theorem ofMsbs_getMsbD (f : Nat → Bool) (v i : Nat) :
    (ofMsbs f v).getMsbD i = (decide (i < v) && f i) := by
  induction v with
  | zero => simp [ofMsbs]
  | succ v ih =>
    rw [ofMsbs, BitVec.getMsbD_concat, ih]
    by_cases h : i < v
    · simp [h, Nat.lt_succ_of_lt h]
    · by_cases h2 : i = v
      · simp [h2]
      · have h3 : ¬ i < v + 1 := by omega
        simp [h, h2, h3]

/-- The number whose most significant bits first are `f 0`, `f 1`, … -/
theorem ofMsbs_toNat (f : Nat → Bool) (v : Nat) :
    (ofMsbs f v).toNat = ((List.range v).map fun r => (f r).toNat * 2 ^ (v - 1 - r)).sum := by
  induction v with
  | zero => simp [ofMsbs]
  | succ v ih =>
    rw [ofMsbs, BitVec.toNat_concat, ih, List.range_succ, List.map_append, List.sum_append]
    have : (List.range v).map (fun r => (f r).toNat * 2 ^ (v + 1 - 1 - r)) =
        (List.range v).map (fun r => ((f r).toNat * 2 ^ (v - 1 - r)) * 2) := by
      apply List.map_congr_left
      intro r hr
      simp at hr
      rw [show v + 1 - 1 - r = (v - 1 - r) + 1 by omega, pow_succ]
      ring
    rw [this, List.sum_map_mul_right]
    simp

/-- A value is two values side by side when its bits are theirs. -/
theorem ofMsbs_eq_append (f : Nat → Bool) {a b : Nat} (x : BitVec a) (y : BitVec b)
    (hx : ∀ r, r < a → f r = x.getMsbD r) (hy : ∀ r, r < b → f (a + r) = y.getMsbD r) :
    ofMsbs f (a + b) = x ++ y := by
  apply BitVec.eq_of_getMsbD_eq
  intro r hr
  rw [ofMsbs_getMsbD, BitVec.getMsbD_append]
  by_cases h : a ≤ r
  · rw [if_pos h, ← hy _ (by omega), Nat.add_sub_cancel' h]
    simp [hr]
  · rw [if_neg h, ← hx _ (by omega)]
    simp [hr]

theorem bitOf_toNat {w : Nat} (hw : 0 < w) (xs : List (BitVec w)) (i : Nat) :
    (bitOf xs i).toNat = (xs.getD (i / w) 0).toNat / 2 ^ (w - 1 - i % w) % 2 := by
  unfold bitOf
  have : i % w < w := Nat.mod_lt _ hw
  rw [BitVec.getMsbD_eq_getLsbD]
  simp only [this, decide_true, Bool.true_and, BitVec.getLsbD, Nat.testBit_eq_decide_div_mod_eq]
  generalize BitVec.toNat _ / 2 ^ (w - 1 - i % w) = y
  rcases Nat.mod_two_eq_zero_or_one y with h | h <;> rw [h] <;> rfl

theorem bitOf_of_ge {w : Nat} (hw : 0 < w) (xs : List (BitVec w)) (i : Nat)
    (h : w * xs.length ≤ i) : bitOf xs i = false := by
  unfold bitOf
  rw [List.getD_eq_default]
  · simp
  · exact (Nat.le_div_iff_mul_le hw).2 (by rw [Nat.mul_comm]; exact h)

theorem bitOf_append_left {w : Nat} (xs ys : List (BitVec w)) (i : Nat) (h : i < w * xs.length) :
    bitOf (xs ++ ys) i = bitOf xs i := by
  unfold bitOf
  rw [List.getD_append _ _ _ _ (Nat.div_lt_of_lt_mul h)]

theorem bitOf_append_right {w : Nat} (hw : 0 < w) (xs ys : List (BitVec w)) (i : Nat) :
    bitOf (xs ++ ys) (w * xs.length + i) = bitOf ys i := by
  unfold bitOf
  rw [Nat.mul_add_div hw, Nat.mul_add_mod, List.getD_append_right _ _ _ _ (Nat.le_add_right _ _),
    Nat.add_sub_cancel_left]

/-- Lists of values are equal when their bit strings are. -/
theorem list_eq_of_bitOf_eq {w : Nat} {xs ys : List (BitVec w)} (hl : xs.length = ys.length)
    (h : ∀ i, i < w * xs.length → bitOf xs i = bitOf ys i) : xs = ys := by
  apply List.ext_getElem hl
  intro j hj hj'
  apply BitVec.eq_of_getMsbD_eq
  intro r hr
  have := h (w * j + r) (by nlinarith [Nat.mul_le_mul_left w hj])
  have hd : (w * j + r) / w = j := by
    rw [Nat.mul_add_div (by omega), Nat.div_eq_of_lt hr]; rfl
  have hm : (w * j + r) % w = r := by
    rw [Nat.mul_add_mod, Nat.mod_eq_of_lt hr]
  simpa [bitOf, hd, hm, hj, hj'] using this

@[simp] theorem regroup_length {w : Nat} (v : Nat) (xs : List (BitVec w)) (m : Nat) :
    (regroup v xs m).length = m := by
  simp [regroup]

theorem regroup_getD {w : Nat} (v : Nat) (xs : List (BitVec w)) (m i : Nat) (h : i < m) :
    (regroup v xs m).getD i 0 = ofMsbs (fun r => bitOf xs (v * i + r)) v := by
  simp [regroup, List.getD_eq_getElem?_getD, h]

/-- Cutting a bit string into groups of another width keeps its bits. -/
theorem bitOf_regroup {w : Nat} (v : Nat) (xs : List (BitVec w)) (m i : Nat) (hi : i < v * m) :
    bitOf (regroup v xs m) i = bitOf xs i := by
  have hv : 0 < v := Nat.pos_of_mul_pos_right (by omega : 0 < v * m)
  have h1 : i / v < m := Nat.div_lt_of_lt_mul hi
  have h2 : i % v < v := Nat.mod_lt _ hv
  have h3 : v * (i / v) + i % v = i := Nat.div_add_mod i v
  conv_lhs => unfold bitOf
  simp [regroup, List.getD_eq_getElem?_getD, h1, ofMsbs_getMsbD, h2, h3]

/-- Where a cut falls on a boundary, what follows is cut on its own. -/
theorem regroup_append {w : Nat} (hw : 0 < w) (v : Nat) (xs ys : List (BitVec w)) (m n : Nat)
    (h : v * m = w * xs.length) :
    regroup v (xs ++ ys) (m + n) = regroup v xs m ++ regroup v ys n := by
  unfold regroup
  rw [List.range_add, List.map_append, List.map_map]
  congr 1
  · apply List.map_congr_left
    intro j hj
    simp at hj
    apply BitVec.eq_of_getMsbD_eq
    intro r hr
    rw [ofMsbs_getMsbD, ofMsbs_getMsbD, bitOf_append_left]
    rw [← h]
    nlinarith [Nat.mul_le_mul_left v hj]
  · apply List.map_congr_left
    intro j hj
    simp only [Function.comp]
    congr 1
    funext r
    rw [show v * (m + j) + r = w * xs.length + (v * j + r) by rw [← h]; ring,
      bitOf_append_right hw]

/-- Zero values at the end do not change a cut. -/
theorem regroup_append_zeros {w : Nat} (v : Nat) (xs : List (BitVec w)) (k m : Nat) :
    regroup v (xs ++ List.replicate k 0) m = regroup v xs m := by
  unfold regroup
  apply List.map_congr_left
  intro j hj
  congr 1
  funext r
  generalize v * j + r = i
  unfold bitOf
  congr 1
  by_cases h : i / w < xs.length
  · rw [List.getD_append _ _ _ _ h]
  · rw [List.getD_append_right _ _ _ _ (by omega),
      List.getD_eq_default _ _ (by omega : xs.length ≤ i / w)]
    by_cases h2 : i / w - xs.length < k
    · rw [List.getD_eq_getElem _ _ (by simpa using h2)]
      simp
    · rw [List.getD_eq_default]
      simpa using h2

theorem regroup_take {w : Nat} (v : Nat) (xs : List (BitVec w)) (m n : Nat) (h : n ≤ m) :
    (regroup v xs m).take n = regroup v xs n := by
  unfold regroup
  rw [← List.map_take, List.take_range, Nat.min_eq_left h]

end Sys2Proof.Machine
end

