-- ==== Sys2Proof/Laws/State.lean ====
section
/-!
SUPPORT. Every field of every update of the state, one lemma each, so that no proof unfolds a record
update.
-/

namespace Sys2Proof.Machine

/-! ### `statusAccept` -/

@[simp] theorem statusAccept_busy (o : OtpState) : (statusAccept o).busy = true := rfl
@[simp] theorem statusAccept_done (o : OtpState) : (statusAccept o).done = false := rfl
@[simp] theorem statusAccept_err (o : OtpState) : (statusAccept o).err = false := rfl
@[simp] theorem statusAccept_matched (o : OtpState) : (statusAccept o).matched = false := rfl
@[simp] theorem statusAccept_errcode (o : OtpState) : (statusAccept o).errcode = 0 := rfl
@[simp] theorem statusAccept_busyerr (o : OtpState) : (statusAccept o).busyerr = o.busyerr := rfl
@[simp] theorem statusAccept_pending (o : OtpState) : (statusAccept o).pending = o.pending := rfl
@[simp] theorem statusAccept_digits (o : OtpState) : (statusAccept o).digits = o.digits := rfl
@[simp] theorem statusAccept_alg (o : OtpState) : (statusAccept o).alg = o.alg := rfl
@[simp] theorem statusAccept_pad (o : OtpState) : (statusAccept o).pad = o.pad := rfl
@[simp] theorem statusAccept_window (o : OtpState) : (statusAccept o).window = o.window := rfl
@[simp] theorem statusAccept_keyLen (o : OtpState) : (statusAccept o).keyLen = o.keyLen := rfl
@[simp] theorem statusAccept_txtLen (o : OtpState) : (statusAccept o).txtLen = o.txtLen := rfl
@[simp] theorem statusAccept_subLen (o : OtpState) : (statusAccept o).subLen = o.subLen := rfl
@[simp] theorem statusAccept_time (o : OtpState) : (statusAccept o).time = o.time := rfl
@[simp] theorem statusAccept_ctr (o : OtpState) : (statusAccept o).ctr = o.ctr := rfl
@[simp] theorem statusAccept_matchCtr (o : OtpState) : (statusAccept o).matchCtr = o.matchCtr := rfl
@[simp] theorem statusAccept_offset (o : OtpState) : (statusAccept o).offset = o.offset := rfl
@[simp] theorem statusAccept_binary (o : OtpState) : (statusAccept o).binary = o.binary := rfl
@[simp] theorem statusAccept_codeBin (o : OtpState) : (statusAccept o).codeBin = o.codeBin := rfl
@[simp] theorem statusAccept_codeTxt (o : OtpState) : (statusAccept o).codeTxt = o.codeTxt := rfl
@[simp] theorem statusAccept_sub (o : OtpState) : (statusAccept o).sub = o.sub := rfl
@[simp] theorem statusAccept_dig (o : OtpState) : (statusAccept o).dig = o.dig := rfl
@[simp] theorem statusAccept_key (o : OtpState) : (statusAccept o).key = o.key := rfl
@[simp] theorem statusAccept_txt (o : OtpState) : (statusAccept o).txt = o.txt := rfl

/-! ### `statusSucceed` -/

@[simp] theorem statusSucceed_busy (hit : Bool) (o : OtpState) :
    (statusSucceed hit o).busy = false := rfl
@[simp] theorem statusSucceed_done (hit : Bool) (o : OtpState) :
    (statusSucceed hit o).done = true := rfl
@[simp] theorem statusSucceed_err (hit : Bool) (o : OtpState) :
    (statusSucceed hit o).err = false := rfl
@[simp] theorem statusSucceed_matched (hit : Bool) (o : OtpState) :
    (statusSucceed hit o).matched = hit := rfl
@[simp] theorem statusSucceed_errcode (hit : Bool) (o : OtpState) :
    (statusSucceed hit o).errcode = 0 := rfl
@[simp] theorem statusSucceed_busyerr (hit : Bool) (o : OtpState) :
    (statusSucceed hit o).busyerr = o.busyerr := rfl
@[simp] theorem statusSucceed_pending (hit : Bool) (o : OtpState) :
    (statusSucceed hit o).pending = o.pending := rfl
@[simp] theorem statusSucceed_digits (hit : Bool) (o : OtpState) :
    (statusSucceed hit o).digits = o.digits := rfl
@[simp] theorem statusSucceed_alg (hit : Bool) (o : OtpState) :
    (statusSucceed hit o).alg = o.alg := rfl
@[simp] theorem statusSucceed_pad (hit : Bool) (o : OtpState) :
    (statusSucceed hit o).pad = o.pad := rfl
@[simp] theorem statusSucceed_window (hit : Bool) (o : OtpState) :
    (statusSucceed hit o).window = o.window := rfl
@[simp] theorem statusSucceed_keyLen (hit : Bool) (o : OtpState) :
    (statusSucceed hit o).keyLen = o.keyLen := rfl
@[simp] theorem statusSucceed_txtLen (hit : Bool) (o : OtpState) :
    (statusSucceed hit o).txtLen = o.txtLen := rfl
@[simp] theorem statusSucceed_subLen (hit : Bool) (o : OtpState) :
    (statusSucceed hit o).subLen = o.subLen := rfl
@[simp] theorem statusSucceed_time (hit : Bool) (o : OtpState) :
    (statusSucceed hit o).time = o.time := rfl
@[simp] theorem statusSucceed_ctr (hit : Bool) (o : OtpState) :
    (statusSucceed hit o).ctr = o.ctr := rfl
@[simp] theorem statusSucceed_matchCtr (hit : Bool) (o : OtpState) :
    (statusSucceed hit o).matchCtr = o.matchCtr := rfl
@[simp] theorem statusSucceed_offset (hit : Bool) (o : OtpState) :
    (statusSucceed hit o).offset = o.offset := rfl
@[simp] theorem statusSucceed_binary (hit : Bool) (o : OtpState) :
    (statusSucceed hit o).binary = o.binary := rfl
@[simp] theorem statusSucceed_codeBin (hit : Bool) (o : OtpState) :
    (statusSucceed hit o).codeBin = o.codeBin := rfl
@[simp] theorem statusSucceed_codeTxt (hit : Bool) (o : OtpState) :
    (statusSucceed hit o).codeTxt = o.codeTxt := rfl
@[simp] theorem statusSucceed_sub (hit : Bool) (o : OtpState) :
    (statusSucceed hit o).sub = o.sub := rfl
@[simp] theorem statusSucceed_dig (hit : Bool) (o : OtpState) :
    (statusSucceed hit o).dig = o.dig := rfl
@[simp] theorem statusSucceed_key (hit : Bool) (o : OtpState) :
    (statusSucceed hit o).key = o.key := rfl
@[simp] theorem statusSucceed_txt (hit : Bool) (o : OtpState) :
    (statusSucceed hit o).txt = o.txt := rfl

/-! ### `statusFail` -/

@[simp] theorem statusFail_busy (e : CmdError) (o : OtpState) : (statusFail e o).busy = false := rfl
@[simp] theorem statusFail_done (e : CmdError) (o : OtpState) : (statusFail e o).done = true := rfl
@[simp] theorem statusFail_err (e : CmdError) (o : OtpState) : (statusFail e o).err = true := rfl
@[simp] theorem statusFail_matched (e : CmdError) (o : OtpState) :
    (statusFail e o).matched = false := rfl
@[simp] theorem statusFail_errcode (e : CmdError) (o : OtpState) :
    (statusFail e o).errcode = e.code := rfl
@[simp] theorem statusFail_busyerr (e : CmdError) (o : OtpState) :
    (statusFail e o).busyerr = o.busyerr := rfl
@[simp] theorem statusFail_pending (e : CmdError) (o : OtpState) :
    (statusFail e o).pending = o.pending := rfl
@[simp] theorem statusFail_digits (e : CmdError) (o : OtpState) :
    (statusFail e o).digits = o.digits := rfl
@[simp] theorem statusFail_alg (e : CmdError) (o : OtpState) : (statusFail e o).alg = o.alg := rfl
@[simp] theorem statusFail_pad (e : CmdError) (o : OtpState) : (statusFail e o).pad = o.pad := rfl
@[simp] theorem statusFail_window (e : CmdError) (o : OtpState) :
    (statusFail e o).window = o.window := rfl
@[simp] theorem statusFail_keyLen (e : CmdError) (o : OtpState) :
    (statusFail e o).keyLen = o.keyLen := rfl
@[simp] theorem statusFail_txtLen (e : CmdError) (o : OtpState) :
    (statusFail e o).txtLen = o.txtLen := rfl
@[simp] theorem statusFail_subLen (e : CmdError) (o : OtpState) :
    (statusFail e o).subLen = o.subLen := rfl
@[simp] theorem statusFail_time (e : CmdError) (o : OtpState) :
    (statusFail e o).time = o.time := rfl
@[simp] theorem statusFail_ctr (e : CmdError) (o : OtpState) : (statusFail e o).ctr = o.ctr := rfl
@[simp] theorem statusFail_matchCtr (e : CmdError) (o : OtpState) :
    (statusFail e o).matchCtr = o.matchCtr := rfl
@[simp] theorem statusFail_offset (e : CmdError) (o : OtpState) :
    (statusFail e o).offset = o.offset := rfl
@[simp] theorem statusFail_binary (e : CmdError) (o : OtpState) :
    (statusFail e o).binary = o.binary := rfl
@[simp] theorem statusFail_codeBin (e : CmdError) (o : OtpState) :
    (statusFail e o).codeBin = o.codeBin := rfl
@[simp] theorem statusFail_codeTxt (e : CmdError) (o : OtpState) :
    (statusFail e o).codeTxt = o.codeTxt := rfl
@[simp] theorem statusFail_sub (e : CmdError) (o : OtpState) : (statusFail e o).sub = o.sub := rfl
@[simp] theorem statusFail_dig (e : CmdError) (o : OtpState) : (statusFail e o).dig = o.dig := rfl
@[simp] theorem statusFail_key (e : CmdError) (o : OtpState) : (statusFail e o).key = o.key := rfl
@[simp] theorem statusFail_txt (e : CmdError) (o : OtpState) : (statusFail e o).txt = o.txt := rfl

/-! ### `statusDropped` -/

@[simp] theorem statusDropped_busy (o : OtpState) : (statusDropped o).busy = o.busy := rfl
@[simp] theorem statusDropped_done (o : OtpState) : (statusDropped o).done = o.done := rfl
@[simp] theorem statusDropped_err (o : OtpState) : (statusDropped o).err = o.err := rfl
@[simp] theorem statusDropped_matched (o : OtpState) : (statusDropped o).matched = o.matched := rfl
@[simp] theorem statusDropped_errcode (o : OtpState) : (statusDropped o).errcode = o.errcode := rfl
@[simp] theorem statusDropped_busyerr (o : OtpState) : (statusDropped o).busyerr = true := rfl
@[simp] theorem statusDropped_pending (o : OtpState) : (statusDropped o).pending = o.pending := rfl
@[simp] theorem statusDropped_digits (o : OtpState) : (statusDropped o).digits = o.digits := rfl
@[simp] theorem statusDropped_alg (o : OtpState) : (statusDropped o).alg = o.alg := rfl
@[simp] theorem statusDropped_pad (o : OtpState) : (statusDropped o).pad = o.pad := rfl
@[simp] theorem statusDropped_window (o : OtpState) : (statusDropped o).window = o.window := rfl
@[simp] theorem statusDropped_keyLen (o : OtpState) : (statusDropped o).keyLen = o.keyLen := rfl
@[simp] theorem statusDropped_txtLen (o : OtpState) : (statusDropped o).txtLen = o.txtLen := rfl
@[simp] theorem statusDropped_subLen (o : OtpState) : (statusDropped o).subLen = o.subLen := rfl
@[simp] theorem statusDropped_time (o : OtpState) : (statusDropped o).time = o.time := rfl
@[simp] theorem statusDropped_ctr (o : OtpState) : (statusDropped o).ctr = o.ctr := rfl
@[simp] theorem statusDropped_matchCtr (o : OtpState) :
    (statusDropped o).matchCtr = o.matchCtr := rfl
@[simp] theorem statusDropped_offset (o : OtpState) : (statusDropped o).offset = o.offset := rfl
@[simp] theorem statusDropped_binary (o : OtpState) : (statusDropped o).binary = o.binary := rfl
@[simp] theorem statusDropped_codeBin (o : OtpState) : (statusDropped o).codeBin = o.codeBin := rfl
@[simp] theorem statusDropped_codeTxt (o : OtpState) : (statusDropped o).codeTxt = o.codeTxt := rfl
@[simp] theorem statusDropped_sub (o : OtpState) : (statusDropped o).sub = o.sub := rfl
@[simp] theorem statusDropped_dig (o : OtpState) : (statusDropped o).dig = o.dig := rfl
@[simp] theorem statusDropped_key (o : OtpState) : (statusDropped o).key = o.key := rfl
@[simp] theorem statusDropped_txt (o : OtpState) : (statusDropped o).txt = o.txt := rfl

/-! ### `acceptCommand` -/

@[simp] theorem acceptCommand_busy (v : Word) (o : OtpState) :
    (acceptCommand v o).busy = true := rfl
@[simp] theorem acceptCommand_done (v : Word) (o : OtpState) :
    (acceptCommand v o).done = false := rfl
@[simp] theorem acceptCommand_err (v : Word) (o : OtpState) : (acceptCommand v o).err = false := rfl
@[simp] theorem acceptCommand_matched (v : Word) (o : OtpState) :
    (acceptCommand v o).matched = false := rfl
@[simp] theorem acceptCommand_errcode (v : Word) (o : OtpState) :
    (acceptCommand v o).errcode = 0 := rfl
@[simp] theorem acceptCommand_busyerr (v : Word) (o : OtpState) :
    (acceptCommand v o).busyerr = o.busyerr := rfl
@[simp] theorem acceptCommand_pending (v : Word) (o : OtpState) :
    (acceptCommand v o).pending = v := rfl
@[simp] theorem acceptCommand_digits (v : Word) (o : OtpState) :
    (acceptCommand v o).digits = o.digits := rfl
@[simp] theorem acceptCommand_alg (v : Word) (o : OtpState) : (acceptCommand v o).alg = o.alg := rfl
@[simp] theorem acceptCommand_pad (v : Word) (o : OtpState) : (acceptCommand v o).pad = o.pad := rfl
@[simp] theorem acceptCommand_window (v : Word) (o : OtpState) :
    (acceptCommand v o).window = o.window := rfl
@[simp] theorem acceptCommand_keyLen (v : Word) (o : OtpState) :
    (acceptCommand v o).keyLen = o.keyLen := rfl
@[simp] theorem acceptCommand_txtLen (v : Word) (o : OtpState) :
    (acceptCommand v o).txtLen = o.txtLen := rfl
@[simp] theorem acceptCommand_subLen (v : Word) (o : OtpState) :
    (acceptCommand v o).subLen = o.subLen := rfl
@[simp] theorem acceptCommand_time (v : Word) (o : OtpState) :
    (acceptCommand v o).time = o.time := rfl
@[simp] theorem acceptCommand_ctr (v : Word) (o : OtpState) : (acceptCommand v o).ctr = o.ctr := rfl
@[simp] theorem acceptCommand_matchCtr (v : Word) (o : OtpState) :
    (acceptCommand v o).matchCtr = o.matchCtr := rfl
@[simp] theorem acceptCommand_offset (v : Word) (o : OtpState) :
    (acceptCommand v o).offset = o.offset := rfl
@[simp] theorem acceptCommand_binary (v : Word) (o : OtpState) :
    (acceptCommand v o).binary = o.binary := rfl
@[simp] theorem acceptCommand_codeBin (v : Word) (o : OtpState) :
    (acceptCommand v o).codeBin = o.codeBin := rfl
@[simp] theorem acceptCommand_codeTxt (v : Word) (o : OtpState) :
    (acceptCommand v o).codeTxt = o.codeTxt := rfl
@[simp] theorem acceptCommand_sub (v : Word) (o : OtpState) : (acceptCommand v o).sub = o.sub := rfl
@[simp] theorem acceptCommand_dig (v : Word) (o : OtpState) : (acceptCommand v o).dig = o.dig := rfl
@[simp] theorem acceptCommand_key (v : Word) (o : OtpState) : (acceptCommand v o).key = o.key := rfl
@[simp] theorem acceptCommand_txt (v : Word) (o : OtpState) : (acceptCommand v o).txt = o.txt := rfl

/-! ### `raiseError` -/

@[simp] theorem raiseError_busy (e : CmdError) (o : OtpState) : (raiseError e o).busy = false := rfl
@[simp] theorem raiseError_done (e : CmdError) (o : OtpState) : (raiseError e o).done = true := rfl
@[simp] theorem raiseError_err (e : CmdError) (o : OtpState) : (raiseError e o).err = true := rfl
@[simp] theorem raiseError_matched (e : CmdError) (o : OtpState) :
    (raiseError e o).matched = false := rfl
@[simp] theorem raiseError_errcode (e : CmdError) (o : OtpState) :
    (raiseError e o).errcode = e.code := rfl
@[simp] theorem raiseError_busyerr (e : CmdError) (o : OtpState) :
    (raiseError e o).busyerr = o.busyerr := rfl
@[simp] theorem raiseError_pending (e : CmdError) (o : OtpState) :
    (raiseError e o).pending = o.pending := rfl
@[simp] theorem raiseError_digits (e : CmdError) (o : OtpState) :
    (raiseError e o).digits = o.digits := rfl
@[simp] theorem raiseError_alg (e : CmdError) (o : OtpState) : (raiseError e o).alg = o.alg := rfl
@[simp] theorem raiseError_pad (e : CmdError) (o : OtpState) : (raiseError e o).pad = o.pad := rfl
@[simp] theorem raiseError_window (e : CmdError) (o : OtpState) :
    (raiseError e o).window = o.window := rfl
@[simp] theorem raiseError_keyLen (e : CmdError) (o : OtpState) :
    (raiseError e o).keyLen = o.keyLen := rfl
@[simp] theorem raiseError_txtLen (e : CmdError) (o : OtpState) :
    (raiseError e o).txtLen = o.txtLen := rfl
@[simp] theorem raiseError_subLen (e : CmdError) (o : OtpState) :
    (raiseError e o).subLen = o.subLen := rfl
@[simp] theorem raiseError_time (e : CmdError) (o : OtpState) :
    (raiseError e o).time = o.time := rfl
@[simp] theorem raiseError_ctr (e : CmdError) (o : OtpState) : (raiseError e o).ctr = o.ctr := rfl
@[simp] theorem raiseError_matchCtr (e : CmdError) (o : OtpState) :
    (raiseError e o).matchCtr = o.matchCtr := rfl
@[simp] theorem raiseError_offset (e : CmdError) (o : OtpState) :
    (raiseError e o).offset = o.offset := rfl
@[simp] theorem raiseError_binary (e : CmdError) (o : OtpState) :
    (raiseError e o).binary = o.binary := rfl
@[simp] theorem raiseError_codeBin (e : CmdError) (o : OtpState) :
    (raiseError e o).codeBin = o.codeBin := rfl
@[simp] theorem raiseError_codeTxt (e : CmdError) (o : OtpState) :
    (raiseError e o).codeTxt = o.codeTxt := rfl
@[simp] theorem raiseError_sub (e : CmdError) (o : OtpState) : (raiseError e o).sub = o.sub := rfl
@[simp] theorem raiseError_dig (e : CmdError) (o : OtpState) : (raiseError e o).dig = o.dig := rfl
@[simp] theorem raiseError_key (e : CmdError) (o : OtpState) : (raiseError e o).key = o.key := rfl
@[simp] theorem raiseError_txt (e : CmdError) (o : OtpState) : (raiseError e o).txt = o.txt := rfl

/-! ### `writeKey` -/

@[simp] theorem writeKey_busy (b : List Byte) (o : OtpState) : (writeKey b o).busy = o.busy := rfl
@[simp] theorem writeKey_done (b : List Byte) (o : OtpState) : (writeKey b o).done = o.done := rfl
@[simp] theorem writeKey_err (b : List Byte) (o : OtpState) : (writeKey b o).err = o.err := rfl
@[simp] theorem writeKey_matched (b : List Byte) (o : OtpState) :
    (writeKey b o).matched = o.matched := rfl
@[simp] theorem writeKey_errcode (b : List Byte) (o : OtpState) :
    (writeKey b o).errcode = o.errcode := rfl
@[simp] theorem writeKey_busyerr (b : List Byte) (o : OtpState) :
    (writeKey b o).busyerr = o.busyerr := rfl
@[simp] theorem writeKey_pending (b : List Byte) (o : OtpState) :
    (writeKey b o).pending = o.pending := rfl
@[simp] theorem writeKey_digits (b : List Byte) (o : OtpState) :
    (writeKey b o).digits = o.digits := rfl
@[simp] theorem writeKey_alg (b : List Byte) (o : OtpState) : (writeKey b o).alg = o.alg := rfl
@[simp] theorem writeKey_pad (b : List Byte) (o : OtpState) : (writeKey b o).pad = o.pad := rfl
@[simp] theorem writeKey_window (b : List Byte) (o : OtpState) :
    (writeKey b o).window = o.window := rfl
@[simp] theorem writeKey_keyLen (b : List Byte) (o : OtpState) :
    (writeKey b o).keyLen = BitVec.ofNat 7 b.length := rfl
@[simp] theorem writeKey_txtLen (b : List Byte) (o : OtpState) :
    (writeKey b o).txtLen = o.txtLen := rfl
@[simp] theorem writeKey_subLen (b : List Byte) (o : OtpState) :
    (writeKey b o).subLen = o.subLen := rfl
@[simp] theorem writeKey_time (b : List Byte) (o : OtpState) : (writeKey b o).time = o.time := rfl
@[simp] theorem writeKey_ctr (b : List Byte) (o : OtpState) : (writeKey b o).ctr = o.ctr := rfl
@[simp] theorem writeKey_matchCtr (b : List Byte) (o : OtpState) :
    (writeKey b o).matchCtr = o.matchCtr := rfl
@[simp] theorem writeKey_offset (b : List Byte) (o : OtpState) :
    (writeKey b o).offset = o.offset := rfl
@[simp] theorem writeKey_binary (b : List Byte) (o : OtpState) :
    (writeKey b o).binary = o.binary := rfl
@[simp] theorem writeKey_codeBin (b : List Byte) (o : OtpState) :
    (writeKey b o).codeBin = o.codeBin := rfl
@[simp] theorem writeKey_codeTxt (b : List Byte) (o : OtpState) :
    (writeKey b o).codeTxt = o.codeTxt := rfl
@[simp] theorem writeKey_sub (b : List Byte) (o : OtpState) : (writeKey b o).sub = o.sub := rfl
@[simp] theorem writeKey_dig (b : List Byte) (o : OtpState) : (writeKey b o).dig = o.dig := rfl
@[simp] theorem writeKey_key (b : List Byte) (o : OtpState) :
    (writeKey b o).key = overlay o.key 0 b := rfl
@[simp] theorem writeKey_txt (b : List Byte) (o : OtpState) : (writeKey b o).txt = o.txt := rfl

/-! ### `writeCode` -/

@[simp] theorem writeCode_busy (r : Truncated) (o : OtpState) : (writeCode r o).busy = o.busy := rfl
@[simp] theorem writeCode_done (r : Truncated) (o : OtpState) : (writeCode r o).done = o.done := rfl
@[simp] theorem writeCode_err (r : Truncated) (o : OtpState) : (writeCode r o).err = o.err := rfl
@[simp] theorem writeCode_matched (r : Truncated) (o : OtpState) :
    (writeCode r o).matched = o.matched := rfl
@[simp] theorem writeCode_errcode (r : Truncated) (o : OtpState) :
    (writeCode r o).errcode = o.errcode := rfl
@[simp] theorem writeCode_busyerr (r : Truncated) (o : OtpState) :
    (writeCode r o).busyerr = o.busyerr := rfl
@[simp] theorem writeCode_pending (r : Truncated) (o : OtpState) :
    (writeCode r o).pending = o.pending := rfl
@[simp] theorem writeCode_digits (r : Truncated) (o : OtpState) :
    (writeCode r o).digits = o.digits := rfl
@[simp] theorem writeCode_alg (r : Truncated) (o : OtpState) : (writeCode r o).alg = o.alg := rfl
@[simp] theorem writeCode_pad (r : Truncated) (o : OtpState) : (writeCode r o).pad = o.pad := rfl
@[simp] theorem writeCode_window (r : Truncated) (o : OtpState) :
    (writeCode r o).window = o.window := rfl
@[simp] theorem writeCode_keyLen (r : Truncated) (o : OtpState) :
    (writeCode r o).keyLen = o.keyLen := rfl
@[simp] theorem writeCode_txtLen (r : Truncated) (o : OtpState) :
    (writeCode r o).txtLen = o.txtLen := rfl
@[simp] theorem writeCode_subLen (r : Truncated) (o : OtpState) :
    (writeCode r o).subLen = o.subLen := rfl
@[simp] theorem writeCode_time (r : Truncated) (o : OtpState) : (writeCode r o).time = o.time := rfl
@[simp] theorem writeCode_ctr (r : Truncated) (o : OtpState) : (writeCode r o).ctr = o.ctr := rfl
@[simp] theorem writeCode_matchCtr (r : Truncated) (o : OtpState) :
    (writeCode r o).matchCtr = o.matchCtr := rfl
@[simp] theorem writeCode_offset (r : Truncated) (o : OtpState) :
    (writeCode r o).offset = r.offset := rfl
@[simp] theorem writeCode_binary (r : Truncated) (o : OtpState) :
    (writeCode r o).binary = r.binary := rfl
@[simp] theorem writeCode_codeBin (r : Truncated) (o : OtpState) :
    (writeCode r o).codeBin = r.codeBin := rfl
@[simp] theorem writeCode_codeTxt (r : Truncated) (o : OtpState) :
    (writeCode r o).codeTxt = r.codeTxt := rfl
@[simp] theorem writeCode_sub (r : Truncated) (o : OtpState) : (writeCode r o).sub = o.sub := rfl
@[simp] theorem writeCode_dig (r : Truncated) (o : OtpState) : (writeCode r o).dig = o.dig := rfl
@[simp] theorem writeCode_key (r : Truncated) (o : OtpState) : (writeCode r o).key = o.key := rfl
@[simp] theorem writeCode_txt (r : Truncated) (o : OtpState) : (writeCode r o).txt = o.txt := rfl

/-! ### `writeDigest` -/

@[simp] theorem writeDigest_busy (h : List Byte) (o : OtpState) :
    (writeDigest h o).busy = o.busy := by unfold writeDigest; rfl
@[simp] theorem writeDigest_done (h : List Byte) (o : OtpState) :
    (writeDigest h o).done = o.done := by unfold writeDigest; rfl
@[simp] theorem writeDigest_err (h : List Byte) (o : OtpState) :
    (writeDigest h o).err = o.err := by unfold writeDigest; rfl
@[simp] theorem writeDigest_matched (h : List Byte) (o : OtpState) :
    (writeDigest h o).matched = o.matched := by unfold writeDigest; rfl
@[simp] theorem writeDigest_errcode (h : List Byte) (o : OtpState) :
    (writeDigest h o).errcode = o.errcode := by unfold writeDigest; rfl
@[simp] theorem writeDigest_busyerr (h : List Byte) (o : OtpState) :
    (writeDigest h o).busyerr = o.busyerr := by unfold writeDigest; rfl
@[simp] theorem writeDigest_pending (h : List Byte) (o : OtpState) :
    (writeDigest h o).pending = o.pending := by unfold writeDigest; rfl
@[simp] theorem writeDigest_digits (h : List Byte) (o : OtpState) :
    (writeDigest h o).digits = o.digits := by unfold writeDigest; rfl
@[simp] theorem writeDigest_alg (h : List Byte) (o : OtpState) :
    (writeDigest h o).alg = o.alg := by unfold writeDigest; rfl
@[simp] theorem writeDigest_pad (h : List Byte) (o : OtpState) :
    (writeDigest h o).pad = o.pad := by unfold writeDigest; rfl
@[simp] theorem writeDigest_window (h : List Byte) (o : OtpState) :
    (writeDigest h o).window = o.window := by unfold writeDigest; rfl
@[simp] theorem writeDigest_keyLen (h : List Byte) (o : OtpState) :
    (writeDigest h o).keyLen = o.keyLen := by unfold writeDigest; rfl
@[simp] theorem writeDigest_txtLen (h : List Byte) (o : OtpState) :
    (writeDigest h o).txtLen = o.txtLen := by unfold writeDigest; rfl
@[simp] theorem writeDigest_subLen (h : List Byte) (o : OtpState) :
    (writeDigest h o).subLen = o.subLen := by unfold writeDigest; rfl
@[simp] theorem writeDigest_time (h : List Byte) (o : OtpState) :
    (writeDigest h o).time = o.time := by unfold writeDigest; rfl
@[simp] theorem writeDigest_ctr (h : List Byte) (o : OtpState) :
    (writeDigest h o).ctr = o.ctr := by unfold writeDigest; rfl
@[simp] theorem writeDigest_matchCtr (h : List Byte) (o : OtpState) :
    (writeDigest h o).matchCtr = o.matchCtr := by unfold writeDigest; rfl
@[simp] theorem writeDigest_offset (h : List Byte) (o : OtpState) :
    (writeDigest h o).offset = o.offset := by unfold writeDigest; rfl
@[simp] theorem writeDigest_binary (h : List Byte) (o : OtpState) :
    (writeDigest h o).binary = o.binary := by unfold writeDigest; rfl
@[simp] theorem writeDigest_codeBin (h : List Byte) (o : OtpState) :
    (writeDigest h o).codeBin = o.codeBin := by unfold writeDigest; rfl
@[simp] theorem writeDigest_codeTxt (h : List Byte) (o : OtpState) :
    (writeDigest h o).codeTxt = o.codeTxt := by unfold writeDigest; rfl
@[simp] theorem writeDigest_sub (h : List Byte) (o : OtpState) :
    (writeDigest h o).sub = o.sub := by unfold writeDigest; rfl
@[simp] theorem writeDigest_dig (h : List Byte) (o : OtpState) :
    (writeDigest h o).dig = overlay o.dig 0 h := by unfold writeDigest; rfl
@[simp] theorem writeDigest_key (h : List Byte) (o : OtpState) :
    (writeDigest h o).key = o.key := by unfold writeDigest; rfl
@[simp] theorem writeDigest_txt (h : List Byte) (o : OtpState) :
    (writeDigest h o).txt = o.txt := by unfold writeDigest; rfl

/-! ### `writeMatch` -/

@[simp] theorem writeMatch_busy (m : Option Dword) (o : OtpState) :
    (writeMatch m o).busy = o.busy := rfl
@[simp] theorem writeMatch_done (m : Option Dword) (o : OtpState) :
    (writeMatch m o).done = o.done := rfl
@[simp] theorem writeMatch_err (m : Option Dword) (o : OtpState) :
    (writeMatch m o).err = o.err := rfl
@[simp] theorem writeMatch_matched (m : Option Dword) (o : OtpState) :
    (writeMatch m o).matched = o.matched := rfl
@[simp] theorem writeMatch_errcode (m : Option Dword) (o : OtpState) :
    (writeMatch m o).errcode = o.errcode := rfl
@[simp] theorem writeMatch_busyerr (m : Option Dword) (o : OtpState) :
    (writeMatch m o).busyerr = o.busyerr := rfl
@[simp] theorem writeMatch_pending (m : Option Dword) (o : OtpState) :
    (writeMatch m o).pending = o.pending := rfl
@[simp] theorem writeMatch_digits (m : Option Dword) (o : OtpState) :
    (writeMatch m o).digits = o.digits := rfl
@[simp] theorem writeMatch_alg (m : Option Dword) (o : OtpState) :
    (writeMatch m o).alg = o.alg := rfl
@[simp] theorem writeMatch_pad (m : Option Dword) (o : OtpState) :
    (writeMatch m o).pad = o.pad := rfl
@[simp] theorem writeMatch_window (m : Option Dword) (o : OtpState) :
    (writeMatch m o).window = o.window := rfl
@[simp] theorem writeMatch_keyLen (m : Option Dword) (o : OtpState) :
    (writeMatch m o).keyLen = o.keyLen := rfl
@[simp] theorem writeMatch_txtLen (m : Option Dword) (o : OtpState) :
    (writeMatch m o).txtLen = o.txtLen := rfl
@[simp] theorem writeMatch_subLen (m : Option Dword) (o : OtpState) :
    (writeMatch m o).subLen = o.subLen := rfl
@[simp] theorem writeMatch_time (m : Option Dword) (o : OtpState) :
    (writeMatch m o).time = o.time := rfl
@[simp] theorem writeMatch_ctr (m : Option Dword) (o : OtpState) :
    (writeMatch m o).ctr = o.ctr := rfl
@[simp] theorem writeMatch_matchCtr (m : Option Dword) (o : OtpState) :
    (writeMatch m o).matchCtr = m.getD o.matchCtr := rfl
@[simp] theorem writeMatch_offset (m : Option Dword) (o : OtpState) :
    (writeMatch m o).offset = o.offset := rfl
@[simp] theorem writeMatch_binary (m : Option Dword) (o : OtpState) :
    (writeMatch m o).binary = o.binary := rfl
@[simp] theorem writeMatch_codeBin (m : Option Dword) (o : OtpState) :
    (writeMatch m o).codeBin = o.codeBin := rfl
@[simp] theorem writeMatch_codeTxt (m : Option Dword) (o : OtpState) :
    (writeMatch m o).codeTxt = o.codeTxt := rfl
@[simp] theorem writeMatch_sub (m : Option Dword) (o : OtpState) :
    (writeMatch m o).sub = o.sub := rfl
@[simp] theorem writeMatch_dig (m : Option Dword) (o : OtpState) :
    (writeMatch m o).dig = o.dig := rfl
@[simp] theorem writeMatch_key (m : Option Dword) (o : OtpState) :
    (writeMatch m o).key = o.key := rfl
@[simp] theorem writeMatch_txt (m : Option Dword) (o : OtpState) :
    (writeMatch m o).txt = o.txt := rfl

/-! ### `takeTurn` -/

@[simp] theorem takeTurn_otp (s : State) : (takeTurn s).otp = s.otp := rfl
@[simp] theorem takeTurn_inputs (s : State) : (takeTurn s).inputs = s.inputs := rfl
@[simp] theorem takeTurn_turns (s : State) : (takeTurn s).turns = s.turns.tail := rfl
@[simp] theorem takeTurn_readData (s : State) : (takeTurn s).readData = s.readData := rfl
@[simp] theorem takeTurn_draws (s : State) : (takeTurn s).draws = s.draws := rfl

/-! ### `resetBlock` -/

@[simp] theorem resetBlock_otp (s : State) : (resetBlock s).otp = OtpState.reset := rfl
@[simp] theorem resetBlock_inputs (s : State) : (resetBlock s).inputs = s.inputs := rfl
@[simp] theorem resetBlock_turns (s : State) : (resetBlock s).turns = s.turns := rfl
@[simp] theorem resetBlock_readData (s : State) : (resetBlock s).readData = s.readData := rfl
@[simp] theorem resetBlock_draws (s : State) : (resetBlock s).draws = s.draws := rfl

/-! ### `State.withFetchWord` -/

@[simp] theorem State.withFetchWord_otp (s : State) (nbits w : Nat) :
    (s.withFetchWord nbits w).otp = acceptCommand (BitVec.ofNat 32 (w % 2 ^ nbits)) s.otp := rfl
@[simp] theorem State.withFetchWord_inputs (s : State) (nbits w : Nat) :
    (s.withFetchWord nbits w).inputs = s.inputs := rfl
@[simp] theorem State.withFetchWord_turns (s : State) (nbits w : Nat) :
    (s.withFetchWord nbits w).turns = .engine :: s.turns := rfl
@[simp] theorem State.withFetchWord_readData (s : State) (nbits w : Nat) :
    (s.withFetchWord nbits w).readData = s.readData := rfl
@[simp] theorem State.withFetchWord_draws (s : State) (nbits w : Nat) :
    (s.withFetchWord nbits w).draws = s.draws := rfl

/-- The host's write to STATUS changes BUSYERR alone. -/
theorem statusWrite_eq (v : Word) (o : OtpState) :
    statusWrite v o = { o with busyerr := o.busyerr && !v.getLsbD 8 } := by
  unfold statusWrite
  cases o; cases v.getLsbD 8 <;> simp

end Sys2Proof.Machine
end

