-- ==== Sys2Proof/Laws/Ops.lean ====
section
/-!
SUPPORT. What the shared operations do: writes of buffers, the byte lanes, the checks on operands, and the
completion of a command.
-/

namespace Sys2Proof.Machine

/-! ### Buffers -/

theorem overlay_getElem {n : Nat} (v : Vector Byte n) (start : Nat) (bs : List Byte) (i : Nat)
    (h : i < n) :
    (overlay v start bs)[i] = if start ≤ i then bs.getD (i - start) v[i] else v[i] := by
  simp [overlay]

theorem bufferByte_of_lt {n : Nat} (v : Vector Byte n) (i : Nat) (h : i < n) :
    bufferByte v i = v[i] := by
  simp [bufferByte, h]

theorem bufferByte_of_ge {n : Nat} (v : Vector Byte n) (i : Nat) (h : n ≤ i) :
    bufferByte v i = 0 := by
  simp [bufferByte, h]

/-- A write of a prefix: the written bytes are the string's, every other byte is as it was. -/
theorem bufferByte_overlay {n : Nat} (v : Vector Byte n) (start : Nat) (bs : List Byte) (i : Nat) :
    bufferByte (overlay v start bs) i =
      if start ≤ i ∧ i < start + bs.length ∧ i < n then bs.getD (i - start) 0 else bufferByte v i := by
  by_cases h : i < n
  · rw [bufferByte_of_lt _ _ h, overlay_getElem _ _ _ _ h, bufferByte_of_lt _ _ h]
    by_cases h1 : start ≤ i
    · by_cases h2 : i < start + bs.length
      · have h3 : i - start < bs.length := by omega
        simp [h, h1, h2, h3]
      · have h3 : bs.length ≤ i - start := by omega
        simp [h1, h2, h3]
    · simp [h1]
  · have h' : n ≤ i := by omega
    simp [bufferByte_of_ge _ _ h', h]

theorem buffer_ext {n : Nat} {v w : Vector Byte n}
    (h : ∀ i, i < n → bufferByte v i = bufferByte w i) : v = w := by
  ext i hi
  simpa only [bufferByte_of_lt _ _ hi] using congrArg (fun b : Byte => b[_]) (h i hi)

theorem overlay_nil {n : Nat} (v : Vector Byte n) (start : Nat) : overlay v start [] = v :=
  buffer_ext fun i _ => by
    rw [bufferByte_overlay, if_neg (by simp; omega)]

theorem toList_take_getD {n : Nat} (v : Vector Byte n) (m i : Nat) :
    (v.toList.take m).getD i 0 = if i < m then bufferByte v i else 0 := by
  by_cases h : i < m <;> by_cases h' : i < n <;> simp [bufferByte, h, h']

/-- What was written at the front reads back. -/
theorem take_overlay {n : Nat} (v : Vector Byte n) (bs : List Byte) (h : bs.length ≤ n) :
    (overlay v 0 bs).toList.take bs.length = bs := by
  apply List.ext_getElem
  · simp [h]
  · intro i h1 h2
    simp only [List.getElem_take, Vector.getElem_toList]
    rw [overlay_getElem _ _ _ _ (by omega)]
    simp [h2]

/-- Writing back what stands at the front changes nothing. -/
theorem overlay_take {n : Nat} (v : Vector Byte n) (m : Nat) :
    overlay v 0 (v.toList.take m) = v := by
  apply buffer_ext
  intro i hi
  rw [bufferByte_overlay]
  split
  · rename_i h
    simp only [List.length_take, Vector.length_toList] at h
    rw [toList_take_getD, if_pos (by omega)]
    rfl
  · rfl

/-! ### Byte lanes -/

theorem wordOfLanes_toNat (a b c d : Byte) : (wordOfLanes a b c d).toNat =
    a.toNat + b.toNat * 2 ^ 8 + c.toNat * 2 ^ 16 + d.toNat * 2 ^ 24 := by
  simp only [wordOfLanes, append_toNat_eq_mul_add]
  omega

theorem lanesOfWord_wordOfLanes (a b c d : Byte) :
    lanesOfWord (wordOfLanes a b c d) = [a, b, c, d] := by
  have := a.isLt; have := b.isLt; have := c.isLt; have := d.isLt
  simp only [lanesOfWord, List.cons.injEq, and_true]
  refine ⟨?_, ?_, ?_, ?_⟩ <;> apply BitVec.eq_of_toNat_eq <;>
    rw [extractLsb'_toNat_eq_div_mod, wordOfLanes_toNat] <;> omega

theorem wordOfLanes_extract (w : Word) :
    wordOfLanes (w.extractLsb' 0 8) (w.extractLsb' 8 8) (w.extractLsb' 16 8)
      (w.extractLsb' 24 8) = w := by
  apply BitVec.eq_of_toNat_eq
  rw [wordOfLanes_toNat, extractLsb'_toNat_eq_div_mod, extractLsb'_toNat_eq_div_mod,
    extractLsb'_toNat_eq_div_mod, extractLsb'_toNat_eq_div_mod]
  omega

theorem lowHalf_toNat (x : Dword) : (lowHalf x).toNat = x.toNat % 2 ^ 32 := by
  rw [lowHalf, extractLsb'_toNat_eq_div_mod]; simp

theorem highHalf_toNat (x : Dword) : (highHalf x).toNat = x.toNat / 2 ^ 32 := by
  rw [highHalf, extractLsb'_toNat_eq_div_mod]; have := x.isLt; omega

theorem setLowHalf_toNat (x : Dword) (w : Word) :
    (setLowHalf x w).toNat = x.toNat / 2 ^ 32 * 2 ^ 32 + w.toNat := by
  rw [setLowHalf, append_toNat_eq_mul_add, highHalf_toNat]

theorem setHighHalf_toNat (x : Dword) (w : Word) :
    (setHighHalf x w).toNat = w.toNat * 2 ^ 32 + x.toNat % 2 ^ 32 := by
  rw [setHighHalf, append_toNat_eq_mul_add, lowHalf_toNat]

/-! ### Operand checks -/

theorem digitsLegal_iff {n : Nat} : digitsLegal n = true ↔ 1 ≤ n ∧ n ≤ 8 := by
  unfold digitsLegal Config.digitsMin Config.digitsMax; exact decide_eq_true_iff

theorem keyTooLong_iff {o : OtpState} : keyTooLong o = true ↔ 80 < o.keyLen.toNat := by
  unfold keyTooLong Config.keyMax keyLength; exact decide_eq_true_iff

theorem textTooLong_iff {o : OtpState} : textTooLong o = true ↔ 128 < o.txtLen.toNat := by
  unfold textTooLong Config.txtMax textLength; exact decide_eq_true_iff

theorem hashAlgorithm_eq_none_iff {o : OtpState} : hashAlgorithm o = none ↔ o.alg = 3 := by
  unfold hashAlgorithm
  generalize o.alg = a
  revert a
  decide

theorem keyBytes_length {o : OtpState} (h : keyTooLong o = false) :
    (keyBytes o).length = o.keyLen.toNat := by
  have : ¬ 80 < o.keyLen.toNat := by rw [← keyTooLong_iff, h]; simp
  simp [keyBytes, keyLength]
  omega

theorem textBytes_length {o : OtpState} (h : textTooLong o = false) :
    (textBytes o).length = o.txtLen.toNat := by
  have : ¬ 128 < o.txtLen.toNat := by rw [← textTooLong_iff, h]; simp
  simp [textBytes, textLength]
  omega

theorem digestBytes_length (alg : HashAlg) (o : OtpState) :
    (digestBytes alg o).length = alg.digestLen := by
  cases alg <;> simp [digestBytes, HashAlg.digestLen]

/-! ### Errors and completion -/

theorem CmdError.code_range (e : CmdError) : 1 ≤ e.code.toNat ∧ e.code.toNat ≤ 7 := by
  cases e <;> decide

theorem CmdError.code_injective {e e' : CmdError} (h : e.code = e'.code) : e = e' := by
  cases e <;> cases e' <;> first | rfl | exact absurd h (by decide)

@[simp] theorem commit_ok (o w : OtpState) (hit : Bool) :
    commit o (.ok (w, hit)) = statusSucceed hit w := rfl

@[simp] theorem commit_error (o : OtpState) (e : CmdError) :
    commit o (.error e) = raiseError e o := rfl

/-- A completion always answers a next state and changes nothing outside the block. -/
theorem complete_eq_next (s : State) (r : CmdResult) :
    complete s r = .next { s with otp := commit s.otp r } := rfl

end Sys2Proof.Machine
end

