-- ==== Sys2Proof/Laws/Base32.lean ====
section
/-!
SUPPORT. The Base32 codec: the alphabet, the length and bytes of an encoded text, and what a text must be
to decode.
-/

namespace Sys2Proof.Machine

/-! ### The alphabet -/

theorem alphaValue_alphaChar (v : BitVec 5) : alphaValue (alphaChar v) = some v := by
  revert v; decide

theorem foldCase_alphaChar (v : BitVec 5) : foldCase (alphaChar v) = alphaChar v := by
  revert v; decide

theorem alphaValue_padChar : alphaValue padChar = none := by decide

theorem foldCase_eq_padChar (x : Byte) : foldCase x = padChar ↔ x = padChar := by
  revert x; decide +kernel

theorem foldCase_foldCase (x : Byte) : foldCase (foldCase x) = foldCase x := by
  revert x; decide +kernel

/-! ### Lengths -/

theorem byteLengthOf_textLengthOf (n : Nat) : byteLengthOf (textLengthOf n) = n := by
  unfold byteLengthOf textLengthOf; omega

/-- The canonical pad fills the text up to a multiple of 8 characters. -/
theorem textLengthOf_add_padCount (n : Nat) :
    textLengthOf n + padCount (textLengthOf n % 8) = 8 * ((textLengthOf n + 7) / 8) := by
  have h : n % 5 = 0 ∨ n % 5 = 1 ∨ n % 5 = 2 ∨ n % 5 = 3 ∨ n % 5 = 4 := by omega
  unfold textLengthOf
  rcases h with h | h | h | h | h
  · rw [show (8 * n + 4) / 5 % 8 = 0 by omega]; simp only [padCount]; omega
  · rw [show (8 * n + 4) / 5 % 8 = 2 by omega]; simp only [padCount]; omega
  · rw [show (8 * n + 4) / 5 % 8 = 4 by omega]; simp only [padCount]; omega
  · rw [show (8 * n + 4) / 5 % 8 = 5 by omega]; simp only [padCount]; omega
  · rw [show (8 * n + 4) / 5 % 8 = 7 by omega]; simp only [padCount]; omega

theorem base32Encode_length (pad : Bool) (b : List Byte) : (base32Encode pad b).length =
    if pad then 8 * ((textLengthOf b.length + 7) / 8) else textLengthOf b.length := by
  unfold base32Encode
  have := textLengthOf_add_padCount b.length
  cases pad <;> simp [this]

/-! ### Encoding -/

/-- Every character of an encoded text. -/
theorem base32Encode_getD (pad : Bool) (b : List Byte) (i : Nat)
    (h : i < (base32Encode pad b).length) :
    (base32Encode pad b).getD i 0 =
      if i < textLengthOf b.length then alphaChar (ofMsbs (fun r => bitOf b (5 * i + r)) 5)
      else padChar := by
  have hl := base32Encode_length pad b
  have hp := textLengthOf_add_padCount b.length
  unfold base32Encode
  by_cases hi : i < textLengthOf b.length
  · rw [if_pos hi, List.getD_append _ _ _ _ (by simp [hi]),
      List.getD_eq_getElem _ _ (by simp [hi]), List.getElem_map]
    congr 1
    have := regroup_getD 5 b (textLengthOf b.length) i hi
    rw [List.getD_eq_getElem _ _ (by simp [hi])] at this
    exact this
  · rw [if_neg hi, List.getD_append_right _ _ _ _ (by simp; omega)]
    simp only [List.length_map, regroup_length]
    cases pad
    · simp at hl; omega
    · simp only [if_true] at hl ⊢
      rw [List.getD_eq_getElem _ _ (by simp; omega)]
      simp

/-! ### Decoding -/

/-- The trailing pads are all pads, and the character before them is none. -/
theorem trailingPads_spec (u : List Byte) :
    trailingPads u ≤ u.length ∧
    (∀ i, u.length - trailingPads u ≤ i → i < u.length → u.getD i 0 = padChar) ∧
    (trailingPads u < u.length → u.getD (u.length - trailingPads u - 1) 0 ≠ padChar) := by
  have key : ∀ l : List Byte, (l.takeWhile (· == padChar)).length ≤ l.length ∧
      (∀ i, i < (l.takeWhile (· == padChar)).length → l.getD i 0 = padChar) ∧
      ((l.takeWhile (· == padChar)).length < l.length →
        l.getD (l.takeWhile (· == padChar)).length 0 ≠ padChar) := by
    intro l
    induction l with
    | nil => simp
    | cons x xs ih =>
      rw [List.takeWhile_cons]
      by_cases hx : (x == padChar) = true
      · simp only [hx, if_true, List.length_cons]
        refine ⟨by omega, fun i hi => ?_, fun hl => ?_⟩
        · cases i with
          | zero => simpa using hx
          | succ i => rw [List.getD_cons_succ]; exact ih.2.1 i (by omega)
        · rw [List.getD_cons_succ]; exact ih.2.2 (by omega)
      · have hne : x ≠ padChar := by simpa using hx
        simp [hne]
  have rev : ∀ i, i < u.length → u.reverse.getD i 0 = u.getD (u.length - 1 - i) 0 := fun i h => by
    rw [List.getD_eq_getElem _ _ (by simpa using h), List.getD_eq_getElem _ _ (by omega),
      List.getElem_reverse]
  obtain ⟨h1, h2, h3⟩ := key u.reverse
  rw [List.length_reverse] at h1 h3
  refine ⟨h1, fun i hi hi' => ?_, fun h => ?_⟩
  · have := h2 (u.length - 1 - i) (by unfold trailingPads at hi; omega)
    rwa [rev _ (by omega), show u.length - 1 - (u.length - 1 - i) = i by omega] at this
  · have := h3 h
    change u.reverse.getD (trailingPads u) 0 ≠ padChar at this
    rw [rev _ h] at this
    rwa [show u.length - trailingPads u - 1 = u.length - 1 - trailingPads u by omega]

/-- The values of a string of characters, one by one. -/
theorem alphaValues_eq_some_iff (xs : List Byte) (vs : List (BitVec 5)) :
    alphaValues xs = some vs ↔
      vs.length = xs.length ∧ ∀ i, i < xs.length → alphaValue (xs.getD i 0) = some (vs.getD i 0) := by
  induction xs generalizing vs with
  | nil => cases vs <;> simp [alphaValues]
  | cons x xs ih =>
    unfold alphaValues
    constructor
    · intro h
      split at h
      · rename_i v vs' hv hvs
        cases h
        obtain ⟨h1, h2⟩ := (ih _).1 hvs
        refine ⟨by simp [h1], fun i hi => ?_⟩
        cases i with
        | zero => simpa using hv
        | succ i =>
          rw [List.getD_cons_succ, List.getD_cons_succ]
          exact h2 i (by simp at hi; omega)
      · cases h
    · rintro ⟨h1, h2⟩
      cases vs with
      | nil => simp at h1
      | cons v vs =>
        have hx := h2 0 (by simp)
        rw [List.getD_cons_zero, List.getD_cons_zero] at hx
        have := (ih vs).2 ⟨by simpa using h1, fun i hi => by
          have := h2 (i + 1) (by simp; omega)
          rwa [List.getD_cons_succ, List.getD_cons_succ] at this⟩
        rw [hx, this]

/-- The residue and pad rules of a text of length `m` with `p` trailing pads, together. -/
theorem padLegal_and_residue_iff (m p : Nat) (h : p ≤ m) :
    padLegal m p = true ∧ illegalResidue ((m - p) % 8) = false ↔
      ((m - p) % 8 ≠ 1 ∧ (m - p) % 8 ≠ 3 ∧ (m - p) % 8 ≠ 6) ∧ (p = 0 ∨ (m % 8 = 0 ∧ p < 8)) := by
  have h8 : (m - p) % 8 < 8 := Nat.mod_lt _ (by norm_num)
  simp only [padLegal, illegalResidue, padResidue]
  have : m % 8 = ((m - p) % 8 + p) % 8 := by omega
  rw [this]
  generalize (m - p) % 8 = r at *
  interval_cases r <;> simp [padCount] <;> omega

/-- A decoded byte string is the leading whole bytes of the values of the text's data characters, and the
text kept the pad and length rules. -/
theorem base32Decode_eq_some_iff (strict : Bool) (t b : List Byte) :
    base32Decode strict t = some b ↔
      padLegal t.length (trailingPads (t.map foldCase)) = true ∧
      illegalResidue ((t.length - trailingPads (t.map foldCase)) % 8) = false ∧
      ∃ vs, alphaValues ((t.map foldCase).take (t.length - trailingPads (t.map foldCase))) = some vs ∧
        (strict = true → tailClear vs = true) ∧
        b = regroup 8 vs (byteLengthOf (t.length - trailingPads (t.map foldCase))) := by
  unfold base32Decode
  simp only [List.length_map]
  cases padLegal t.length (trailingPads (t.map foldCase)) <;> simp
  cases alphaValues ((t.map foldCase).take (t.length - trailingPads (t.map foldCase))) with
  | none => simp
  | some vs =>
    simp
    cases illegalResidue ((t.length - trailingPads (t.map foldCase)) % 8) <;> simp
    cases strict <;> cases tailClear vs <;> simp [eq_comm]

theorem base32Decode_length_le {strict : Bool} {t b : List Byte}
    (h : base32Decode strict t = some b) (ht : t.length ≤ 128) : b.length ≤ 80 := by
  obtain ⟨_, _, vs, _, _, rfl⟩ := (base32Decode_eq_some_iff strict t b).1 h
  rw [regroup_length]
  unfold byteLengthOf
  omega

/-- Decoding sees a text only after folding. -/
theorem base32Decode_congr {t u : List Byte} (h : t.map foldCase = u.map foldCase) (strict : Bool) :
    base32Decode strict t = base32Decode strict u := by
  unfold base32Decode; rw [h]

end Sys2Proof.Machine
end

