-- ==== Sys2Proof/Laws/Bus.lean ====
section
/-!
SUPPORT. The bus: the register map as a chain of tests, which accesses it takes, and what a write, a read
and a step of the host can do.
-/

namespace Sys2Proof.Machine

/-! ### The map -/

theorem find?_cons_eq_ite {α : Type} {p : α → Bool} {x : α} {xs : List α} :
    List.find? p (x :: xs) = if p x = true then some x else xs.find? p := by
  cases h : p x <;> simp [h]

/-- The map as a chain of tests of the offset. -/
theorem locate_eq (a : Offset) : locate a =
    if a.toNat = 0x000 then .reg .cmd
    else if a.toNat = 0x004 then .reg .status
    else if a.toNat = 0x008 then .reg .cfg
    else if a.toNat = 0x00C then .reg .window
    else if a.toNat = 0x010 then .reg .keyLen
    else if a.toNat = 0x014 then .reg .txtLen
    else if a.toNat = 0x018 then .reg .subLen
    else if a.toNat = 0x020 then .reg .timeLo
    else if a.toNat = 0x024 then .reg .timeHi
    else if a.toNat = 0x028 then .reg .ctrLo
    else if a.toNat = 0x02C then .reg .ctrHi
    else if a.toNat = 0x030 then .reg .matchCtrLo
    else if a.toNat = 0x034 then .reg .matchCtrHi
    else if a.toNat = 0x038 then .reg .offset
    else if a.toNat = 0x03C then .reg .binary
    else if a.toNat = 0x040 then .reg .codeBin
    else if 0x048 ≤ a.toNat ∧ a.toNat < 0x050 then .buf .codeTxt ((a.toNat - 0x048) / 4)
    else if 0x050 ≤ a.toNat ∧ a.toNat < 0x058 then .buf .sub ((a.toNat - 0x050) / 4)
    else if 0x100 ≤ a.toNat ∧ a.toNat < 0x140 then .buf .dig ((a.toNat - 0x100) / 4)
    else if 0x140 ≤ a.toNat ∧ a.toNat < 0x190 then .buf .key ((a.toNat - 0x140) / 4)
    else if 0x200 ≤ a.toNat ∧ a.toNat < 0x280 then .buf .txt ((a.toNat - 0x200) / 4)
    else .reserved := by
  generalize hn : a.toNat = n
  unfold locate
  simp only [hn]
  clear hn
  by_cases h0 : n = 0x000
  · subst h0; rfl
  by_cases h1 : n = 0x004
  · subst h1; rfl
  by_cases h2 : n = 0x008
  · subst h2; rfl
  by_cases h3 : n = 0x00C
  · subst h3; rfl
  by_cases h4 : n = 0x010
  · subst h4; rfl
  by_cases h5 : n = 0x014
  · subst h5; rfl
  by_cases h6 : n = 0x018
  · subst h6; rfl
  by_cases h7 : n = 0x020
  · subst h7; rfl
  by_cases h8 : n = 0x024
  · subst h8; rfl
  by_cases h9 : n = 0x028
  · subst h9; rfl
  by_cases h10 : n = 0x02C
  · subst h10; rfl
  by_cases h11 : n = 0x030
  · subst h11; rfl
  by_cases h12 : n = 0x034
  · subst h12; rfl
  by_cases h13 : n = 0x038
  · subst h13; rfl
  by_cases h14 : n = 0x03C
  · subst h14; rfl
  by_cases h15 : n = 0x040
  · subst h15; rfl
  simp only [if_neg, *, not_false_eq_true]
  have hr : Reg.all.find? (fun r => r.addr == n) = none := by
    rw [List.find?_eq_none]; intro r _; cases r <;> simp [Reg.addr] <;> omega
  simp only [hr, Buf.all, find?_cons_eq_ite, List.find?_nil, Buf.covers, Buf.addr, Buf.size,
    Config.codeSize, Config.subSize, Config.digSize, Config.keyMax, Config.txtMax]
  norm_num
  repeat' split
  all_goals first | rfl | omega | simp_all

theorem locate_of_eq_addr (a : Offset) (r : Reg) (h : a.toNat = r.addr) : locate a = .reg r := by
  rw [locate_eq, h]; cases r <;> rfl

theorem addr_eq_of_locate {a : Offset} {r : Reg} (h : locate a = .reg r) : a.toNat = r.addr := by
  unfold locate at h
  split at h
  · rename_i r' hr
    cases h
    have := List.find?_some hr
    simp at this
    omega
  · split at h <;> simp at h

theorem eq_statusOffset_iff (a : Offset) : a = statusOffset ↔ a.toNat = 4 := by
  simp [statusOffset, BitVec.toNat_eq]

theorem busValue_statusOffset (o : OtpState) : busValue o statusOffset = statusWord o := by
  simp [busValue, show locate statusOffset = .reg .status by decide, readReg]

theorem busAccessLegal_iff (a : Offset) (w : Nat) :
    busAccessLegal a w = true ↔ a.toNat % 4 = 0 ∧ w = 4 := by
  simp [busAccessLegal, BitVec.toNat_eq]
  tauto

/-! ### Buffer words -/

theorem bufferWord_toNat {n : Nat} (v : Vector Byte n) (k : Nat) : (bufferWord v k).toNat =
    (bufferByte v (4 * k)).toNat + (bufferByte v (4 * k + 1)).toNat * 2 ^ 8 +
      (bufferByte v (4 * k + 2)).toNat * 2 ^ 16 + (bufferByte v (4 * k + 3)).toNat * 2 ^ 24 := by
  simp [bufferWord, wordOfLanes_toNat]

/-- A write of a word: its four bytes are the word's lanes, every other byte is as it was. -/
theorem bufferByte_setBufferWord {n : Nat} (v : Vector Byte n) (k : Nat) (w : Word) (i : Nat) :
    bufferByte (setBufferWord v k w) i =
      if i / 4 = k ∧ i < n then w.extractLsb' (8 * (i % 4)) 8 else bufferByte v i := by
  rw [setBufferWord, bufferByte_overlay]
  have hl : (lanesOfWord w).length = 4 := rfl
  rw [hl]
  by_cases hc : i / 4 = k ∧ i < n
  · rw [if_pos (by omega), if_pos hc]
    have : i - 4 * k = 0 ∨ i - 4 * k = 1 ∨ i - 4 * k = 2 ∨ i - 4 * k = 3 := by omega
    have h2 : i % 4 = i - 4 * k := by omega
    rw [h2]
    rcases this with h | h | h | h <;> rw [h] <;> rfl
  · rw [if_neg (by omega), if_neg hc]

/-! ### Writes and reads -/

/-- A write changes BUSYERR alone, or starts a command, or stores to one register or buffer word of an idle
block, or changes nothing. -/
theorem busWrite_cases (a : Offset) (v : Word) (o : OtpState) :
    (a = statusOffset ∧ busWrite a v o = statusWrite v o) ∨
    (a ≠ statusOffset ∧ o.busy = true ∧ busWrite a v o = statusDropped o) ∨
    (a ≠ statusOffset ∧ o.busy = false ∧
      ((∃ r, locate a = .reg r ∧ busWrite a v o = writeReg v o r) ∨
        (∃ b k, locate a = .buf b k ∧ busWrite a v o = writeBuf v o b k) ∨
        (locate a = .reserved ∧ busWrite a v o = o))) := by
  unfold busWrite
  by_cases ha : a = statusOffset
  · left; simp [ha]
  · right
    rw [if_neg ha]
    cases hb : o.busy
    · right
      refine ⟨ha, rfl, ?_⟩
      rw [if_neg (by simp)]
      cases hl : locate a with
      | reg r => left; exact ⟨r, rfl, rfl⟩
      | buf b k => right; left; exact ⟨b, k, rfl, rfl⟩
      | reserved => right; right; exact ⟨rfl, rfl⟩
    · left; exact ⟨ha, rfl, by rw [if_pos rfl]⟩

theorem busWrite_of_idle (a : Offset) (v : Word) (o : OtpState) (hb : o.busy = false)
    (h4 : a.toNat ≠ 4) :
    busWrite a v o = match locate a with
      | .reg r => writeReg v o r
      | .buf b k => writeBuf v o b k
      | .reserved => o :=
  (if_neg (by rw [eq_statusOffset_iff]; exact h4)).trans (if_neg (by simp [hb]))

/-- No write changes a result of a command. -/
theorem busWrite_results (a : Offset) (v : Word) (o : OtpState) :
    (busWrite a v o).offset = o.offset ∧ (busWrite a v o).binary = o.binary ∧
    (busWrite a v o).codeBin = o.codeBin ∧ (busWrite a v o).codeTxt = o.codeTxt ∧
    (busWrite a v o).matchCtr = o.matchCtr := by
  rcases busWrite_cases a v o with ⟨_, h⟩ | ⟨_, _, h⟩ | ⟨_, _, ⟨r, _, h⟩ | ⟨b, k, _, h⟩ | ⟨_, h⟩⟩ <;>
    rw [h]
  · simp [statusWrite_eq]
  · simp
  · cases r <;> simp [writeReg, statusWrite_eq]
  · cases b <;> simp [writeBuf]
  · simp

/-- A read leaves the block, the inputs and the turns. -/
theorem busRead_frame (a : Offset) (s : State) :
    busRead a s = { s with readData := (busRead a s).readData, draws := (busRead a s).draws } := by
  unfold busRead; split <;> rfl

/-! ### The host's step -/

/-- A step of the host writes, or leaves the block, or resets it. -/
theorem hostStep_cases {i : Input} {s t : State} (h : hostStep i s = .next t) :
    (∃ a v, i = .write a 4 v ∧ a.toNat % 4 = 0 ∧ t = { s with otp := busWrite a v s.otp }) ∨
    (∃ a, i = .read a 4 ∧ a.toNat % 4 = 0 ∧ t = busRead a s) ∨
    (i = .wait ∧ (t = busRead statusOffset s ∨
      t = { busRead statusOffset s with inputs := .wait :: s.inputs })) ∨
    (i = .reset ∧ t = resetBlock s) := by
  cases i with
  | write a w v =>
    simp only [hostStep] at h
    split at h
    · rename_i hl
      obtain ⟨h1, rfl⟩ := (busAccessLegal_iff a w).1 hl
      cases h
      exact .inl ⟨a, v, rfl, h1, rfl⟩
    · cases h
  | read a w =>
    simp only [hostStep] at h
    split at h
    · rename_i hl
      obtain ⟨h1, rfl⟩ := (busAccessLegal_iff a w).1 hl
      cases h
      exact .inr (.inl ⟨a, rfl, h1, rfl⟩)
    · cases h
  | wait =>
    refine .inr (.inr (.inl ⟨rfl, ?_⟩))
    have hi : (busRead statusOffset s).inputs = s.inputs := by rw [busRead_frame]
    simp only [hostStep, hi] at h
    split at h <;> cases h
    · exact .inr rfl
    · exact .inl rfl
  | reset =>
    simp only [hostStep] at h
    cases h
    exact .inr (.inr (.inr ⟨rfl, rfl⟩))

/-- A step of the host stops exactly on an access the interface does not have. -/
theorem hostStep_stops_iff (i : Input) (s : State) : (∃ t, hostStep i s = .next t) ↔ i.legal = true := by
  cases i with
  | write a w v => simp only [hostStep, Input.legal]; cases busAccessLegal a w <;> simp
  | read a w => simp only [hostStep, Input.legal]; cases busAccessLegal a w <;> simp
  | wait => simp only [hostStep, Input.legal]; split <;> simp
  | reset => simp [hostStep, Input.legal]

end Sys2Proof.Machine
end

