-- ==== Sys2Proof/Laws/PerInstr.lean ====
section
/-!
SUPPORT. The opcode map, command by command: what R80 to R82 say of each command's word.
-/

namespace Sys2Proof.Laws

/-- The word of a command is legal, has Z = 0 and the command's opcode, and that opcode names the command
in the map. -/
def OpcodeMap.Statement (i : Instr) : Prop :=
  commandWordLegal (encode i) = true ∧ zField (encode i) = 0 ∧ opField (encode i) = opcode i ∧
    decodeOp (opcode i) = some i ∧ i.wellFormed = true

theorem OpcodeMap.b32enc : OpcodeMap.Statement .b32enc := by unfold OpcodeMap.Statement; decide
theorem OpcodeMap.b32dec : OpcodeMap.Statement .b32dec := by unfold OpcodeMap.Statement; decide
theorem OpcodeMap.trunc : OpcodeMap.Statement .trunc := by unfold OpcodeMap.Statement; decide
theorem OpcodeMap.hotp : OpcodeMap.Statement .hotp := by unfold OpcodeMap.Statement; decide
theorem OpcodeMap.tdiv : OpcodeMap.Statement .tdiv := by unfold OpcodeMap.Statement; decide
theorem OpcodeMap.totp : OpcodeMap.Statement .totp := by unfold OpcodeMap.Statement; decide
theorem OpcodeMap.verify : OpcodeMap.Statement .verify := by unfold OpcodeMap.Statement; decide

end Sys2Proof.Laws
end

