-- ==== Sys2Proof/Laws/Truncation.lean ====
section
/-!
SUPPORT. Truncation as arithmetic, the operand checks of HOTP and TOTP, and the divider.
-/

namespace Sys2Proof.Machine

theorem dynamicOffset_toNat (h : List Byte) :
    (dynamicOffset h).toNat = (h.getD (h.length - 1) 0).toNat % 16 := by
  unfold dynamicOffset
  rw [extractLsb'_toNat_eq_div_mod]
  omega

theorem extractBinary_toNat (h : List Byte) (i : Nat) :
    (extractBinary h i).toNat =
      (h.getD i 0).toNat % 128 * 2 ^ 24 + (h.getD (i + 1) 0).toNat * 2 ^ 16 +
        (h.getD (i + 2) 0).toNat * 2 ^ 8 + (h.getD (i + 3) 0).toNat := by
  unfold extractBinary
  simp only [append_toNat_eq_mul_add, extractLsb'_toNat_eq_div_mod]
  omega

theorem decDigit_lt (n k j : Nat) : decDigit n k j < 10 := Nat.mod_lt _ (by norm_num)

/-- Byte `j` of a decimal text. -/
theorem bufferByte_decText (n k j : Nat) :
    (bufferByte (decText n k) j).toNat =
      if j < n ∧ j < 8 then 0x30 + decDigit n k j else 0 := by
  by_cases h : j < 8
  · rw [bufferByte_of_lt _ _ h]
    have := decDigit_lt n k j
    by_cases hj : j < n
    · simp [decText, hj, h]
      omega
    · simp [decText, hj]
  · rw [bufferByte_of_ge _ _ (by omega)]
    simp [h]

theorem ten_pow_le {n : Nat} (h : n ≤ 8) : 10 ^ n ≤ 100000000 :=
  (Nat.pow_le_pow_right (by norm_num) h).trans (by norm_num)

/-- A code of at most 8 digits fits CODE_BIN. -/
theorem truncate_codeBin_toNat (h : List Byte) {n : Nat} (hn : n ≤ 8) :
    (truncate h n).codeBin.toNat = (truncate h n).binary.toNat % 10 ^ n := by
  have h10 := ten_pow_le hn
  have hlt : (truncate h n).binary.toNat % 10 ^ n < 10 ^ n := Nat.mod_lt _ (by positivity)
  simp only [truncate, pow10, BitVec.toNat_ofNat] at *
  omega

@[simp] theorem be64_length (c : Dword) : (be64 c).length = 8 := rfl

@[simp] theorem genCode_digest_length (p : Config.Params) (alg : HashAlg) (key : List Byte)
    (c : Dword) (n : Nat) : (genCode p alg key c n).1.length = alg.digestLen := by
  unfold genCode; simp

/-- The checks HOTP and TOTP share pass exactly on these operands. -/
theorem codeOperands_eq_ok_iff {o : OtpState} {alg : HashAlg} :
    codeOperands o = .ok alg ↔
      o.keyLen.toNat ≤ 80 ∧ hashAlgorithm o = some alg ∧ digitsLegal (codeDigits o) = true ∧
        o.keyLen.toNat ≠ 0 := by
  unfold codeOperands
  by_cases hk : keyTooLong o = true
  · have := keyTooLong_iff.1 hk
    simp [hk]; omega
  · have h80 : ¬ 80 < o.keyLen.toNat := by rwa [← keyTooLong_iff]
    rw [if_neg hk]
    cases hashAlgorithm o with
    | none => simp
    | some a =>
      cases hd : digitsLegal (codeDigits o) with
      | false => simp
      | true =>
        by_cases h0 : keyLength o = 0
        · have : o.keyLen.toNat = 0 := h0
          simp [h0, this]
        · have : o.keyLen.toNat ≠ 0 := h0
          simp [h0, this]
          intro _
          omega

/-- Generating a code writes DIG and the code registers and nothing else. -/
theorem writeGenerated_frame (p : Config.Params) (alg : HashAlg) (c : Dword) (o : OtpState) :
    writeGenerated p alg c o =
      { o with
        dig := (writeGenerated p alg c o).dig
        offset := (writeGenerated p alg c o).offset
        binary := (writeGenerated p alg c o).binary
        codeBin := (writeGenerated p alg c o).codeBin
        codeTxt := (writeGenerated p alg c o).codeTxt } := by
  simp only [writeGenerated, writeCode, writeDigest]

/-- With T0 = 0 the divider never fails. -/
theorem counterOf_params (t : Dword) :
    counterOf Config.params t = .ok (BitVec.ofNat 64 (t.toNat / 30)) := by
  simp [counterOf, Config.params]

end Sys2Proof.Machine
end

