-- ==== Sys2Proof/Laws/Verify.lean ====
section
/-!
SUPPORT. The candidates of the window and the first match among them.
-/

namespace Sys2Proof.Machine

/-- A list of pairs, flattened: its length, and both members of each pair. -/
theorem flattened_pairs (f g : Nat → Dword) (w : Nat) :
    ((List.range w).flatMap fun i => [f i, g i]).length = 2 * w ∧
    ∀ i, i < w → ((List.range w).flatMap fun i => [f i, g i])[2 * i]? = some (f i) ∧
      ((List.range w).flatMap fun i => [f i, g i])[2 * i + 1]? = some (g i) := by
  induction w with
  | zero => simp
  | succ w ih =>
    rw [List.range_succ, List.flatMap_append]
    obtain ⟨hl, hi⟩ := ih
    refine ⟨by rw [List.length_append, hl]; simp; omega, fun i h => ?_⟩
    by_cases hw : i < w
    · rw [List.getElem?_append_left (by omega), List.getElem?_append_left (by omega)]
      exact hi i hw
    · have : i = w := by omega
      subst this
      rw [List.getElem?_append_right (by omega), List.getElem?_append_right (by omega), hl]
      simp

theorem candidates_length (cur : Dword) (w : Nat) : (candidates cur w).length = 2 * w + 1 := by
  unfold candidates
  rw [List.length_cons, (flattened_pairs _ _ w).1]

/-- A match is found exactly when one of the candidates matches. -/
theorem firstMatch_isSome_iff (p : Config.Params) (key : List Byte) (cur : Dword) (o : OtpState) :
    (firstMatch p key cur o).isSome = true ↔
      ∃ c ∈ candidates cur (windowOffset o), candidateMatches p key o c = true := by
  unfold firstMatch
  rw [List.find?_isSome]

/-- The match found is the first in the candidates' order. -/
theorem firstMatch_eq_some_iff (p : Config.Params) (key : List Byte) (cur c : Dword)
    (o : OtpState) :
    firstMatch p key cur o = some c ↔
      candidateMatches p key o c = true ∧
      ∃ (i : Nat) (h : i < (candidates cur (windowOffset o)).length),
        (candidates cur (windowOffset o))[i] = c ∧
        ∀ (j : Nat) (hj : j < i),
          (!candidateMatches p key o ((candidates cur (windowOffset o))[j]'(by omega))) = true := by
  unfold firstMatch
  rw [List.find?_eq_some_iff_getElem]

/-- What VERIFY computes when it raises no error. -/
theorem verifyCmd_eq_ok_iff {o w : OtpState} {hit : Bool} :
    verifyCmd Config.params o = .ok (w, hit) ↔
      textTooLong o = false ∧ ∃ key, base32Decode false (textBytes o) = some key ∧ key.length ≠ 0 ∧
        w = writeMatch (firstMatch Config.params key (BitVec.ofNat 64 (o.time.toNat / 30)) o)
          (writeKey key { o with ctr := BitVec.ofNat 64 (o.time.toNat / 30) }) ∧
        hit = (firstMatch Config.params key (BitVec.ofNat 64 (o.time.toNat / 30)) o).isSome := by
  unfold verifyCmd
  rw [counterOf_params, show Config.params.strictTail = false from rfl]
  cases textTooLong o <;> simp
  cases base32Decode false (textBytes o) with
  | none => simp
  | some key =>
    by_cases h : key = []
    · simp [h]
    · simp [h, eq_comm]

end Sys2Proof.Machine
end

