-- ==== Sys2Proof/Laws/Step.lean ====
section
/-!
SUPPORT. What `exec` and `step` can do, said once: later proofs cite these and unfold neither.
-/

namespace Sys2Proof.Machine

/-! ### The code word -/

theorem encode_toNat (i : Instr) : (encode i).toNat = (opcode i).toNat := by cases i <;> decide

theorem decode_encode (i : Instr) : decode (encode i) = .ok i := by cases i <;> decide

/-! ### The commands -/

/-- What each command computes from the block it takes. -/
def resultOf (i : Instr) (o : OtpState) : CmdResult :=
  match i with
  | .b32enc => b32encCmd o
  | .b32dec => b32decCmd Config.params o
  | .trunc => truncCmd o
  | .hotp => hotpCmd Config.params o
  | .tdiv => tdivCmd Config.params o
  | .totp => totpCmd Config.params o
  | .verify => verifyCmd Config.params o

/-- Every command answers a next state: its result committed. -/
theorem exec_eq (i : Instr) (s : State) :
    exec i s = .next { s with otp := commit s.otp (resultOf i s.otp) } := by
  cases i <;> rfl

/-- A command either raises one error, and STATUS alone changes, or succeeds with its result. -/
theorem exec_cases {i : Instr} {s t : State} (h : exec i s = .next t) :
    (∃ e, resultOf i s.otp = .error e ∧ t = { s with otp := raiseError e s.otp }) ∨
    (∃ w hit, resultOf i s.otp = .ok (w, hit) ∧ t = { s with otp := statusSucceed hit w }) := by
  rw [exec_eq] at h
  cases hr : resultOf i s.otp with
  | error e =>
    rw [hr] at h
    cases h
    exact .inl ⟨e, rfl, rfl⟩
  | ok p =>
    obtain ⟨w, hit⟩ := p
    rw [hr] at h
    cases h
    exact .inr ⟨w, hit, rfl, rfl⟩

theorem b32encCmd_cases {o w : OtpState} {hit : Bool} (h : b32encCmd o = .ok (w, hit)) :
    hit = false ∧ keyTooLong o = false ∧
    w = { o with txt := overlay o.txt 0 (base32Encode o.pad (keyBytes o)),
                 txtLen := BitVec.ofNat 8 (base32Encode o.pad (keyBytes o)).length } := by
  unfold b32encCmd at h
  cases hk : keyTooLong o <;> rw [hk] at h <;> cases h
  exact ⟨rfl, rfl, rfl⟩

theorem b32decCmd_cases {o w : OtpState} {hit : Bool}
    (h : b32decCmd Config.params o = .ok (w, hit)) :
    hit = false ∧ textTooLong o = false ∧
    ∃ b, base32Decode false (textBytes o) = some b ∧ w = writeKey b o := by
  unfold b32decCmd at h
  cases hk : textTooLong o <;> rw [hk] at h
  · simp only [Bool.false_eq_true, if_false] at h
    split at h <;> cases h
    rename_i b hb
    exact ⟨rfl, rfl, b, hb, rfl⟩
  · cases h

theorem truncCmd_cases {o w : OtpState} {hit : Bool} (h : truncCmd o = .ok (w, hit)) :
    hit = false ∧ digitsLegal (codeDigits o) = true ∧
    ∃ alg, hashAlgorithm o = some alg ∧
      w = writeCode (truncate (digestBytes alg o) (codeDigits o)) o := by
  unfold truncCmd at h
  split at h
  · cases h
  · rename_i alg ha
    split at h <;> cases h
    exact ⟨rfl, by assumption, alg, ha, rfl⟩

theorem hotpCmd_cases {o w : OtpState} {hit : Bool}
    (h : hotpCmd Config.params o = .ok (w, hit)) :
    hit = false ∧ ∃ alg, codeOperands o = .ok alg ∧
      w = writeGenerated Config.params alg o.ctr o := by
  unfold hotpCmd at h
  split at h <;> cases h
  rename_i alg ha
  exact ⟨rfl, alg, ha, rfl⟩

theorem tdivCmd_eq (o : OtpState) : tdivCmd Config.params o =
    .ok ({ o with ctr := BitVec.ofNat 64 (o.time.toNat / 30) }, false) := by
  unfold tdivCmd
  rw [counterOf_params]

theorem totpCmd_cases {o w : OtpState} {hit : Bool}
    (h : totpCmd Config.params o = .ok (w, hit)) :
    hit = false ∧ ∃ alg, codeOperands o = .ok alg ∧
      w = writeGenerated Config.params alg (BitVec.ofNat 64 (o.time.toNat / 30))
        { o with ctr := BitVec.ofNat 64 (o.time.toNat / 30) } := by
  unfold totpCmd at h
  rw [counterOf_params] at h
  split at h <;> cases h
  rename_i alg ha
  exact ⟨rfl, alg, ha, rfl⟩

/-! ### The step -/

/-- A step is one of four: the engine passes, the engine executes, the host passes, the host acts. -/
theorem step_cases {s t : State} (h : step s = .next t) :
    (nextAgent s = .engine ∧ s.otp.busy = false ∧ t = takeTurn s) ∨
    (nextAgent s = .engine ∧ s.otp.busy = true ∧ engineStep (takeTurn s) = .next t) ∨
    (nextAgent s = .host ∧ s.inputs = [] ∧ t = takeTurn s) ∨
    (∃ i rest, nextAgent s = .host ∧ s.inputs = i :: rest ∧
      hostStep i { takeTurn s with inputs := rest } = .next t) := by
  unfold step at h
  cases hn : nextAgent s <;> simp only [hn] at h
  · unfold hostTurn at h
    cases hi : s.inputs with
    | nil =>
      simp only [takeTurn_inputs, hi] at h
      cases h
      exact .inr (.inr (.inl ⟨rfl, rfl, rfl⟩))
    | cons i rest =>
      simp only [takeTurn_inputs, hi] at h
      exact .inr (.inr (.inr ⟨i, rest, rfl, rfl, h⟩))
  · unfold engineTurn at h
    cases hb : s.otp.busy <;> simp only [takeTurn_otp, hb] at h
    · cases h
      exact .inl ⟨rfl, rfl, rfl⟩
    · exact .inr (.inl ⟨rfl, rfl, h⟩)

/-- The engine completes an illegal word with BadCommand and executes any other. -/
theorem engineStep_cases {s t : State} (h : engineStep s = .next t) :
    ((∃ e, decode s.otp.pending = .error e) ∧ t = { s with otp := raiseError .badCommand s.otp }) ∨
    ∃ i, decode s.otp.pending = .ok i ∧ exec i s = .next t := by
  unfold engineStep at h
  split at h
  · rename_i i hi
    exact .inr ⟨i, hi, h⟩
  · rename_i e he
    cases h
    exact .inl ⟨⟨e, he⟩, rfl⟩

/-- The engine's step always answers a next state and changes nothing outside the block. -/
theorem engineStep_next (s : State) : ∃ o, engineStep s = .next { s with otp := o } := by
  unfold engineStep
  split
  · rw [exec_eq]
    exact ⟨_, rfl⟩
  · exact ⟨_, rfl⟩

/-- A step of a machine's run, unrolled. -/
theorem run_succ_of_step (M : Host.Core) {s t : M.State} {k : Nat} (h : M.step s = .next t) :
    M.run (k + 1) s = M.run k t := by
  rw [Host.Core.run, h]

end Sys2Proof.Machine
end

