-- ==== Sys2Proof/Tests/Slice0.lean ====
section
/-!
SUPPORT. The tests, and the witnesses of the statements' hypotheses. Expected results come from
95_test_vectors.md, whose row is named at each test, or from the rule named.
-/

namespace Sys2Proof.Tests

open Sys2Proof.Machine Sys2Proof.Claims

/-! ### Small states -/

/-- Byte strings from numbers. -/
def bytes (xs : List Nat) : List Byte := xs.map (BitVec.ofNat 8)

/-- The ASCII decimal digits of a code. -/
def digitBytes (xs : List Nat) : List Byte := xs.map fun d => BitVec.ofNat 8 (0x30 + d)

/-- The machine with that block, nothing to do and no turns. -/
def stateOf (o : OtpState) : State := { State.reset with otp := o }

/-- A block with a secret in KEY. -/
def keyBlock (key : List Byte) : OtpState :=
  { OtpState.reset with key := overlay OtpState.reset.key 0 key, keyLen := BitVec.ofNat 7 key.length }

/-- A block with a text in TXT. -/
def textBlock (text : List Byte) : OtpState :=
  { OtpState.reset with
    txt := overlay OtpState.reset.txt 0 text, txtLen := BitVec.ofNat 8 text.length }

/-- A block with a digest in DIG. -/
def digestBlock (dig : List Byte) : OtpState :=
  { OtpState.reset with dig := overlay OtpState.reset.dig 0 dig }

/-- The block after an outcome. -/
def blockOf (r : Host.Outcome State Fault Refusal) : OtpState :=
  match r with
  | .next t => t.otp
  | .fault _ => OtpState.reset
  | .refused _ => OtpState.reset

/-- "12345678901234567890", the key K20. -/
def k20 : List Byte := digitBytes [1, 2, 3, 4, 5, 6, 7, 8, 9, 0, 1, 2, 3, 4, 5, 6, 7, 8, 9, 0]

/-- "GEZDGNBVGY3TQOJQGEZDGNBVGY3TQOJQ", the text T32 of K20. -/
def t32 : List Byte := bytes
  [0x47, 0x45, 0x5A, 0x44, 0x47, 0x4E, 0x42, 0x56, 0x47, 0x59, 0x33, 0x54, 0x51, 0x4F, 0x4A, 0x51,
   0x47, 0x45, 0x5A, 0x44, 0x47, 0x4E, 0x42, 0x56, 0x47, 0x59, 0x33, 0x54, 0x51, 0x4F, 0x4A, 0x51]

/-- "MY======", the padded text of the one byte 0x66. -/
def textF : List Byte := bytes [0x4D, 0x59, 0x3D, 0x3D, 0x3D, 0x3D, 0x3D, 0x3D]

/-- The HMAC-SHA-1 digests of K20 for the counters 0 and 1 (V-H1, V-H2); other messages give zeros. -/
def testDigest (msg : List Byte) : List Byte :=
  if msg = bytes [0, 0, 0, 0, 0, 0, 0, 0] then
    bytes [0xcc, 0x93, 0xcf, 0x18, 0x50, 0x8d, 0x94, 0x93, 0x4c, 0x64,
           0xb6, 0x5d, 0x8b, 0xa7, 0x66, 0x7f, 0xb7, 0xcd, 0xe4, 0xb0]
  else if msg = bytes [0, 0, 0, 0, 0, 0, 0, 1] then
    bytes [0x75, 0xa4, 0x8a, 0x19, 0xd4, 0xcb, 0xe1, 0x00, 0x64, 0x4e,
           0x8a, 0xc1, 0x39, 0x7e, 0xea, 0x74, 0x7a, 0x2d, 0x33, 0xab]
  else []

/-- This block's parameters with that table in the HMAC port. -/
def testParams : Config.Params :=
  { Config.params with hmac := fun _ _ msg => Vector.ofFn fun i => (testDigest msg).getD i 0 }

/-! ### The code word, and what is not well-formed -/

/-- The words of R81, bit by bit: Z is 28 zeros, OP the opcode. -/
theorem test_decode_every_command :
    decode 0b00000000000000000000000000000001#32 = .ok .b32enc ∧
    decode 0b00000000000000000000000000000010#32 = .ok .b32dec ∧
    decode 0b00000000000000000000000000000011#32 = .ok .trunc ∧
    decode 0b00000000000000000000000000000100#32 = .ok .hotp ∧
    decode 0b00000000000000000000000000000101#32 = .ok .tdiv ∧
    decode 0b00000000000000000000000000000110#32 = .ok .totp ∧
    decode 0b00000000000000000000000000000111#32 = .ok .verify := by decide

theorem test_decodeTableWord : decodeTableWord 32 7 = some .verify ∧ decodeTableWord 32 8 = none ∧
    decodeTableWord 32 0 = none ∧ decodeTableWord 32 0x10000001 = none := by decide

/-- Each part of the check on a command word refuses (R82). -/
theorem test_wellFormed_refuses_words : commandWordLegal 0x00000000#32 = false ∧
    commandWordLegal 0x00000008#32 = false ∧ commandWordLegal 0x0000000F#32 = false ∧
    commandWordLegal 0x00000011#32 = false ∧ commandWordLegal 0x80000001#32 = false ∧
    commandWordLegal 0x00000001#32 = true ∧ commandWordLegal 0x00000007#32 = true := by decide

/-- Each part of the check on an access refuses (R65). -/
theorem test_wellFormed_refuses_accesses : busAccessLegal 0x001#12 4 = false ∧
    busAccessLegal 0x002#12 4 = false ∧ busAccessLegal 0x007#12 4 = false ∧
    busAccessLegal 0x004#12 1 = false ∧ busAccessLegal 0x004#12 8 = false ∧
    busAccessLegal 0xFFC#12 4 = true := by decide

/-- The constraints among the parameters: TXT_MAX holds the longest text, the buffers are whole words, the
largest digest fits DIG and the largest offset leaves four bytes of the smallest (R8). -/
theorem test_config : 1 ≤ Config.params.stepSeconds ∧
    Config.txtMax * 5 / 8 ≤ Config.keyMax ∧ 8 * ((Config.keyMax + 4) / 5) ≤ Config.txtMax ∧
    Config.digSize = HashAlg.sha512.digestLen ∧
    15 + 4 ≤ HashAlg.sha1.digestLen ∧ Config.digitsMax ≤ Config.codeSize ∧
    Config.verifyDigits ≤ Config.subSize := by decide

/-! ### The commands -/

/-- V-B2, PAD = 1. -/
theorem test_b32enc_padded :
    (let o := blockOf (exec .b32enc (stateOf { keyBlock (bytes [0x66]) with pad := true }))
     o.txtLen = 8 ∧ o.txt.toList.take 8 = textF ∧ statusWord o = 0x00000002#32) := by
  decide +kernel

/-- V-B11: a length the buffer cannot hold. -/
theorem test_b32enc_length_range :
    (let o := blockOf (exec .b32enc (stateOf { OtpState.reset with keyLen := 81 }))
     o.txtLen = 0 ∧ statusWord o = 0x00000066#32) := by
  decide +kernel

/-- V-B20: lower case, "mzxw6ytboi======". -/
theorem test_b32dec_foobar :
    (let o := blockOf (exec .b32dec (stateOf (textBlock (bytes
      [0x6D, 0x7A, 0x78, 0x77, 0x36, 0x79, 0x74, 0x62, 0x6F, 0x69,
       0x3D, 0x3D, 0x3D, 0x3D, 0x3D, 0x3D]))))
     o.keyLen = 6 ∧ o.key.toList.take 7 = bytes [0x66, 0x6F, 0x6F, 0x62, 0x61, 0x72, 0x00] ∧
       statusWord o = 0x00000002#32) := by
  decide +kernel

/-- V-B29: "MZXQ==", a pad that does not reach a multiple of 8. -/
theorem test_b32dec_short_pad :
    (let o := blockOf (exec .b32dec (stateOf (textBlock (bytes
      [0x4D, 0x5A, 0x58, 0x51, 0x3D, 0x3D]))))
     o.keyLen = 0 ∧ statusWord o = 0x00000016#32) := by
  decide +kernel

/-- V-T6: OFFSET 10, the top bit of DIG[10] masked, "000042". -/
theorem test_trunc_masks_and_pads :
    (let o := blockOf (exec .trunc (stateOf (digestBlock (bytes
      [0, 0, 0, 0, 0, 0, 0, 0, 0, 0, 0x80, 0x00, 0x00, 0x2A, 0, 0, 0, 0, 0, 0x0A]))))
     o.offset = 10 ∧ o.binary = 0x2A ∧ o.codeBin = 42 ∧
       o.codeTxt.toList = digitBytes [0, 0, 0, 0, 4, 2] ++ [0, 0]) := by
  decide +kernel

/-- V-T10: SHA-512 and 8 digits take the last of 64 bytes. -/
theorem test_trunc_sha512 :
    (let o := blockOf (exec .trunc (stateOf
      { digestBlock (bytes (List.range 64)) with alg := 2, digits := 8 }))
     o.offset = 15 ∧ o.binary = 0x0F101112 ∧ o.codeTxt.toList = digitBytes [5, 2, 7, 1, 1, 1, 8, 6]) := by
  decide +kernel

/-- V-S1, with the digest of V-H1 in the HMAC port. -/
theorem test_hotp_counter_zero :
    (match hotpCmd testParams (keyBlock k20) with
     | .ok (o, hit) =>
       decide (o.codeTxt.toList = digitBytes [7, 5, 5, 2, 2, 4] ++ [0, 0] ∧ o.codeBin = 755224 ∧
         o.dig.toList.take 20 = testDigest (be64 0) ∧ o.ctr = 0 ∧ hit = false)
     | .error _ => false) = true := by
  decide +kernel

/-- V-H18: the digit count is reported before the empty secret. -/
theorem test_hotp_error_order :
    statusWord (blockOf (exec .hotp (stateOf { OtpState.reset with digits := 9 })))
      = 0x00000036#32 := by
  decide +kernel

/-- V-C7. -/
theorem test_tdiv_rfc_time :
    (blockOf (exec .tdiv (stateOf { OtpState.reset with time := 1111111109 }))).ctr = 0x23523EC := by
  decide +kernel

/-- V-C12: the largest time. -/
theorem test_tdiv_largest :
    (blockOf (exec .tdiv (stateOf { OtpState.reset with time := 0xFFFFFFFFFFFFFFFF }))).ctr
      = 0x0888888888888888 := by
  decide +kernel

/-- V-P1: the code of counter 1 with 8 digits. -/
theorem test_totp_rfc_time :
    (match totpCmd testParams { keyBlock k20 with time := 59, digits := 8 } with
     | .ok (o, _) =>
       decide (o.codeTxt.toList = digitBytes [9, 4, 2, 8, 7, 0, 8, 2] ∧ o.ctr = 1 ∧ o.offset = 11)
     | .error _ => false) = true := by
  decide +kernel

/-- V-P20: an empty secret leaves CTR. -/
theorem test_totp_empty_secret :
    (let o := blockOf (exec .totp (stateOf { OtpState.reset with time := 59, digits := 8 }))
     o.ctr = 0 ∧ statusWord o = 0x00000046#32) := by
  decide +kernel

/-- V-V4: "287082" is the code of the step before the current one. -/
theorem test_verify_window :
    (match verifyCmd testParams { textBlock t32 with
        time := 89, window := 1, subLen := 6
        sub := overlay OtpState.reset.sub 0 (digitBytes [2, 8, 7, 0, 8, 2]) } with
     | .ok (o, hit) =>
       decide (hit = true ∧ o.matchCtr = 1 ∧ o.ctr = 2 ∧ o.keyLen = 20 ∧ o.key.toList.take 20 = k20)
     | .error _ => false) = true := by
  decide +kernel

/-- V-V21: "========" is no secret. -/
theorem test_verify_invalid_secret :
    (let o := blockOf (exec .verify (stateOf (textBlock (bytes
      [0x3D, 0x3D, 0x3D, 0x3D, 0x3D, 0x3D, 0x3D, 0x3D]))))
     o.ctr = 0 ∧ o.keyLen = 0 ∧ statusWord o = 0x00000016#32) := by
  decide +kernel

/-- T0 = 100 (42_time_counter.md, the note under V-C12): 99 is before the epoch, 100 is counter 0. -/
theorem test_epoch :
    (match counterOf { Config.params with t0 := 100 } 99 with
     | .error e => decide (e = .timeBeforeEpoch)
     | .ok _ => false) = true ∧
    (match counterOf { Config.params with t0 := 100 } 100 with
     | .ok c => decide (c = 0)
     | .error _ => false) = true := by
  decide +kernel

/-- V-B16 and V-B15 under B32_STRICT_TAIL = true: "MZ" has a tail bit, "MY" has none. -/
theorem test_strict_tail :
    base32Decode true (bytes [0x4D, 0x5A]) = none ∧
    base32Decode true (bytes [0x4D, 0x59]) = some (bytes [0x66]) := by
  decide +kernel

/-! ### The bus and the step -/

/-- The bytes of a buffer word and the fields of CFG on the bus (R27, R62). -/
theorem test_bus_lanes :
    (busValue (keyBlock (bytes [0x11, 0x22, 0x33, 0x44, 0x55])) 0x140#12 = 0x44332211#32) ∧
    (busValue (keyBlock (bytes [0x11, 0x22, 0x33, 0x44, 0x55])) 0x144#12 = 0x00000055#32) ∧
    (busValue { OtpState.reset with pad := true, alg := 2, digits := 8 } 0x008#12 = 0x128#32) := by
  decide +kernel

/-- A dropped write sets BUSYERR and nothing else; bit 8 of a STATUS write clears it (R240, R26). -/
theorem test_busyerr :
    (let o := busWrite 0x020#12 5 (acceptCommand 5 OtpState.reset)
     o.time = 0 ∧ statusWord o = 0x00000101#32 ∧
       statusWord (busWrite 0x004#12 0x100#32 o) = 0x00000001#32) := by
  decide +kernel

/-- The step runs the word that `withFetchWord` places, from reset. -/
theorem test_withFetchWord :
    (blockOf (step (State.reset.withFetchWord 32 5))).done = true ∧
    statusWord (blockOf (step (State.reset.withFetchWord 32 4))) = 0x00000046#32 ∧
    statusWord (blockOf (step (State.reset.withFetchWord 32 9))) = 0x00000056#32 := by
  decide +kernel

/-! ### Witnesses: states and operands that meet a statement's hypotheses, clause by clause -/

/-- The host is about to do `i` to the block `o`. -/
def hostState (o : OtpState) (i : Input) : State := { stateOf o with inputs := [i] }

/-- A block with a command pending. -/
def busyBlock (w : Word) : OtpState := acceptCommand w OtpState.reset

theorem hostSteps_hostState {o : OtpState} {i : Input} (h : o.busy = false) :
    HostSteps (hostState o i) i [] := by
  refine ⟨?_, rfl⟩
  unfold nextAgent hostState stateOf State.reset
  simp [h]

theorem engineSteps_busyBlock (w : Word) : EngineSteps (stateOf (busyBlock w)) := ⟨rfl, rfl⟩

/-- The host's turn comes first by the list of turns although a command is pending. -/
def racingState (w : Word) (i : Input) : State :=
  { hostState (busyBlock w) i with turns := [.host] }

theorem hostSteps_racingState (w : Word) (i : Input) : HostSteps (racingState w i) i [] := ⟨rfl, rfl⟩

theorem witness_decode_encode : decode 7#32 = .ok .verify ∧ (7#32 : Word) = encode .verify := by decide

/-- The illegal words nearest the legal ones, accepted and executed. -/
theorem witness_illegal_words :
    ((8 : Word).toNat % 16 = 0 ∨ 8 ≤ (8 : Word).toNat % 16 ∨ (8 : Word).toNat / 16 ≠ 0) ∧
    ((0 : Word).toNat % 16 = 0 ∨ 8 ≤ (0 : Word).toNat % 16 ∨ (0 : Word).toNat / 16 ≠ 0) ∧
    ((17 : Word).toNat % 16 = 0 ∨ 8 ≤ (17 : Word).toNat % 16 ∨ (17 : Word).toNat / 16 ≠ 0) ∧
    HostSteps (hostState OtpState.reset (.write 0x000#12 4 8)) (.write 0x000#12 4 8) [] ∧
    EngineSteps (stateOf (busyBlock 8)) ∧ (stateOf (busyBlock 8)).otp.pending = 8 :=
  ⟨by decide, by decide, by decide, hostSteps_hostState rfl, engineSteps_busyBlock 8, rfl⟩

theorem witness_legal_words :
    ¬ ((1 : Word).toNat % 16 = 0 ∨ 8 ≤ (1 : Word).toNat % 16 ∨ (1 : Word).toNat / 16 ≠ 0) ∧
    ¬ ((7 : Word).toNat % 16 = 0 ∨ 8 ≤ (7 : Word).toNat % 16 ∨ (7 : Word).toNat / 16 ≠ 0) := by
  decide

/-- Each of the four kinds of step. -/
theorem witness_step_kinds :
    (EngineSteps (stateOf (busyBlock 5)) ∧ decode (stateOf (busyBlock 5)).otp.pending = .ok .tdiv) ∧
    HostSteps (hostState OtpState.reset .wait) .wait [] ∧
    (nextAgent { State.reset with turns := [.engine] } = .engine ∧ State.reset.otp.busy = false) ∧
    (nextAgent State.reset = .host ∧ State.reset.inputs = []) :=
  ⟨⟨engineSteps_busyBlock 5, by decide⟩, hostSteps_hostState rfl, ⟨rfl, rfl⟩, rfl, rfl⟩

/-- A stop, and a step that is none. -/
theorem witness_stop :
    step (hostState OtpState.reset (.read 0x006#12 4)) = .fault (.accessOutsideInterface 0x006#12 4) ∧
    step (hostState OtpState.reset (.read 0x004#12 2)) = .fault (.accessOutsideInterface 0x004#12 2) ∧
    ∃ t, step (hostState OtpState.reset (.read 0x004#12 4)) = .next t := ⟨rfl, rfl, _, rfl⟩

theorem witness_cmd_write :
    HostSteps (hostState OtpState.reset (.write 0x000#12 4 0xFFFFFFFF)) (.write 0x000#12 4 0xFFFFFFFF) []
    ∧ OtpState.reset.busy = false := ⟨hostSteps_hostState rfl, rfl⟩

/-- While BUSY = 1: a write next to STATUS on either side, and one to STATUS. -/
theorem witness_busy_write :
    (HostSteps (racingState 5 (.write 0x000#12 4 1)) (.write 0x000#12 4 1) [] ∧
      (racingState 5 (.write 0x000#12 4 1)).otp.busy = true) ∧
    (HostSteps (racingState 5 (.write 0x008#12 4 1)) (.write 0x008#12 4 1) [] ∧
      (0x008#12 : Offset).toNat % 4 = 0) ∧
    HostSteps (racingState 5 (.write 0x004#12 4 0x100)) (.write 0x004#12 4 0x100) [] :=
  ⟨⟨hostSteps_racingState _ _, rfl⟩, ⟨hostSteps_racingState _ _, rfl⟩, hostSteps_racingState _ _⟩

/-- Idle, the first and the last offset; busy, STATUS. -/
theorem witness_reads :
    HostSteps (hostState OtpState.reset (.read 0x000#12 4)) (.read 0x000#12 4) [] ∧
    HostSteps (hostState OtpState.reset (.read 0xFFC#12 4)) (.read 0xFFC#12 4) [] ∧
    HostSteps (racingState 5 (.read 0x004#12 4)) (.read 0x004#12 4) [] ∧
    (0xFFC#12 : Offset).toNat % 4 = 0 :=
  ⟨hostSteps_hostState rfl, hostSteps_hostState rfl, hostSteps_racingState _ _, rfl⟩

theorem witness_busy_reads :
    HostSteps (racingState 5 (.read 0x028#12 4)) (.read 0x028#12 4) [] ∧
    HostSteps (racingState 5 (.read 0x004#12 4)) (.read 0x004#12 4) [] ∧
    (racingState 5 (.read 0x028#12 4)).otp.busy = true :=
  ⟨hostSteps_racingState _ _, hostSteps_racingState _ _, rfl⟩

/-- A writable, a read-only and a reserved offset. -/
theorem witness_idle_writes :
    (HostSteps (hostState OtpState.reset (.write 0x008#12 4 0x137)) (.write 0x008#12 4 0x137) [] ∧
      storedBits (0x008#12 : Offset).toNat ≠ 0) ∧
    (HostSteps (hostState OtpState.reset (.write 0x27C#12 4 1)) (.write 0x27C#12 4 1) [] ∧
      storedBits (0x27C#12 : Offset).toNat ≠ 0) ∧
    (HostSteps (hostState OtpState.reset (.write 0x030#12 4 1)) (.write 0x030#12 4 1) [] ∧
      storedBits (0x030#12 : Offset).toNat = 0) ∧
    (HostSteps (hostState OtpState.reset (.write 0x280#12 4 1)) (.write 0x280#12 4 1) [] ∧
      storedBits (0x280#12 : Offset).toNat = 0) :=
  ⟨⟨hostSteps_hostState rfl, by decide⟩, ⟨hostSteps_hostState rfl, by decide⟩,
    ⟨hostSteps_hostState rfl, by decide⟩, hostSteps_hostState rfl, by decide⟩

/-- Reserved offsets at the ends of the gaps of the map, and a listed register of each kind. -/
theorem witness_reserved :
    (¬ Mapped 0x01C ∧ ¬ Mapped 0x044 ∧ ¬ Mapped 0x058 ∧ ¬ Mapped 0x0FC ∧ ¬ Mapped 0x190 ∧
      ¬ Mapped 0x1FC ∧ ¬ Mapped 0x280 ∧ ¬ Mapped 0xFFC) ∧
    HostSteps (hostState OtpState.reset (.read 0x01C#12 4)) (.read 0x01C#12 4) [] ∧
    HostSteps (hostState OtpState.reset (.read 0x010#12 4)) (.read 0x010#12 4) [] ∧
    HostSteps (hostState OtpState.reset (.read 0x038#12 4)) (.read 0x038#12 4) [] ∧
    HostSteps (hostState OtpState.reset (.write 0x01C#12 4 1)) (.write 0x01C#12 4 1) [] ∧
    HostSteps (hostState OtpState.reset (.write 0x010#12 4 0xFF)) (.write 0x010#12 4 0xFF) [] := by
  refine ⟨by unfold Mapped; omega, hostSteps_hostState rfl, hostSteps_hostState rfl,
    hostSteps_hostState rfl, hostSteps_hostState rfl, hostSteps_hostState rfl⟩

/-- The last word of every buffer, its last lane: each index bound is met. -/
theorem witness_lanes : (3 : Nat) < 4 ∧ (1 : Nat) < 2 ∧ (15 : Nat) < 16 ∧ (19 : Nat) < 20 ∧ (31 : Nat) < 32 := by
  decide

theorem witness_reset_input : HostSteps (racingState 5 .reset) .reset [] := hostSteps_racingState _ _

theorem reset_good : State.reset.otp.Good := by
  refine ⟨⟨by decide, by decide, by decide⟩, ?_, .inl ⟨rfl, rfl, rfl, rfl⟩⟩
  unfold OtpState.errcodeOk
  decide

/-- A good state, not reset's, that steps. -/
theorem witness_good_step :
    (stateOf (busyBlock 5)).otp.Good ∧ ∃ t, step (stateOf (busyBlock 5)) = .next t := by
  refine ⟨⟨⟨by decide, by decide, by decide⟩, ?_, .inl ⟨rfl, rfl, rfl, rfl⟩⟩, _, rfl⟩
  unfold OtpState.errcodeOk
  decide

theorem witness_engine_step :
    nextAgent (stateOf (busyBlock 2)) = .engine ∧ ∃ t, step (stateOf (busyBlock 2)) = .next t :=
  ⟨rfl, _, rfl⟩

theorem witness_host_step :
    nextAgent (hostState OtpState.reset (.write 0x140#12 4 1)) = .host ∧
    (hostState OtpState.reset (.write 0x140#12 4 1)).inputs.head? ≠ some .reset ∧
    ∃ t, step (hostState OtpState.reset (.write 0x140#12 4 1)) = .next t :=
  ⟨rfl, by decide, _, rfl⟩

theorem witness_started_command :
    (nextAgent (racingState 5 (.write 0x020#12 4 1)) = .host ∧
      (racingState 5 (.write 0x020#12 4 1)).otp.busy = true ∧
      (racingState 5 (.write 0x020#12 4 1)).inputs.head? ≠ some .reset ∧
      ∃ t, step (racingState 5 (.write 0x020#12 4 1)) = .next t) ∧
    ∃ o, Yields .tdiv (stateOf (busyBlock 5)) o :=
  ⟨⟨rfl, rfl, by decide, _, rfl⟩, _, rfl⟩

/-- The empty and the longest secret. -/
theorem witness_key_lengths : OtpState.reset.keyLen.toNat ≤ 80 ∧
    ({ OtpState.reset with keyLen := 80 } : OtpState).keyLen.toNat ≤ 80 := by decide

/-- "MY======" is a legal text with two characters of data, and so is the empty text with none. -/
theorem textF_legal : LegalText (textBlock textF) 2 := by
  unfold LegalText
  decide +kernel

theorem empty_legal : LegalText OtpState.reset 0 := by
  unfold LegalText
  decide +kernel

/-- "A" is no legal text. -/
theorem textA_illegal : ¬ ∃ d, LegalText (textBlock (bytes [0x41])) d := by
  rintro ⟨d, h1, -, h3, h4, -⟩
  have hl : (textBlock (bytes [0x41])).txtLen.toNat = 1 := by decide +kernel
  rw [hl] at h1 h3
  have h0 : byteNat (textBlock (bytes [0x41])).txt 0 ≠ 0x3D := by decide +kernel
  have hd : d = 0 ∨ d = 1 := by omega
  rcases hd with rfl | rfl
  · exact h0 (h3 0 (by omega) (by omega))
  · exact h4.1 rfl

theorem witness_decoding :
    ((textBlock textF).txtLen.toNat ≤ 128 ∧ LegalText (textBlock textF) 2) ∧
    ((textBlock (bytes [0x41])).txtLen.toNat ≤ 128 ∧
      ¬ ∃ d, LegalText (textBlock (bytes [0x41])) d) :=
  ⟨⟨by decide +kernel, textF_legal⟩, by decide +kernel, textA_illegal⟩

/-- "my======" and "MY======". -/
theorem witness_case : ∀ i, i < 128 →
    foldNat (byteNat (textBlock (bytes [0x6D, 0x79, 0x3D, 0x3D, 0x3D, 0x3D, 0x3D, 0x3D])).txt i)
      = foldNat (byteNat (textBlock textF).txt i) := by
  decide +kernel

/-- "MZ" decodes and has a set tail bit; "MY" decodes and has none. -/
theorem witness_tail : base32Decode false (bytes [0x4D, 0x5A]) = some (bytes [0x66]) ∧
    base32Decode true (bytes [0x4D, 0x5A]) ≠ some (bytes [0x66]) ∧
    base32Decode true (bytes [0x4D, 0x59]) = some (bytes [0x66]) := by
  decide +kernel

/-- Each clause of TRUNC: no algorithm, 0 and 9 digits, 1 and 8 digits. -/
theorem witness_trunc :
    ({ OtpState.reset with alg := 3 } : OtpState).alg = 3 ∧
    (OtpState.reset.alg ≠ 3 ∧ ¬ DigitsLegal { OtpState.reset with digits := 0 } ∧
      ¬ DigitsLegal { OtpState.reset with digits := 9 }) ∧
    (DigitsLegal { OtpState.reset with digits := 1 } ∧
      DigitsLegal { OtpState.reset with digits := 8 }) := by
  unfold DigitsLegal
  decide

/-- A digest and a digit count of the laws, and a second digest with the same last byte and the same four
bytes at the offset. -/
theorem witness_truncation_laws :
    (bytes (List.range 20)).length = 20 ∧
    (bytes (99 :: (List.range 19).map (· + 1))).length = (bytes (List.range 20)).length ∧
    (bytes (99 :: (List.range 19).map (· + 1))).getD 19 0 = (bytes (List.range 20)).getD 19 0 ∧
    ∀ j, j < 4 →
      (bytes (99 :: (List.range 19).map (· + 1))).getD
        ((truncate (bytes (List.range 20)) 6).offset.toNat + j) 0 =
      (bytes (List.range 20)).getD ((truncate (bytes (List.range 20)) 6).offset.toNat + j) 0 := by
  decide +kernel

theorem witness_decimal : (1 : Nat) ≤ 8 ∧ (8 : Nat) ≤ 8 ∧ 99999999 < 10 ^ 8 ∧ 0 < 10 ^ 1 := by decide

/-- Each clause of HOTP and TOTP: 81 bytes; no algorithm; 9 digits; no secret; a secret of 1 byte and of
80. -/
theorem witness_code_operands :
    (80 < ({ OtpState.reset with keyLen := 81 } : OtpState).keyLen.toNat) ∧
    (OtpState.reset.keyLen.toNat ≤ 80 ∧ ({ OtpState.reset with alg := 3 } : OtpState).alg = 3) ∧
    (OtpState.reset.alg ≠ 3 ∧ ¬ DigitsLegal { OtpState.reset with digits := 9 }) ∧
    (OtpState.reset.keyLen.toNat = 0 ∧ DigitsLegal OtpState.reset) ∧
    (1 ≤ ({ OtpState.reset with keyLen := 1 } : OtpState).keyLen.toNat ∧
      DigitsLegal { OtpState.reset with keyLen := 1 }) ∧
    (({ OtpState.reset with keyLen := 80 } : OtpState).keyLen.toNat ≤ 80 ∧
      DigitsLegal { OtpState.reset with keyLen := 80 }) := by
  unfold DigitsLegal
  decide

/-- TDIV answers, at the largest time too, and at a later time than another. -/
theorem witness_tdiv :
    (∃ t, exec .tdiv (stateOf { OtpState.reset with time := 0xFFFFFFFFFFFFFFFF }) = .next t) ∧
    (∃ t, exec .tdiv (stateOf { OtpState.reset with time := 29 }) = .next t) ∧
    ({ OtpState.reset with time := 29 } : OtpState).time.toNat
      ≤ ({ OtpState.reset with time := 0xFFFFFFFFFFFFFFFF } : OtpState).time.toNat :=
  ⟨⟨_, rfl⟩, ⟨_, rfl⟩, by decide⟩

/-- A step of 1 second and an epoch of 100 seconds, with a time on each side of it. -/
theorem witness_epoch :
    1 ≤ ({ Config.params with t0 := 100, stepSeconds := 1 } : Config.Params).stepSeconds ∧
    ({ OtpState.reset with time := 99 } : OtpState).time.toNat
      < ({ Config.params with t0 := 100, stepSeconds := 1 } : Config.Params).t0 ∧
    ({ Config.params with t0 := 100, stepSeconds := 1 } : Config.Params).t0
      ≤ ({ OtpState.reset with time := 100 } : OtpState).time.toNat := by
  decide

/-- Both ends of TOTP as TDIV then HOTP: a code, and an error. -/
theorem witness_totp_split :
    (blockOf (exec .hotp (stateOf (blockOf (exec .tdiv (stateOf OtpState.reset)))))).err = true ∧
    (blockOf (exec .hotp (stateOf (blockOf (exec .tdiv (stateOf { OtpState.reset with keyLen := 1 })))))).err
      = false := by
  decide +kernel

/-- Each clause of VERIFY: 129 characters; an illegal text; a legal one of no bytes; one of a byte. -/
theorem witness_verify :
    (128 < ({ OtpState.reset with txtLen := 129 } : OtpState).txtLen.toNat) ∧
    ((textBlock (bytes [0x41])).txtLen.toNat ≤ 128 ∧
      ¬ ∃ d, LegalText (textBlock (bytes [0x41])) d) ∧
    (OtpState.reset.txtLen.toNat ≤ 128 ∧ LegalText OtpState.reset 0 ∧ 5 * 0 / 8 = 0) ∧
    ((textBlock textF).txtLen.toNat ≤ 128 ∧ LegalText (textBlock textF) 2 ∧ 1 ≤ 5 * 2 / 8) :=
  ⟨by decide, ⟨by decide +kernel, textA_illegal⟩, ⟨by decide, empty_legal, rfl⟩,
    by decide +kernel, textF_legal, by decide⟩

theorem witness_candidates : (1 : Nat) ≤ 1 ∧ (1 : Nat) ≤ 255 ∧ (255 : Nat) ≤ 255 := by decide

/-- The secret "MY======" stands for. -/
theorem textF_secret {o : OtpState} (h : SecretDecoded (textBlock textF) 2 o) : secret o = bytes [0x66] := by
  obtain ⟨h1, h2, -⟩ := h
  have h2 := h2 0 (by decide)
  have hg : groupNat 8 (textBit (textBlock textF)) 0 = 0x66 := by decide +kernel
  rw [if_pos (by decide), hg] at h2
  unfold secret
  rw [h1]
  have h0 : o.key[0] = 0x66#8 := by
    apply BitVec.eq_of_toNat_eq
    simpa [byteNat] using h2
  apply List.ext_getElem
  · simp [bytes]
  · intro i hi _
    have : i = 0 := by simp at hi; omega
    subst this
    simpa [bytes] using h0

/-- The text "MY======", TIME = 89, WINDOW = 1, and in SUB the code of counter 1, whatever the HMAC port
answers: every hypothesis of the window's "succeeds" halves holds of this block. -/
def windowBlock : OtpState :=
  { textBlock textF with
    time := 89, window := 1, subLen := 6
    sub := Vector.ofFn fun j => BitVec.ofNat 8 (verifyCodeByte (bytes [0x66]) 1 j.val) }

theorem witness_window :
    windowBlock.txtLen.toNat ≤ 128 ∧ LegalText windowBlock 2 ∧ 1 ≤ 5 * 2 / 8 ∧
    1 ≤ windowBlock.window.toNat ∧
    (1 : Dword) = BitVec.ofNat 64 (windowBlock.time.toNat / 30) - BitVec.ofNat 64 1 ∧
    ∀ o, SecretDecoded windowBlock 2 o → Submitted windowBlock (secret o) 1 := by
  refine ⟨by decide +kernel, textF_legal, by decide, by decide, by decide, fun o h => ?_⟩
  have hs : secret o = bytes [0x66] :=
    textF_secret (o := { o with
      time := 0, window := 0, subLen := 0, sub := OtpState.reset.sub }) ⟨h.1, h.2.1, by
        rw [h.2.2]; rfl⟩
  rw [hs]
  refine ⟨rfl, fun j hj => ?_⟩
  have hlt : verifyCodeByte (bytes [0x66]) 1 j < 256 := by
    unfold verifyCodeByte codeTextByte
    split <;> omega
  simp [windowBlock, byteNat, show j < 8 by omega]
  omega

theorem witness_sub_length : (5 : BitVec 4) ≠ 6 ∧ (7 : BitVec 4) ≠ 6 := by decide

/-- The conditions of an error, of the first of two, and of none. -/
theorem witness_errors :
    (Raised .hotp { OtpState.reset with keyLen := 81, alg := 3 } .lengthRange ∧
      priority = [.badCommand] ++ .lengthRange :: [.unsupportedAlgorithm, .invalidDigitCount,
        .invalidEncoding, .invalidSecretLength, .timeBeforeEpoch] ∧
      ∀ e ∈ [CmdError.badCommand], ¬ Raised .hotp { OtpState.reset with keyLen := 81, alg := 3 } e) ∧
    (∀ e, ¬ Raised .tdiv OtpState.reset e) := by
  refine ⟨⟨.inl ⟨.inr (.inl rfl), by decide⟩, rfl, ?_⟩, ?_⟩
  · intro e he
    simp at he
    subst he
    exact id
  · intro e
    cases e <;> simp [Raised]

theorem witness_error_outcome :
    ∃ t, exec .hotp (stateOf OtpState.reset) = .next t ∧ t.otp.err = true := ⟨_, rfl, by decide +kernel⟩

theorem witness_success_outcome :
    ∃ t, exec .b32dec (stateOf (textBlock textF)) = .next t ∧ t.otp.err = false ∧
      ¬ storedOffsets .b32dec (textBlock textF) t.otp 0x141 ∧
      ¬ storedOffsets .b32dec (textBlock textF) t.otp 0x000 := by
  refine ⟨_, rfl, by decide +kernel, ?_, ?_⟩
  · unfold storedOffsets; decide +kernel
  · unfold storedOffsets; decide +kernel

/-- Two blocks that agree on B32DEC's operands and differ elsewhere. -/
theorem witness_same_operands :
    SameOperands .b32dec (textBlock textF) { textBlock textF with time := 5, digits := 0 } ∧
    SameOperands .hotp (keyBlock k20) { keyBlock k20 with txtLen := 255, pad := true } :=
  ⟨⟨rfl, fun _ _ => rfl⟩, rfl, rfl, rfl, rfl, rfl⟩

/-- A pending command, and a pending illegal word, with the host's turn before the engine's, and no reset
among the inputs. -/
theorem witness_completion :
    ((racingState 5 (.read 0x004#12 4)).otp.busy = true ∧
      decode (racingState 5 (.read 0x004#12 4)).otp.pending = .ok .tdiv) ∧
    (∀ i, decode (racingState 9 (.read 0x004#12 4)).otp.pending ≠ .ok i) ∧
    ∀ w, (racingState w (.read 0x004#12 4)).inputsLegal ∧
      Input.reset ∉ (racingState w (.read 0x004#12 4)).inputs := by
  refine ⟨⟨rfl, rfl⟩, ?_, fun w => ⟨fun i hi => ?_, ?_⟩⟩
  · intro i h
    cases i <;> cases h
  · simp [racingState, hostState] at hi
    subst hi
    decide
  · simp [racingState, hostState]

/-- RUN with no turns listed, and with the engine's turn after two polls. -/
theorem witness_run : (stateOf OtpState.reset).turns = [] ∧
    { stateOf OtpState.reset with inputs := (Stmt.run .verify).inputs ++ [Input.wait] }.inputs
      = (Stmt.run .verify).inputs ++ [Input.wait] ∧
    { stateOf OtpState.reset with
      turns := [.host, .host, .host, .engine, .host],
      inputs := (Stmt.run .verify).inputs ++ [Input.wait] }.turns
      = List.replicate (2 + 1) .host ++ [.engine, .host] := ⟨rfl, rfl, rfl⟩

/-- A poll while a command is pending, and one of an idle block. -/
theorem witness_wait :
    (HostSteps (racingState 5 .wait) .wait [] ∧ (racingState 5 .wait).otp.busy = true) ∧
    (HostSteps (hostState OtpState.reset .wait) .wait [] ∧
      (hostState OtpState.reset .wait).otp.busy = false) :=
  ⟨⟨hostSteps_racingState _ _, rfl⟩, ⟨hostSteps_hostState rfl, rfl⟩⟩

/-- A string of a whole buffer and one that ends inside a word. -/
theorem witness_wrbuf : (bytes (List.range 80)).length ≤ Buf.key.size ∧
    (bytes [1, 2, 3, 4, 5]).length ≤ Buf.sub.size ∧ Buf.sub ≠ Buf.codeTxt ∧
    (laneWords (bytes [1, 2, 3, 4, 5])) = [0x04030201#32, 0x00000005#32] := by
  decide +kernel

end Sys2Proof.Tests
end

/-!
PROOF. The host's accesses of an idle block, offset by offset (R23, R32): an aligned offset is a register,
a word of a buffer window, or reserved; what a read of it can answer, and what a write of it stores.
-/

namespace Sys2Proof.Claims

open Sys2Proof.Machine

/-! ### The host's step on one access -/

theorem step_of_hostSteps {s : State} {i : Input} {rest : List Input} (h : HostSteps s i rest) :
    step s = hostStep i { takeTurn s with inputs := rest } := by
  obtain ⟨hhost, hinputs⟩ := h
  simp only [step, hhost, hostTurn, takeTurn_inputs, hinputs]

theorem step_read_of_idle {s : State} {rest : List Input} {a : Offset}
    (h : HostSteps s (.read a 4) rest) (ha : a.toNat % 4 = 0) (hidle : s.otp.busy = false) :
    step s = .next { afterHost s rest s.otp with readData := busValue s.otp a } := by
  have hlegal : busAccessLegal a 4 = true := (busAccessLegal_iff a 4).2 ⟨ha, rfl⟩
  simp [step_of_hostSteps h, hostStep, hlegal, busRead, hidle, afterHost]

theorem step_write {s : State} {rest : List Input} {a : Offset} {v : Word}
    (h : HostSteps s (.write a 4 v) rest) (ha : a.toNat % 4 = 0) :
    step s = .next (afterHost s rest (busWrite a v s.otp)) := by
  have hlegal : busAccessLegal a 4 = true := (busAccessLegal_iff a 4).2 ⟨ha, rfl⟩
  simp [step_of_hostSteps h, hostStep, hlegal, afterHost]

/-! ### What an aligned offset names -/

theorem addr_eq_of_locate_buf {a : Offset} {b : Buf} {k : Nat} (ha : a.toNat % 4 = 0)
    (h : locate a = .buf b k) : a.toNat = b.addr + 4 * k ∧ 4 * k < b.size := by
  unfold locate at h
  split at h
  · cases h
  · split at h
    · rename_i b' hb
      cases h
      have hcov := List.find?_some hb
      simp only [Buf.covers, decide_eq_true_eq] at hcov
      have hb4 : b.addr % 4 = 0 := by cases b <;> rfl
      omega
    · cases h

theorem not_mapped_of_locate {a : Offset} (ha : a.toNat % 4 = 0) (h : locate a = .reserved) :
    ¬ Mapped a.toNat := by
  simp only [locate_eq, ite_eq_iff, reduceCtorEq, and_false, false_or, and_true] at h
  unfold Mapped
  omega

theorem mapped_reg_addr (r : Reg) : Mapped r.addr := by
  cases r <;> simp [Mapped, Reg.addr]

theorem mapped_buf_addr {b : Buf} {k : Nat} (hk : 4 * k < b.size) : Mapped (b.addr + 4 * k) := by
  unfold Mapped
  cases b <;> simp only [Buf.addr, Buf.size, Config.codeSize, Config.subSize, Config.digSize,
    Config.keyMax, Config.txtMax] at hk ⊢ <;> omega

theorem storedBits_of_not_mapped {a : Nat} (h : ¬ Mapped a) : storedBits a = 0 := by
  unfold Mapped at h
  unfold storedBits
  repeat rw [if_neg (by omega)]

theorem storedBits_of_rw_window {a : Nat}
    (h : (0x050 ≤ a ∧ a < 0x058) ∨ (0x100 ≤ a ∧ a < 0x190) ∨ (0x200 ≤ a ∧ a < 0x280)) :
    storedBits a = 0xFFFFFFFF := by
  unfold storedBits
  split_ifs <;> omega

theorem storedBits_of_codeTxt_window {a : Nat} (h : 0x048 ≤ a ∧ a < 0x050) : storedBits a = 0 := by
  unfold storedBits
  split_ifs <;> omega

/-- CODE_TXT stores nothing, any other buffer word all its bits. -/
theorem storedBits_buf {b : Buf} {k : Nat} (hk : 4 * k < b.size) :
    storedBits (b.addr + 4 * k) = if b = .codeTxt then 0 else 0xFFFFFFFF := by
  generalize hn : b.addr + 4 * k = n
  cases b <;> simp only [Buf.addr, Buf.size, Config.codeSize, Config.subSize, Config.digSize,
    Config.keyMax, Config.txtMax] at hk hn
  case codeTxt => exact storedBits_of_codeTxt_window (by omega)
  all_goals exact storedBits_of_rw_window (by omega)

/-! ### What a read answers -/

theorem busValue_of_eq_addr (o : OtpState) {a : Offset} {r : Reg} (h : a.toNat = r.addr) :
    busValue o a = readReg o r := by
  rw [busValue, locate_of_eq_addr a r h]

theorem busValue_of_locate_buf (o : OtpState) {a : Offset} {b : Buf} {k : Nat}
    (h : locate a = .buf b k) : busValue o a = readBuf o b k := by
  rw [busValue, h]

theorem busValue_of_not_mapped (o : OtpState) {a : Offset} (ha : a.toNat % 4 = 0)
    (h : ¬ Mapped a.toNat) : busValue o a = 0 := by
  cases hl : locate a with
  | reg r => exact absurd (addr_eq_of_locate hl ▸ mapped_reg_addr r) h
  | buf b k =>
    obtain ⟨haddr, hk⟩ := addr_eq_of_locate_buf ha hl
    exact absurd (haddr ▸ mapped_buf_addr hk) h
  | reserved => rw [busValue, hl]

theorem toNat_and_two_pow_sub_one {n : Nat} (x : BitVec n) : x.toNat &&& (2 ^ n - 1) = x.toNat :=
  Nat.and_two_pow_sub_one_of_lt_two_pow x.isLt

theorem setWidth_toNat_and {n : Nat} (x : BitVec n) (hn : n ≤ 32) :
    (x.setWidth 32).toNat &&& (2 ^ n - 1) = (x.setWidth 32).toNat := by
  rw [BitVec.toNat_setWidth_of_le hn, toNat_and_two_pow_sub_one]

/-- The fields of CFG lie within the bits a write of CFG stores. -/
theorem cfg_toNat_and (o : OtpState) :
    (readReg o .cfg).toNat &&& 0x13F = (readReg o .cfg).toNat := by
  have key : ∀ (p : Bool) (g : BitVec 2) (d : BitVec 4),
      (0#23 ++ BitVec.ofBool p ++ 0#2 ++ g ++ d).toNat &&& 0x13F =
        (0#23 ++ BitVec.ofBool p ++ 0#2 ++ g ++ d).toNat := by decide
  exact key o.pad o.alg o.digits

theorem readReg_and_storedBits (o : OtpState) {r : Reg} (h : storedBits r.addr ≠ 0) :
    (readReg o r).toNat &&& storedBits r.addr = (readReg o r).toNat := by
  cases r
  case cmd | status | matchCtrLo | matchCtrHi | offset | binary | codeBin => exact absurd rfl h
  case cfg => exact cfg_toNat_and o
  case window => exact setWidth_toNat_and o.window (by decide)
  case keyLen => exact setWidth_toNat_and o.keyLen (by decide)
  case txtLen => exact setWidth_toNat_and o.txtLen (by decide)
  case subLen => exact setWidth_toNat_and o.subLen (by decide)
  case timeLo | timeHi | ctrLo | ctrHi => exact toNat_and_two_pow_sub_one _

/-- R32: the reserved bits of a word the host may write read 0. -/
theorem busValue_and_storedBits (o : OtpState) {a : Offset} (ha : a.toNat % 4 = 0)
    (h : storedBits a.toNat ≠ 0) :
    (busValue o a).toNat &&& storedBits a.toNat = (busValue o a).toNat := by
  cases hl : locate a with
  | reg r =>
    have haddr := addr_eq_of_locate hl
    rw [haddr] at h ⊢
    rw [busValue_of_eq_addr o haddr, readReg_and_storedBits o h]
  | buf b k =>
    obtain ⟨haddr, hk⟩ := addr_eq_of_locate_buf ha hl
    rw [haddr, storedBits_buf hk] at h ⊢
    rw [if_neg fun hb => h (if_pos hb)]
    exact toNat_and_two_pow_sub_one _
  | reserved => exact absurd (storedBits_of_not_mapped (not_mapped_of_locate ha hl)) h

/-! ### The bus and the numeric map -/

theorem statusWord_toNat (o : OtpState) : (statusWord o).toNat = statusNat o := by
  simp only [statusWord, statusNat, append_toNat_eq_mul_add, BitVec.toNat_ofBool, BitVec.toNat_ofNat]
  omega

theorem cfg_toNat (o : OtpState) :
    (readReg o .cfg).toNat = o.digits.toNat + o.alg.toNat * 16 + o.pad.toNat * 256 := by
  simp only [readReg, append_toNat_eq_mul_add, BitVec.toNat_ofBool, BitVec.toNat_ofNat]
  omega

theorem mapNat_reg_addr (o : OtpState) (r : Reg) : mapNat o r.addr = (readReg o r).toNat := by
  cases r
  case status => exact (statusWord_toNat o).symm
  case cfg => exact (cfg_toNat o).symm
  case timeLo | ctrLo | matchCtrLo => exact (lowHalf_toNat _).symm
  case timeHi | ctrHi | matchCtrHi => exact (highHalf_toNat _).symm
  case cmd => rfl
  case window | keyLen | txtLen | subLen | offset | binary | codeBin =>
    exact (BitVec.toNat_setWidth_of_le (by decide)).symm

theorem laneNat_eq_bufferWord_toNat {n : Nat} (v : Vector Byte n) (k : Nat) :
    laneNat v (4 * k) = (bufferWord v k).toNat := (bufferWord_toNat v k).symm

theorem mapNat_buf_addr (o : OtpState) {b : Buf} {k : Nat} (hk : 4 * k < b.size) :
    mapNat o (b.addr + 4 * k) = (readBuf o b k).toNat := by
  generalize hn : b.addr + 4 * k = n
  unfold mapNat
  cases b <;> simp only [Buf.addr, Buf.size, Config.codeSize, Config.subSize, Config.digSize,
    Config.keyMax, Config.txtMax] at hk hn
  all_goals
    repeat rw [if_neg (by omega)]
    rw [if_pos (by omega), ← hn, Nat.add_sub_cancel_left]
    exact laneNat_eq_bufferWord_toNat _ k

theorem mapNat_of_not_mapped (o : OtpState) {a : Nat} (h : ¬ Mapped a) : mapNat o a = 0 := by
  unfold Mapped at h
  unfold mapNat
  repeat rw [if_neg (by omega)]

/-- The bus answers the register map, at every aligned offset (R23, R63). -/
theorem mapNat_eq_busValue_toNat (o : OtpState) {a : Offset} (ha : a.toNat % 4 = 0) :
    mapNat o a.toNat = (busValue o a).toNat := by
  cases hl : locate a with
  | reg r =>
    have haddr := addr_eq_of_locate hl
    rw [busValue_of_eq_addr o haddr, haddr, mapNat_reg_addr]
  | buf b k =>
    obtain ⟨haddr, hk⟩ := addr_eq_of_locate_buf ha hl
    rw [busValue_of_locate_buf o hl, haddr, mapNat_buf_addr o hk]
  | reserved =>
    have hm := not_mapped_of_locate ha hl
    rw [busValue_of_not_mapped o ha hm, mapNat_of_not_mapped o hm]
    rfl

/-! ### What a write stores -/

theorem extractLsb'_zero_toNat (v : Word) (n : Nat) :
    (v.extractLsb' 0 n).toNat = v.toNat &&& (2 ^ n - 1) := by
  rw [extractLsb'_toNat_eq_div_mod, pow_zero, Nat.div_one, Nat.and_two_pow_sub_one_eq_mod]

theorem setWidth_extractLsb'_toNat (v : Word) {n : Nat} (hn : n ≤ 32) :
    ((v.extractLsb' 0 n).setWidth 32).toNat = v.toNat &&& (2 ^ n - 1) := by
  rw [BitVec.toNat_setWidth_of_le hn, extractLsb'_zero_toNat]

theorem lowHalf_setLowHalf (x : Dword) (v : Word) : lowHalf (setLowHalf x v) = v :=
  BitVec.eq_of_toNat_eq (by rw [lowHalf_toNat, setLowHalf_toNat]; omega)

theorem highHalf_setHighHalf (x : Dword) (v : Word) : highHalf (setHighHalf x v) = v :=
  BitVec.eq_of_toNat_eq (by rw [highHalf_toNat, setHighHalf_toNat]; omega)

theorem bufferWord_setBufferWord {n : Nat} (x : Vector Byte n) {k : Nat} (v : Word)
    (hk : 4 * k + 3 < n) : bufferWord (setBufferWord x k v) k = v := by
  have lane : ∀ j, j < 4 →
      bufferByte (setBufferWord x k v) (4 * k + j) = v.extractLsb' (8 * j) 8 := by
    intro j hj
    rw [bufferByte_setBufferWord, if_pos (by omega), show (4 * k + j) % 4 = j by omega]
  calc bufferWord (setBufferWord x k v) k
      = wordOfLanes (v.extractLsb' 0 8) (v.extractLsb' 8 8) (v.extractLsb' 16 8)
          (v.extractLsb' 24 8) := by
        rw [bufferWord, lane 1 (by omega), lane 2 (by omega), lane 3 (by omega)]
        exact congrArg (wordOfLanes · _ _ _) (lane 0 (by omega))
    _ = v := wordOfLanes_extract v

/-- CFG reads back the written bits 8, 5:4 and 3:0. -/
theorem cfg_writeReg_toNat (v : Word) (o : OtpState) :
    (readReg (writeReg v o .cfg) .cfg).toNat = v.toNat &&& 0x13F := by
  have hbits : readReg (writeReg v o .cfg) .cfg = v &&& 0x13F#32 := by
    refine BitVec.eq_of_getLsbD_eq fun i hi => ?_
    simp only [readReg, writeReg, BitVec.getLsbD_append, BitVec.getLsbD_extractLsb',
      BitVec.getLsbD_ofBool, BitVec.getLsbD_and]
    interval_cases i <;> simp
  rw [hbits, BitVec.toNat_and]
  rfl

theorem readReg_writeReg_toNat (v : Word) (o : OtpState) {r : Reg} (h : storedBits r.addr ≠ 0) :
    (readReg (writeReg v o r) r).toNat = v.toNat &&& storedBits r.addr := by
  have hword : v.toNat &&& 0xFFFFFFFF = v.toNat := toNat_and_two_pow_sub_one v
  cases r
  case cmd | status | matchCtrLo | matchCtrHi | offset | binary | codeBin => exact absurd rfl h
  case cfg => exact cfg_writeReg_toNat v o
  case window | keyLen | txtLen | subLen => exact setWidth_extractLsb'_toNat v (by decide)
  case timeLo | ctrLo => exact (congrArg BitVec.toNat (lowHalf_setLowHalf _ v)).trans hword.symm
  case timeHi | ctrHi => exact (congrArg BitVec.toNat (highHalf_setHighHalf _ v)).trans hword.symm

theorem readBuf_writeBuf (v : Word) (o : OtpState) {b : Buf} {k : Nat} (hb : b ≠ .codeTxt)
    (hk : 4 * k < b.size) : readBuf (writeBuf v o b k) b k = v := by
  cases b <;> simp only [Buf.size, Config.subSize, Config.digSize, Config.keyMax,
    Config.txtMax] at hk
  case codeTxt => exact absurd rfl hb
  all_goals exact bufferWord_setBufferWord _ v (by omega)

theorem writeReg_of_storedBits_eq_zero (v : Word) (o : OtpState) {r : Reg} (hcmd : r ≠ .cmd)
    (hstatus : r ≠ .status) (h : storedBits r.addr = 0) : writeReg v o r = o := by
  cases r
  case cmd => exact absurd rfl hcmd
  case status => exact absurd rfl hstatus
  case matchCtrLo | matchCtrHi | offset | binary | codeBin => rfl
  all_goals exact absurd h (by decide)

theorem writeReg_errorFlags (v : Word) (o : OtpState) {r : Reg} (hcmd : r ≠ .cmd)
    (hstatus : r ≠ .status) :
    (writeReg v o r).busyerr = o.busyerr ∧ (writeReg v o r).err = o.err := by
  cases r
  case cmd => exact absurd rfl hcmd
  case status => exact absurd rfl hstatus
  all_goals simp [writeReg]

theorem writeBuf_errorFlags (v : Word) (o : OtpState) (b : Buf) (k : Nat) :
    (writeBuf v o b k).busyerr = o.busyerr ∧ (writeBuf v o b k).err = o.err := by
  cases b <;> simp [writeBuf]

section IdleWrite

variable {a : Offset} {o : OtpState} (v : Word)
  (ha : a.toNat % 4 = 0) (hidle : o.busy = false) (hcmd : a.toNat ≠ 0x000) (hstatus : a.toNat ≠ 0x004)

include hcmd hstatus in
theorem not_cmd_or_status_of_addr {r : Reg} (h : a.toNat = r.addr) : r ≠ .cmd ∧ r ≠ .status :=
  ⟨by rintro rfl; exact hcmd h, by rintro rfl; exact hstatus h⟩

include ha hidle hcmd hstatus

/-- R32: reserved space and read-only registers ignore a write. -/
theorem busWrite_of_storedBits_eq_zero (h : storedBits a.toNat = 0) : busWrite a v o = o := by
  rw [busWrite_of_idle a v o hidle hstatus]
  cases hl : locate a with
  | reg r =>
    have haddr := addr_eq_of_locate hl
    obtain ⟨hc, hs⟩ := not_cmd_or_status_of_addr hcmd hstatus haddr
    exact writeReg_of_storedBits_eq_zero v o hc hs (haddr ▸ h)
  | buf b k =>
    obtain ⟨haddr, hk⟩ := addr_eq_of_locate_buf ha hl
    rw [haddr, storedBits_buf hk] at h
    cases b
    case codeTxt => rfl
    all_goals exact absurd h (by decide)
  | reserved => rfl

omit hcmd in
/-- The word written reads back as its storable bits. -/
theorem busWrite_stores (h : storedBits a.toNat ≠ 0) :
    mapNat (busWrite a v o) a.toNat = v.toNat &&& storedBits a.toNat := by
  rw [busWrite_of_idle a v o hidle hstatus]
  cases hl : locate a with
  | reg r =>
    have haddr := addr_eq_of_locate hl
    rw [haddr] at h ⊢
    rw [mapNat_reg_addr, readReg_writeReg_toNat v o h]
  | buf b k =>
    obtain ⟨haddr, hk⟩ := addr_eq_of_locate_buf ha hl
    rw [haddr, storedBits_buf hk] at h ⊢
    have hb : b ≠ .codeTxt := fun hb => h (if_pos hb)
    rw [mapNat_buf_addr _ hk, readBuf_writeBuf v o hb hk, if_neg hb]
    exact (toNat_and_two_pow_sub_one v).symm
  | reserved => exact absurd (storedBits_of_not_mapped (not_mapped_of_locate ha hl)) h

omit ha in
theorem busWrite_errorFlags :
    (busWrite a v o).busyerr = o.busyerr ∧ (busWrite a v o).err = o.err := by
  rw [busWrite_of_idle a v o hidle hstatus]
  cases hl : locate a with
  | reg r =>
    obtain ⟨hc, hs⟩ := not_cmd_or_status_of_addr hcmd hstatus (addr_eq_of_locate hl)
    exact writeReg_errorFlags v o hc hs
  | buf b k => exact writeBuf_errorFlags v o b k
  | reserved => exact ⟨rfl, rfl⟩

end IdleWrite

/-! ### Reserved space and reserved bits -/

theorem statusNat_lt (o : OtpState) : statusNat o < 2 ^ 9 := by
  have := o.errcode.isLt
  have := o.busy.toNat_lt
  have := o.done.toNat_lt
  have := o.err.toNat_lt
  have := o.matched.toNat_lt
  have := o.busyerr.toNat_lt
  unfold statusNat
  omega

/-- The reserved bits of the registers no write stores to read 0 (R25, R36, R37, R38). -/
theorem busValue_lt_of_readOnly (o : OtpState) (a : Offset) :
    (a.toNat = 0x004 → (busValue o a).toNat < 2 ^ 9) ∧
    (a.toNat = 0x038 → (busValue o a).toNat < 2 ^ 4) ∧
    (a.toNat = 0x03C → (busValue o a).toNat < 2 ^ 31) ∧
    (a.toNat = 0x040 → (busValue o a).toNat < 2 ^ 27) := by
  have field : ∀ {r : Reg} {n : Nat}, mapNat o r.addr < 2 ^ n → a.toNat = r.addr →
      (busValue o a).toNat < 2 ^ n := fun {r} _ hlt haddr => by
    rwa [busValue_of_eq_addr o haddr, ← mapNat_reg_addr]
  exact ⟨field (r := .status) (statusNat_lt o), field (r := .offset) o.offset.isLt,
    field (r := .binary) o.binary.isLt, field (r := .codeBin) o.codeBin.isLt⟩

/-- Settles O12: the read and the write of an idle block, each by what its offset names. -/
theorem reservedSpaceReadsZeroAndIgnoresWrites :
    Obligations.ReservedSpaceReadsZeroAndIgnoresWrites := by
  intro s rest a v hidle ha
  refine ⟨fun hread => ?_, fun hwrite hcmd hstatus => ⟨fun hnone => ?_, fun hsome => ?_⟩⟩
  · exact ⟨_, step_read_of_idle hread ha hidle, busValue_of_not_mapped s.otp ha,
      busValue_and_storedBits s.otp ha, busValue_lt_of_readOnly s.otp a⟩
  · rw [step_write hwrite ha, busWrite_of_storedBits_eq_zero v ha hidle hcmd hstatus hnone]
  · obtain ⟨hbusyerr, herr⟩ := busWrite_errorFlags v hidle hcmd hstatus
    exact ⟨_, step_write hwrite ha, hbusyerr, herr,
      busWrite_stores v ha hidle hstatus hsome⟩

end Sys2Proof.Claims

/-!
PROOF. Where the machine stops (R65), and the order of the byte lanes on the bus (R62).
-/

namespace Sys2Proof.Claims

open Sys2Proof.Machine

/-! ### Where the machine stops -/

theorem hostStep_ne_refused (i : Input) (s : State) (r : Refusal) : hostStep i s ≠ .refused r := by
  cases i with
  | write a w v | read a w => cases hl : busAccessLegal a w <;> simp [hostStep, hl]
  | wait => simp only [hostStep]; split <;> simp
  | reset => simp [hostStep]

theorem busAccessLegal_eq_false_iff (a : Offset) (w : Nat) :
    busAccessLegal a w = false ↔ a.toNat % 4 ≠ 0 ∨ w ≠ 4 := by
  rw [← Bool.not_eq_true, busAccessLegal_iff, not_and_or]

theorem hostStep_eq_fault_iff (i : Input) (s : State) (f : Fault) :
    hostStep i s = .fault f ↔
      ∃ a width, ((∃ v, i = .write a width v) ∨ i = .read a width) ∧
        (a.toNat % 4 ≠ 0 ∨ width ≠ 4) ∧ f = .accessOutsideInterface a width := by
  cases i with
  | write a w v | read a w =>
    simp only [hostStep, ← busAccessLegal_eq_false_iff]
    cases hl : busAccessLegal a w <;> simp [and_assoc, hl, eq_comm (a := f)]
  | wait => simp only [hostStep]; split <;> simp
  | reset => simp [hostStep]

theorem engineTurn_next (s : State) : ∃ t, engineTurn s = .next t := by
  unfold engineTurn
  split
  · obtain ⟨o, ho⟩ := engineStep_next s
    exact ⟨_, ho⟩
  · exact ⟨s, rfl⟩

/-- A step answers a next state, unless it is the host's step on an input. -/
theorem step_next_or_hostSteps (s : State) :
    (∃ t, step s = .next t) ∨ ∃ i rest, HostSteps s i rest := by
  cases hagent : nextAgent s with
  | engine =>
    obtain ⟨t, ht⟩ := engineTurn_next (takeTurn s)
    exact .inl ⟨t, by simpa only [step, hagent] using ht⟩
  | host =>
    cases hinputs : s.inputs with
    | nil => exact .inl ⟨takeTurn s, by simp only [step, hagent, hostTurn, takeTurn_inputs, hinputs]⟩
    | cons i rest => exact .inr ⟨i, rest, hagent, hinputs⟩

theorem step_ne_refused (s : State) (r : Refusal) : step s ≠ .refused r := by
  obtain ⟨t, ht⟩ | ⟨i, rest, h⟩ := step_next_or_hostSteps s
  · simp [ht]
  · rw [step_of_hostSteps h]
    exact hostStep_ne_refused i _ r

theorem step_eq_fault_iff (s : State) (f : Fault) :
    step s = .fault f ↔
      ∃ i rest, HostSteps s i rest ∧ hostStep i { takeTurn s with inputs := rest } = .fault f := by
  constructor
  · intro hf
    obtain ⟨t, ht⟩ | ⟨i, rest, h⟩ := step_next_or_hostSteps s
    · simp [ht] at hf
    · exact ⟨i, rest, h, step_of_hostSteps h ▸ hf⟩
  · rintro ⟨i, rest, h, hf⟩
    exact (step_of_hostSteps h).trans hf

/-- Settles O6: only the host's step on an input can stop, and it stops on an access outside the
interface alone. -/
theorem stopsExactlyOutsideTheInterface : Obligations.StopsExactlyOutsideTheInterface := by
  refine fun s => ⟨step_ne_refused s, fun f => ?_⟩
  simp only [step_eq_fault_iff, hostStep_eq_fault_iff]
  constructor
  · rintro ⟨_, rest, h, a, width, ⟨v, rfl⟩ | rfl, hout⟩
    · exact ⟨a, width, rest, .inl ⟨v, h⟩, hout⟩
    · exact ⟨a, width, rest, .inr h, hout⟩
  · rintro ⟨a, width, rest, ⟨v, h⟩ | h, hout⟩
    · exact ⟨_, rest, h, a, width, .inl ⟨v, rfl⟩, hout⟩
    · exact ⟨_, rest, h, a, width, .inr rfl, hout⟩

/-! ### The order of the byte lanes -/

theorem bufferWord_lane {n : Nat} (v : Vector Byte n) (k : Nat) {j : Nat} (hj : j < 4) :
    (bufferWord v k).toNat / 2 ^ (8 * j) % 256 = byteNat v (4 * k + j) := by
  have hbyte : ∀ i, byteNat v i < 256 := fun i => (v[i]?.getD 0).isLt
  have := hbyte (4 * k)
  have := hbyte (4 * k + 1)
  have := hbyte (4 * k + 2)
  have := hbyte (4 * k + 3)
  rw [← laneNat_eq_bufferWord_toNat, laneNat]
  interval_cases j
  · simp only [Nat.mul_zero, pow_zero, Nat.add_zero]
    omega
  all_goals omega

theorem readBuf_lane (o : OtpState) (b : Buf) (k : Nat) {j : Nat} (hj : j < 4) :
    (readBuf o b k).toNat / 2 ^ (8 * j) % 256 = bufferNat o b (4 * k + j) := by
  cases b <;> exact bufferWord_lane _ k hj

theorem buf_window_end_le (b : Buf) : b.addr % 4 = 0 ∧ b.addr + b.size ≤ 4096 := by
  cases b <;> decide

theorem busValue_buf_addr (o : OtpState) {b : Buf} {k : Nat} (hk : 4 * k < b.size) :
    busValue o (BitVec.ofNat 12 (b.addr + 4 * k)) = readBuf o b k := by
  obtain ⟨halign, hend⟩ := buf_window_end_le b
  have haddr : (BitVec.ofNat 12 (b.addr + 4 * k)).toNat = b.addr + 4 * k := by
    rw [BitVec.toNat_ofNat, Nat.mod_eq_of_lt (by omega)]
  apply BitVec.eq_of_toNat_eq
  rw [← mapNat_eq_busValue_toNat o (by omega), haddr, mapNat_buf_addr o hk]

theorem busValue_lane (o : OtpState) (b : Buf) {k j : Nat} (hk : 4 * k < b.size) (hj : j < 4) :
    (busValue o (BitVec.ofNat 12 (b.addr + 4 * k))).toNat / 2 ^ (8 * j) % 256
      = bufferNat o b (4 * k + j) := by
  rw [busValue_buf_addr o hk, readBuf_lane o b k hj]

theorem highHalf_append_lowHalf (x : Dword) : highHalf x ++ lowHalf x = x := by
  apply BitVec.eq_of_toNat_eq
  rw [append_toNat_eq_mul_add, highHalf_toNat, lowHalf_toNat]
  omega

/-- Two registers that read as the halves of a 64-bit value give it back, the upper one in front. -/
theorem dword_eq_busValue_append (o : OtpState) {x : Dword} {hi lo : Reg} {ahi alo : Offset}
    (hhi : readReg o hi = highHalf x) (hlo : readReg o lo = lowHalf x)
    (hahi : ahi.toNat = hi.addr) (halo : alo.toNat = lo.addr) :
    x = busValue o ahi ++ busValue o alo := by
  rw [busValue_of_eq_addr o hahi, busValue_of_eq_addr o halo, hhi, hlo, highHalf_append_lowHalf]

/-- Settles O13: the lane rule at each buffer window, and each 64-bit register as its two halves. -/
theorem busLanesAreLittleEndian : Obligations.BusLanesAreLittleEndian := by
  intro o k j hj
  have lane := fun (b : Buf) (hk : 4 * k < b.size) => busValue_lane o b hk hj
  refine ⟨fun hk => lane .codeTxt ?_, fun hk => lane .sub ?_, fun hk => lane .dig ?_,
    fun hk => lane .key ?_, fun hk => lane .txt ?_, ?time, ?ctr, ?matchCtr⟩
  case time => exact dword_eq_busValue_append o (hi := .timeHi) (lo := .timeLo) rfl rfl rfl rfl
  case ctr => exact dword_eq_busValue_append o (hi := .ctrHi) (lo := .ctrLo) rfl rfl rfl rfl
  case matchCtr =>
    exact dword_eq_busValue_append o (hi := .matchCtrHi) (lo := .matchCtrLo) rfl rfl rfl rfl
  all_goals
    simp only [Buf.size, Config.codeSize, Config.subSize, Config.digSize, Config.keyMax,
      Config.txtMax]
    omega

end Sys2Proof.Claims

/-!
PROOF. The command word (R80 to R83): which words are commands, how a CMD write to an idle block is accepted,
and how the engine completes an illegal word.
-/

namespace Sys2Proof.Claims

open Sys2Proof.Machine

/-! ### Which words are commands -/

theorem zField_append_opField (w : Word) : zField w ++ opField w = w := by
  apply BitVec.eq_of_toNat_eq
  have := w.isLt
  rw [append_toNat_eq_mul_add, zField, opField, extractLsb'_toNat_eq_div_mod,
    extractLsb'_toNat_eq_div_mod]
  omega

theorem eq_opcode_of_decodeOp {op : BitVec 4} {i : Instr} (h : decodeOp op = some i) :
    op = opcode i := by
  cases i <;> revert op <;> decide

/-- The decoder accepts no word but the commands' own: with Z = 0 the word is its opcode. -/
theorem eq_encode_of_decode {w : Word} {i : Instr} (h : decode w = .ok i) : w = encode i := by
  unfold decode at h
  split at h
  · cases h
  · rename_i hz
    split at h
    · rename_i j hop
      cases h
      rw [← zField_append_opField w, not_not.mp hz, eq_opcode_of_decodeOp hop, encode]
    · cases h

theorem exists_eq_encode_iff (w : Word) :
    (∃ i, w = encode i) ↔ 1 ≤ w.toNat ∧ w.toNat ≤ 7 := by
  constructor
  · rintro ⟨i, rfl⟩
    cases i <;> decide
  · rintro ⟨hlow, hhigh⟩
    interval_cases hw : w.toNat
    · exact ⟨.b32enc, BitVec.eq_of_toNat_eq hw⟩
    · exact ⟨.b32dec, BitVec.eq_of_toNat_eq hw⟩
    · exact ⟨.trunc, BitVec.eq_of_toNat_eq hw⟩
    · exact ⟨.hotp, BitVec.eq_of_toNat_eq hw⟩
    · exact ⟨.tdiv, BitVec.eq_of_toNat_eq hw⟩
    · exact ⟨.totp, BitVec.eq_of_toNat_eq hw⟩
    · exact ⟨.verify, BitVec.eq_of_toNat_eq hw⟩

theorem exists_decode_eq_error {w : Word} (h : ¬ ∃ i, w = encode i) :
    ∃ e, decode w = .error e := by
  cases hd : decode w with
  | error e => exact ⟨e, rfl⟩
  | ok i => exact absurd ⟨i, eq_encode_of_decode hd⟩ h

theorem wellFormed_eq_true (i : Instr) : i.wellFormed = true := by cases i <;> rfl

/-! ### Acceptance -/

theorem busWrite_cmd (v : Word) {o : OtpState} (hidle : o.busy = false) :
    busWrite 0x000#12 v o = acceptCommand v o := by
  have hcmd : locate 0x000#12 = .reg .cmd := locate_of_eq_addr _ _ rfl
  simp only [busWrite_of_idle 0x000#12 v o hidle (by decide), hcmd, writeReg]

/-- Settles O7: offset 0 is CMD, and the write of it to an idle block is `acceptCommand`. -/
theorem commandWriteIsAccepted : Obligations.CommandWriteIsAccepted := by
  intro s rest v hwrite hidle
  rw [step_write hwrite rfl, busWrite_cmd v hidle, acceptCommand, statusAccept]

/-! ### Completion of an illegal word -/

theorem step_of_engineSteps {s : State} (h : EngineSteps s) : step s = engineStep (takeTurn s) := by
  obtain ⟨hengine, hbusy⟩ := h
  simp only [step, hengine, engineTurn, takeTurn_otp, hbusy, if_true]

theorem raiseError_eq_completedErr (e : CmdError) (o : OtpState) :
    raiseError e o = completedErr e.code o := rfl

theorem engineStep_of_decode_error {s : State} {e : DecodeError}
    (h : decode s.otp.pending = .error e) :
    engineStep s = .next { s with otp := completedErr 5 s.otp } := by
  simp only [engineStep, h, complete_eq_next, commit_error, raiseError_eq_completedErr, CmdError.code]

/-- Settles O3: the illegal words are those outside 1 to 7, and the words 1 to 7 are the commands' own;
acceptance is O7's and does not ask which of the two a word is. -/
theorem illegalWordCompletesWithBadCommand : Obligations.IllegalWordCompletesWithBadCommand := by
  refine fun v => ⟨fun hillegal => ⟨fun s rest hwrite hidle => ?accepted,
    fun s hengine hv => ?completes⟩, fun hlegal => ?command⟩
  case accepted => exact ⟨_, commandWriteIsAccepted s rest v hwrite hidle, rfl, rfl⟩
  case completes =>
    have hno : ¬ ∃ i, v = encode i := by rw [exists_eq_encode_iff]; omega
    obtain ⟨e, he⟩ := exists_decode_eq_error hno
    rw [step_of_engineSteps hengine, engineStep_of_decode_error (by rwa [takeTurn_otp, hv]),
      takeTurn_otp]
  case command =>
    obtain ⟨i, rfl⟩ := (exists_eq_encode_iff v).2 (by omega)
    exact ⟨i, decode_encode i, wellFormed_eq_true i, rfl⟩

end Sys2Proof.Claims

/-!
PROOF. The Base32 commands (R105, R110) and the tail bits of a text (R113): bit strings as numbers, what a
legal text is, and that decoding undoes encoding.
-/

namespace Sys2Proof.Claims

open Sys2Proof.Machine

/-! ### Bytes, bits and groups as numbers -/

theorem byteNat_eq_bufferByte_toNat {n : Nat} (v : Vector Byte n) (i : Nat) :
    byteNat v i = (bufferByte v i).toNat := rfl

theorem bitNat_getD {w : Nat} (hw : 0 < w) (xs : List (BitVec w)) (i : Nat) :
    bitNat w (fun j => (xs.getD j 0).toNat) i = (bitOf xs i).toNat := (bitOf_toNat hw xs i).symm

/-- A cut group is the number of its bits. -/
theorem ofMsbs_bitOf_toNat {w v j : Nat} {xs : List (BitVec w)} {f : Nat → Nat}
    (h : ∀ r, r < v → f (v * j + r) = (bitOf xs (v * j + r)).toNat) :
    (ofMsbs (fun r => bitOf xs (v * j + r)) v).toNat = groupNat v f j := by
  rw [ofMsbs_toNat, groupNat]
  congr 1
  exact List.map_congr_left fun r hr => by rw [h r (List.mem_range.1 hr)]

theorem alphaChar_toNat (v : BitVec 5) : (alphaChar v).toNat = charNat v.toNat := by
  revert v; decide

theorem alphaChar_ne_padChar (v : BitVec 5) : alphaChar v ≠ padChar := by
  revert v; decide

/-- The numeric alphabet of the statements is the model's, after folding. -/
theorem charValue_toNat (x : Byte) :
    charValue x.toNat = (alphaValue (foldCase x)).map BitVec.toNat := by
  revert x; decide +kernel

/-! ### What a command leaves -/

theorem yields_of_ok {i : Instr} {s : State} {o : OtpState} {hit : Bool}
    (h : resultOf i s.otp = .ok (o, hit)) : Yields i s (completedOk hit o) := by
  rw [Yields, exec_eq, h]
  rfl

theorem yields_of_error {i : Instr} {s : State} {e : CmdError}
    (h : resultOf i s.otp = .error e) : Yields i s (completedErr e.code s.otp) := by
  rw [Yields, exec_eq, h]
  rfl

/-! ### B32ENC -/

theorem keyTooLong_eq_false {o : OtpState} (h : o.keyLen.toNat ≤ 80) : keyTooLong o = false :=
  Bool.eq_false_iff.2 fun hlong => by rw [keyTooLong_iff] at hlong; omega

theorem keyBit_eq_bitOf (o : OtpState) (i : Nat) : keyBit o i = (bitOf (keyBytes o) i).toNat := by
  rw [bitOf_toNat (by decide), keyBytes, toList_take_getD, keyBit, keyLength]
  by_cases hi : i < 8 * o.keyLen.toNat
  · rw [if_pos hi, if_pos (by omega)]
    rfl
  · rw [if_neg hi, if_neg (by omega)]
    simp

theorem unpaddedLength_le_encodedLength (o : OtpState) : unpaddedLength o ≤ encodedLength o := by
  unfold encodedLength
  split <;> omega

section Encode

variable {o : OtpState} (h : o.keyLen.toNat ≤ 80)
include h

theorem textLengthOf_keyBytes : textLengthOf (keyBytes o).length = unpaddedLength o := by
  rw [keyBytes_length (keyTooLong_eq_false h)]
  rfl

theorem base32Encode_keyBytes_length :
    (base32Encode o.pad (keyBytes o)).length = encodedLength o := by
  rw [base32Encode_length, textLengthOf_keyBytes h]
  rfl

theorem encodedLength_le : encodedLength o ≤ 128 := by
  unfold encodedLength unpaddedLength
  split <;> omega

theorem base32Encode_keyBytes_getD_toNat {i : Nat} (hi : i < encodedLength o) :
    ((base32Encode o.pad (keyBytes o)).getD i 0).toNat = encodedByte o i := by
  rw [base32Encode_getD _ _ _ (by rwa [base32Encode_keyBytes_length h]), textLengthOf_keyBytes h,
    encodedByte, if_pos hi]
  split
  · rw [alphaChar_toNat, ofMsbs_bitOf_toNat fun r _ => keyBit_eq_bitOf o _]
  · rfl

theorem byteNat_overlay_base32Encode {i : Nat} (hi : i < 128) :
    byteNat (overlay o.txt 0 (base32Encode o.pad (keyBytes o))) i = encodedByte o i := by
  rw [byteNat_eq_bufferByte_toNat, bufferByte_overlay, base32Encode_keyBytes_length h]
  by_cases hlt : i < encodedLength o
  · rw [if_pos (by omega)]
    exact base32Encode_keyBytes_getD_toNat h hlt
  · have := unpaddedLength_le_encodedLength o
    rw [if_neg (by omega), encodedByte, if_neg (by omega), if_neg hlt]
    rfl

theorem b32encCmd_of_le : b32encCmd o =
    .ok ({ o with txt := overlay o.txt 0 (base32Encode o.pad (keyBytes o)),
                  txtLen := BitVec.ofNat 8 (base32Encode o.pad (keyBytes o)).length }, false) := by
  rw [b32encCmd, keyTooLong_eq_false h]
  rfl

theorem ofNat_base32Encode_length_toNat :
    (BitVec.ofNat 8 (base32Encode o.pad (keyBytes o)).length).toNat = encodedLength o := by
  have := encodedLength_le h
  rw [BitVec.toNat_ofNat, base32Encode_keyBytes_length h, Nat.mod_eq_of_lt (by omega)]

end Encode

/-- Settles O21: the written text is `base32Encode` of the secret, byte by byte. -/
theorem base32EncodeWritesTheText : Obligations.Base32EncodeWritesTheText := by
  refine ⟨rfl, fun s => ⟨fun hlong => ?error, fun hlen => ?text⟩⟩
  case error =>
    refine yields_of_error (e := .lengthRange) ?_
    rw [resultOf, b32encCmd, keyTooLong_iff.2 hlong]
    rfl
  case text =>
    exact ⟨_, yields_of_ok (b32encCmd_of_le hlen), ofNat_base32Encode_length_toNat hlen,
      fun i hi => byteNat_overlay_base32Encode hlen hi, rfl⟩

/-! ### The data of a text and its pads -/

/-- The trailing pads are those from `d` on, when the character before `d` is none. -/
theorem trailingPads_eq_sub {u : List Byte} {d : Nat} (hd : d ≤ u.length)
    (hpads : ∀ i, d ≤ i → i < u.length → u.getD i 0 = padChar)
    (hdata : ∀ i, i < d → u.getD i 0 ≠ padChar) : trailingPads u = u.length - d := by
  obtain ⟨hle, htrail, hlast⟩ := trailingPads_spec u
  have hmin : d ≤ u.length - trailingPads u := by
    by_contra hlt
    exact hdata (d - 1) (by omega) (htrail (d - 1) (by omega) (by omega))
  have hmax : u.length - trailingPads u ≤ d := by
    by_contra hlt
    exact hlast (by omega) (hpads _ (by omega) (by omega))
  omega

theorem exists_alphaValues_iff (xs : List Byte) :
    (∃ vs, alphaValues xs = some vs) ↔ ∀ i, i < xs.length → alphaValue (xs.getD i 0) ≠ none := by
  simp only [alphaValues_eq_some_iff]
  constructor
  · rintro ⟨vs, _, hvs⟩ i hi
    rw [hvs i hi]
    exact Option.some_ne_none _
  · intro hall
    refine ⟨xs.map fun x => (alphaValue x).getD 0, List.length_map _, fun i hi => ?_⟩
    obtain ⟨v, hv⟩ := Option.ne_none_iff_exists'.1 (hall i hi)
    rw [List.getD_eq_getElem _ _ hi] at hv ⊢
    simp [hv, hi]

theorem getD_take_of_lt {u : List Byte} {d i : Nat} (hi : i < d) :
    (u.take d).getD i 0 = u.getD i 0 := by
  rw [List.getD_eq_getElem?_getD, List.getElem?_take_of_lt hi, List.getD_eq_getElem?_getD]

/-! ### B32DEC -/

theorem textTooLong_eq_false {o : OtpState} (h : o.txtLen.toNat ≤ 128) : textTooLong o = false :=
  Bool.eq_false_iff.2 fun hlong => by rw [textTooLong_iff] at hlong; omega

/-- TXT[0..TXT_LEN) after folding (R111). -/
def foldedText (o : OtpState) : List Byte := (textBytes o).map foldCase

theorem foldedText_getD (o : OtpState) {i : Nat} (hi : i < (foldedText o).length) :
    (foldedText o).getD i 0 = foldCase (bufferByte o.txt i) := by
  have hget := toList_take_getD o.txt (textLength o) i
  simp only [foldedText, textBytes, List.length_map, List.length_take, lt_min_iff] at hi
  rw [if_pos hi.1, List.getD_eq_getElem _ _ (by simpa using hi)] at hget
  rw [← hget, foldedText, textBytes, List.getD_eq_getElem _ _ (by simpa using hi), List.getElem_map]

theorem foldedText_eq_padChar_iff (o : OtpState) {i : Nat} (hi : i < (foldedText o).length) :
    (foldedText o).getD i 0 = padChar ↔ byteNat o.txt i = 0x3D := by
  rw [foldedText_getD o hi, foldCase_eq_padChar, ← BitVec.toNat_inj]
  rfl

theorem charValue_byteNat (o : OtpState) {i : Nat} (hi : i < (foldedText o).length) :
    charValue (byteNat o.txt i) = (alphaValue ((foldedText o).getD i 0)).map BitVec.toNat := by
  rw [foldedText_getD o hi, byteNat_eq_bufferByte_toNat, charValue_toNat]

section Decode

variable {o : OtpState} (h : o.txtLen.toNat ≤ 128)
include h

theorem foldedText_length : (foldedText o).length = o.txtLen.toNat := by
  rw [foldedText, List.length_map, textBytes_length (textTooLong_eq_false h)]

/-- The first `d` characters of TXT are data exactly when each has a value. -/
theorem exists_alphaValues_take_iff {d : Nat} (hd : d ≤ o.txtLen.toNat) :
    (∃ vs, alphaValues ((foldedText o).take d) = some vs) ↔
      ∀ i, i < d → charValue (byteNat o.txt i) ≠ none := by
  have hlen := foldedText_length h
  rw [exists_alphaValues_iff, List.length_take, hlen, min_eq_left hd]
  refine forall₂_congr fun i hi => ?_
  rw [charValue_byteNat o (by omega), ne_eq, ne_eq, Option.map_eq_none_iff, getD_take_of_lt hi]

/-- A legal text, read off the folded text: its data and its trailing pads. -/
theorem legalText_iff {d : Nat} : LegalText o d ↔
    d = o.txtLen.toNat - trailingPads (foldedText o) ∧
    (∃ vs, alphaValues ((foldedText o).take d) = some vs) ∧
    padLegal o.txtLen.toNat (trailingPads (foldedText o)) = true ∧
    illegalResidue (d % 8) = false := by
  have hlen := foldedText_length h
  obtain ⟨hle, htrail, -⟩ := trailingPads_spec (foldedText o)
  rw [hlen] at hle htrail
  have hrules := padLegal_and_residue_iff _ _ hle
  constructor
  · rintro ⟨hd, hdata, hpads, hres, hpad⟩
    have hp : trailingPads (foldedText o) = o.txtLen.toNat - d := by
      rw [← hlen]
      refine trailingPads_eq_sub (by omega) (fun i hi hi' => ?_) (fun i hi heq => ?_)
      · exact (foldedText_eq_padChar_iff o hi').2 (hpads i hi (by omega))
      · refine hdata i hi ?_
        rw [charValue_byteNat o (by omega), heq, alphaValue_padChar]
        rfl
    have hd' : d = o.txtLen.toNat - trailingPads (foldedText o) := by omega
    rw [← hd'] at hrules
    exact ⟨hd', (exists_alphaValues_take_iff h hd).2 hdata, hrules.2 ⟨hres, by omega⟩⟩
  · rintro ⟨hd, hvs, hlegal⟩
    rw [← hd] at hrules
    obtain ⟨hres, hpad⟩ := hrules.1 hlegal
    refine ⟨by omega, (exists_alphaValues_take_iff h (by omega)).1 hvs, fun i hi hi' => ?_, hres,
      by omega⟩
    exact (foldedText_eq_padChar_iff o (by omega)).1 (htrail i (by omega) hi')

/-- TXT decodes exactly when it is legal, and then to the whole bytes of its data's values. -/
theorem base32Decode_textBytes_iff {b : List Byte} :
    base32Decode false (textBytes o) = some b ↔
      ∃ d vs, LegalText o d ∧ alphaValues ((foldedText o).take d) = some vs ∧
        b = regroup 8 vs (byteLengthOf d) := by
  rw [base32Decode_eq_some_iff, textBytes_length (textTooLong_eq_false h)]
  change padLegal _ (trailingPads (foldedText o)) = true ∧ _ ↔ _
  constructor
  · rintro ⟨hpad, hres, vs, hvs, -, hb⟩
    exact ⟨_, vs, (legalText_iff h).2 ⟨rfl, ⟨vs, hvs⟩, hpad, hres⟩, hvs, hb⟩
  · rintro ⟨d, vs, hlegal, hvs, hb⟩
    obtain ⟨rfl, -, hpad, hres⟩ := (legalText_iff h).1 hlegal
    exact ⟨hpad, hres, vs, hvs, by simp, hb⟩

theorem textBit_eq_bitOf {d i : Nat} {vs : List (BitVec 5)} (hd : d ≤ o.txtLen.toNat)
    (hvs : alphaValues ((foldedText o).take d) = some vs) (hi : i < 5 * d) :
    textBit o i = (bitOf vs i).toNat := by
  have hlen := foldedText_length h
  obtain ⟨-, hval⟩ := (alphaValues_eq_some_iff _ _).1 hvs
  have hchar := hval (i / 5) (by rw [List.length_take]; omega)
  rw [getD_take_of_lt (by omega)] at hchar
  rw [textBit, bitOf_toNat (by decide), bitNat, charValue_byteNat o (by omega), hchar]
  rfl

/-- Writing the bytes of a legal text is what SecretDecoded says. -/
theorem secretDecoded_writeKey {d : Nat} {vs : List (BitVec 5)} (hd : d ≤ o.txtLen.toNat)
    (hvs : alphaValues ((foldedText o).take d) = some vs) :
    SecretDecoded o d (writeKey (regroup 8 vs (byteLengthOf d)) o) := by
  have hlen : (regroup 8 vs (byteLengthOf d)).length = 5 * d / 8 := regroup_length _ _ _
  refine ⟨?keyLen, fun i hi => ?key, rfl⟩
  case keyLen =>
    rw [writeKey, hlen, BitVec.toNat_ofNat, Nat.mod_eq_of_lt (by omega)]
  case key =>
    rw [writeKey, byteNat_eq_bufferByte_toNat, bufferByte_overlay, hlen]
    by_cases hlt : i < 5 * d / 8
    · rw [if_pos (by omega), if_pos hlt, Nat.sub_zero, regroup_getD _ _ (byteLengthOf d) _ hlt]
      exact ofMsbs_bitOf_toNat fun r hr => textBit_eq_bitOf h hd hvs (by omega)
    · rw [if_neg (by omega), if_neg hlt]
      rfl

end Decode

theorem params_strictTail : Config.params.strictTail = false := rfl

theorem b32decCmd_of_decode_eq_none {o : OtpState} (h : o.txtLen.toNat ≤ 128)
    (hnone : base32Decode false (textBytes o) = none) :
    b32decCmd Config.params o = .error .invalidEncoding := by
  simp [b32decCmd, textTooLong_eq_false h, params_strictTail, hnone]

theorem b32decCmd_of_decode_eq_some {o : OtpState} {b : List Byte} (h : o.txtLen.toNat ≤ 128)
    (hsome : base32Decode false (textBytes o) = some b) :
    b32decCmd Config.params o = .ok (writeKey b o, false) := by
  simp [b32decCmd, textTooLong_eq_false h, params_strictTail, hsome]

/-- Settles O23: TXT decodes exactly when it is legal (`base32Decode_textBytes_iff`), and what is written is
the secret (`secretDecoded_writeKey`). -/
theorem base32DecodeWritesTheSecretOrRejects : Obligations.Base32DecodeWritesTheSecretOrRejects := by
  refine ⟨rfl, fun s => ⟨fun hlong => ?tooLong, fun hlen hillegal => ?illegal,
    fun d hlen hlegal => ?legal⟩⟩
  case tooLong =>
    refine yields_of_error (e := .lengthRange) ?_
    rw [resultOf, b32decCmd, textTooLong_iff.2 hlong]
    rfl
  case illegal =>
    have hnone : base32Decode false (textBytes s.otp) = none := Option.eq_none_iff_forall_ne_some.2
      fun b hb => by
        obtain ⟨d, _, hlegal, -⟩ := (base32Decode_textBytes_iff hlen).1 hb
        exact hillegal ⟨d, hlegal⟩
    exact yields_of_error (i := .b32dec) (b32decCmd_of_decode_eq_none hlen hnone)
  case legal =>
    obtain ⟨-, ⟨vs, hvs⟩, -⟩ := (legalText_iff hlen).1 hlegal
    have hsome := (base32Decode_textBytes_iff hlen).2 ⟨d, vs, hlegal, hvs, rfl⟩
    exact ⟨_, yields_of_ok (b32decCmd_of_decode_eq_some hlen hsome),
      secretDecoded_writeKey hlen hlegal.1 hvs⟩

/-! ### Tail bits -/

theorem tailClear_iff (vs : List (BitVec 5)) : tailClear vs = true ↔
    ∀ i, 8 * byteLengthOf vs.length ≤ i → i < 5 * vs.length → bitOf vs i = false := by
  simp only [tailClear, List.all_eq_true, List.mem_range, Bool.not_eq_true']
  constructor
  · intro hclear i hi hi'
    have := hclear (i - 8 * byteLengthOf vs.length) (by omega)
    rwa [Nat.add_sub_cancel' hi] at this
  · exact fun hclear r hr => hclear _ (by omega) (by omega)

/-- The strict decoder accepts less than the lenient one and answers the same. -/
theorem base32Decode_of_strict {t b : List Byte} (h : base32Decode true t = some b) :
    base32Decode false t = some b := by
  rw [base32Decode_eq_some_iff] at h ⊢
  obtain ⟨hpad, hres, vs, hvs, -, hb⟩ := h
  exact ⟨hpad, hres, vs, hvs, by simp, hb⟩

theorem base32Decode_strict_eq_none {t b : List Byte} (h : base32Decode false t = some b)
    (hne : base32Decode true t ≠ some b) : base32Decode true t = none :=
  Option.eq_none_iff_forall_ne_some.2 fun _ hb' => hne <| by
    rw [hb', ← base32Decode_of_strict hb', h]

/-- The values of a decoded text: its bytes are their leading bits, and the strict decoder asks that the
remaining bits be clear. -/
theorem exists_values_of_base32Decode {t b : List Byte} (h : base32Decode false t = some b) :
    ∃ vs, alphaValues ((t.map foldCase).take (t.length - trailingPads (t.map foldCase))) = some vs ∧
      b = regroup 8 vs (byteLengthOf vs.length) ∧
      (base32Decode true t = some b ↔ tailClear vs = true) := by
  obtain ⟨hpad, hres, vs, hvs, -, hb⟩ := (base32Decode_eq_some_iff false t b).1 h
  have hlen : vs.length = t.length - trailingPads (t.map foldCase) := by
    rw [((alphaValues_eq_some_iff _ _).1 hvs).1, List.length_take, List.length_map]
    omega
  refine ⟨vs, hvs, hlen ▸ hb, ?_⟩
  rw [base32Decode_eq_some_iff]
  constructor
  · rintro ⟨-, -, vs', hvs', hclear, -⟩
    obtain rfl : vs' = vs := Option.some.inj (hvs'.symm.trans hvs)
    exact hclear rfl
  · exact fun hclear => ⟨hpad, hres, vs, hvs, fun _ => hclear, hb⟩

/-! ### The round trip -/

theorem alphaValues_map_alphaChar (vs : List (BitVec 5)) :
    alphaValues (vs.map alphaChar) = some vs := by
  induction vs with
  | nil => rfl
  | cons v vs ih => rw [List.map_cons, alphaValues, alphaValue_alphaChar, ih]

/-- An encoded text is its own folding: it holds capitals, digits and pads alone. -/
theorem map_foldCase_base32Encode (pad : Bool) (b : List Byte) :
    (base32Encode pad b).map foldCase = base32Encode pad b := by
  have hpad : foldCase padChar = padChar := (foldCase_eq_padChar _).2 rfl
  have hdata : foldCase ∘ alphaChar = alphaChar := funext foldCase_alphaChar
  rw [base32Encode, List.map_append, List.map_map, hdata]
  cases pad <;> simp [hpad]

theorem textLengthOf_le_base32Encode_length (pad : Bool) (b : List Byte) :
    textLengthOf b.length ≤ (base32Encode pad b).length := by
  rw [base32Encode_length]
  split <;> omega

theorem trailingPads_base32Encode (pad : Bool) (b : List Byte) :
    trailingPads (base32Encode pad b) = (base32Encode pad b).length - textLengthOf b.length := by
  have hle := textLengthOf_le_base32Encode_length pad b
  refine trailingPads_eq_sub hle (fun i hi hi' => ?_) (fun i hi => ?_)
  · rw [base32Encode_getD pad b i hi', if_neg (by omega)]
  · rw [base32Encode_getD pad b i (by omega), if_pos hi]
    exact alphaChar_ne_padChar _

theorem take_base32Encode (pad : Bool) (b : List Byte) :
    (base32Encode pad b).take (textLengthOf b.length) =
      (regroup 5 b (textLengthOf b.length)).map alphaChar := by
  rw [base32Encode, List.take_left' (by simp)]

/-- An encoded text has no impossible length and no pad or the canonical one (R103). -/
theorem padLegal_and_residue_base32Encode (pad : Bool) (b : List Byte) :
    padLegal (base32Encode pad b).length (trailingPads (base32Encode pad b)) = true ∧
      illegalResidue (textLengthOf b.length % 8) = false := by
  have hle := textLengthOf_le_base32Encode_length pad b
  have hrules := padLegal_and_residue_iff _ _ (trailingPads_spec (base32Encode pad b)).1
  have hlen := base32Encode_length pad b
  rw [trailingPads_base32Encode, Nat.sub_sub_self hle] at hrules
  rw [trailingPads_base32Encode]
  refine hrules.2 ⟨by unfold textLengthOf; omega, ?_⟩
  split at hlen <;> omega

theorem tailClear_regroup (b : List Byte) :
    tailClear (regroup 5 b (textLengthOf b.length)) = true := by
  rw [tailClear_iff, regroup_length, byteLengthOf_textLengthOf]
  exact fun i hi hi' => by rw [bitOf_regroup _ _ _ _ hi', bitOf_of_ge (by decide) _ _ hi]

/-- Bytes cut into 5-bit values and cut back are the bytes. -/
theorem regroup_regroup (b : List Byte) :
    regroup 8 (regroup 5 b (textLengthOf b.length)) b.length = b := by
  refine list_eq_of_bitOf_eq (regroup_length _ _ _) fun i hi => ?_
  rw [regroup_length] at hi
  rw [bitOf_regroup _ _ _ _ hi, bitOf_regroup _ _ _ _ (by unfold textLengthOf; omega)]

/-- The round trip, with either pad setting and either tail setting (R113). -/
theorem base32Decode_base32Encode (strict pad : Bool) (b : List Byte) :
    base32Decode strict (base32Encode pad b) = some b := by
  obtain ⟨hpad, hres⟩ := padLegal_and_residue_base32Encode pad b
  have hdata : (base32Encode pad b).length - trailingPads (base32Encode pad b) =
      textLengthOf b.length := by
    rw [trailingPads_base32Encode, Nat.sub_sub_self (textLengthOf_le_base32Encode_length pad b)]
  rw [base32Decode_eq_some_iff, map_foldCase_base32Encode, hdata, take_base32Encode,
    byteLengthOf_textLengthOf]
  exact ⟨hpad, hres, _, alphaValues_map_alphaChar _, fun _ => tailClear_regroup b,
    (regroup_regroup b).symm⟩

/-- Settles O26: `exists_values_of_base32Decode` and the round trip, with bits as numbers. -/
theorem tailBitsAreDiscardedUnlessStrict : Obligations.TailBitsAreDiscardedUnlessStrict := by
  refine ⟨fun t b hb => ?_, base32Decode_base32Encode⟩
  obtain ⟨vs, hvs, hbytes, hstrict⟩ := exists_values_of_base32Decode hb
  have hlen : b.length = byteLengthOf vs.length := by rw [hbytes, regroup_length]
  refine ⟨vs, by rwa [List.length_map], hlen, fun i hi => ?bits, ?tail,
    base32Decode_strict_eq_none hb⟩
  case bits =>
    rw [hlen] at hi
    rw [bitNat_getD (by decide), bitNat_getD (by decide), hbytes, bitOf_regroup _ _ _ _ hi]
  case tail =>
    simp only [hstrict, tailClear_iff, bitNat_getD (w := 5) (by decide), Bool.toNat_eq_zero,
      byteLengthOf]

end Sys2Proof.Claims

/-!
PROOF. Truncation (R133 to R137) and the commands TRUNC (R140) and HOTP (R145): the counter message, the
31-bit value and the decimal text as numbers, and what the two commands answer for each of their operands.
-/

namespace Sys2Proof.Claims

open Sys2Proof.Machine

/-! ### The counter message -/

theorem be64_eq_message (c : Dword) : be64 c = message c :=
  calc be64 c = (List.range 8).map fun i => c.extractLsb' (56 - 8 * i) 8 := rfl
    _ = message c := List.map_congr_left fun i _ => BitVec.eq_of_toNat_eq <| by
      rw [extractLsb'_toNat_eq_div_mod, BitVec.toNat_ofNat]

/-- Settles O31: the message is read byte by byte (`be64_eq_message`), and a byte is a number modulo 2^8. -/
theorem counterMessageIsBigEndian : Obligations.CounterMessageIsBigEndian := by
  refine fun c => ⟨be64_length c, fun i hi => ?_⟩
  have hbyte : (be64 c).getD i 0 = BitVec.ofNat 8 (c.toNat / 2 ^ (56 - 8 * i)) := by
    simp [be64_eq_message, message, List.getD_eq_getElem?_getD, hi]
  rw [hbyte, Nat.shiftRight_eq_div_pow]
  apply BitVec.eq_of_toNat_eq
  rw [BitVec.toNat_ofNat, BitVec.toNat_ofNat, Nat.and_two_pow_sub_one_eq_mod _ 8, Nat.mod_mod]

/-! ### The 31-bit value -/

/-- Settles O28: the value is its four fields side by side, so shifted and joined; that the fields read
back is arithmetic on the value (`extractBinary_toNat`). -/
theorem extractionByShiftAndMask : Obligations.ExtractionByShiftAndMask := by
  intro h o
  have hvalue := extractBinary_toNat h o
  refine ⟨?shifts, by omega, ?_, ?_, ?_, ?_⟩
  case shifts =>
    simp only [extractBinary, BitVec.toNat_append, extractLsb'_toNat_eq_div_mod,
      Nat.shiftLeft_or_distrib, ← Nat.shiftLeft_add, Nat.and_two_pow_sub_one_eq_mod _ 7,
      pow_zero, Nat.div_one]
  all_goals
    apply BitVec.eq_of_toNat_eq
    simp only [extractLsb'_toNat_eq_div_mod]
    omega

/-! ### The decimal text -/

/-- A number cut at `n` decimal digits is the sum of those digits' values. -/
theorem sum_digits_eq_mod (n k : Nat) :
    ((List.range n).map fun j => k / 10 ^ (n - 1 - j) % 10 * 10 ^ (n - 1 - j)).sum = k % 10 ^ n := by
  induction n with
  | zero => simp [Nat.mod_one]
  | succ n ih =>
    have hshift : ((fun j => k / 10 ^ (n - j) % 10 * 10 ^ (n - j)) ∘ Nat.succ) =
        fun j => k / 10 ^ (n - 1 - j) % 10 * 10 ^ (n - 1 - j) := by
      funext j
      rw [Function.comp_apply, Nat.sub_sub, Nat.add_comm 1]
    rw [Nat.add_sub_cancel, List.range_succ_eq_map, List.map_cons, List.map_map, hshift,
      List.sum_cons, ih, Nat.sub_zero, Nat.mod_pow_succ]
    ring

theorem byteNat_decText (n k : Nat) {j : Nat} (hj : j < 8) :
    byteNat (decText n k) j = codeTextByte n k j := by
  rw [byteNat_eq_bufferByte_toNat, bufferByte_decText, codeTextByte]
  simp only [hj, and_true, decDigit, pow10]

/-- Settles O30: the text's bytes (`byteNat_decText`), and the sum of a number's digits
(`sum_digits_eq_mod`). -/
theorem decimalTextReadsBack : Obligations.DecimalTextReadsBack := by
  intro n k _ hn hk
  refine ⟨fun j hj => byteNat_decText n k hj, ?_⟩
  have hdigit : ∀ j ∈ List.range n, (byteNat (decText n k) j - 0x30) * 10 ^ (n - 1 - j) =
      k / 10 ^ (n - 1 - j) % 10 * 10 ^ (n - 1 - j) := fun j hj => by
    have hjn : j < n := List.mem_range.1 hj
    rw [byteNat_decText n k (by omega), codeTextByte, if_pos hjn, Nat.add_sub_cancel_left]
  rw [List.map_congr_left hdigit, sum_digits_eq_mod, Nat.mod_eq_of_lt hk]

/-! ### The truncation of a digest, in plain numbers -/

section Truncate

variable {f : Nat → Nat} {h : List Byte} (hf : ∀ i, i < h.length → f i = (h.getD i 0).toNat)
  (hlen : 20 ≤ h.length)
include hf hlen

theorem dynamicOffset_toNat_eq : (dynamicOffset h).toNat = offsetNat f h.length := by
  rw [dynamicOffset_toNat, offsetNat, hf _ (by omega)]

/-- The four bytes at a dynamic offset lie inside the shortest digest: 15 + 3 < 20. -/
theorem extractBinary_toNat_eq :
    (extractBinary h (dynamicOffset h).toNat).toNat = binaryNat f h.length := by
  have hoff : offsetNat f h.length < 16 := Nat.mod_lt _ (by decide)
  rw [extractBinary_toNat, dynamicOffset_toNat_eq hf hlen, binaryNat, hf _ (by omega),
    hf _ (by omega), hf _ (by omega), hf _ (by omega)]

/-- The code registers hold the truncation of the bytes `f` counts (R138). -/
theorem codeOf_writeCode {n : Nat} (hn : n ≤ 8) (o : OtpState) :
    CodeOf f h.length n (writeCode (truncate h n) o) := by
  have hbinary := extractBinary_toNat_eq hf hlen
  refine ⟨dynamicOffset_toNat_eq hf hlen, hbinary, ?code, fun j hj => ?text⟩
  case code =>
    rw [codeNat, ← hbinary]
    exact truncate_codeBin_toNat h hn
  case text =>
    rw [codeNat, ← hbinary]
    exact byteNat_decText n _ hj

end Truncate

/-! ### The algorithm CFG names -/

theorem hashAlgorithm_eq_algorithm {o : OtpState} (h : o.alg ≠ 3) :
    hashAlgorithm o = some (algorithm o.alg) := by
  unfold hashAlgorithm
  generalize o.alg = a at h ⊢
  revert a
  decide

theorem digestLen_algorithm {a : BitVec 2} (h : a ≠ 3) :
    (algorithm a).digestLen = digestLength a := by
  revert a
  decide

theorem digestLen_range (alg : HashAlg) : 20 ≤ alg.digestLen ∧ alg.digestLen ≤ 64 := by
  cases alg <;> decide

theorem digitsLegal_codeDigits_iff {o : OtpState} :
    digitsLegal (codeDigits o) = true ↔ DigitsLegal o := digitsLegal_iff

/-! ### TRUNC -/

theorem truncCmd_of_no_algorithm {o : OtpState} (h : o.alg = 3) :
    truncCmd o = .error .unsupportedAlgorithm := by
  rw [truncCmd, hashAlgorithm_eq_none_iff.2 h]

theorem truncCmd_of_algorithm {o : OtpState} (h : o.alg ≠ 3) :
    truncCmd o =
      if digitsLegal (codeDigits o) then
        .ok (writeCode (truncate (digestBytes (algorithm o.alg) o) (codeDigits o)) o, false)
      else .error .invalidDigitCount := by
  rw [truncCmd, hashAlgorithm_eq_algorithm h]

theorem codeOf_digestBytes {o : OtpState} (halg : o.alg ≠ 3) (hdigits : DigitsLegal o) :
    CodeOf (byteNat o.dig) (digestLength o.alg) o.digits.toNat
      (writeCode (truncate (digestBytes (algorithm o.alg) o) (codeDigits o)) o) := by
  have hlength := digestBytes_length (algorithm o.alg) o
  rw [← digestLen_algorithm halg, ← hlength]
  refine codeOf_writeCode (fun i hi => ?_) (by rw [hlength]; exact (digestLen_range _).1) hdigits.2 o
  rw [digestBytes, toList_take_getD, if_pos (hlength ▸ hi), byteNat_eq_bufferByte_toNat]

/-- Settles O27: each error of `truncCmd` in its order, and the truncation of DIG (`codeOf_digestBytes`). -/
theorem truncTruncatesTheDigest : Obligations.TruncTruncatesTheDigest := by
  refine ⟨rfl, fun s => ⟨fun halg => ?noAlgorithm, fun halg hdigits => ?digitCount,
    fun halg hdigits => ?code⟩⟩
  case noAlgorithm => exact yields_of_error (i := .trunc) (truncCmd_of_no_algorithm halg)
  case digitCount =>
    refine yields_of_error (i := .trunc) (e := .invalidDigitCount) ?_
    rw [resultOf, truncCmd_of_algorithm halg, if_neg (mt digitsLegal_codeDigits_iff.1 hdigits)]
  case code =>
    refine ⟨_, yields_of_ok ?_, codeOf_digestBytes halg hdigits, rfl⟩
    rw [resultOf, truncCmd_of_algorithm halg, if_pos (digitsLegal_codeDigits_iff.2 hdigits)]

/-! ### The checks HOTP and TOTP share, in order -/

section Operands

variable {o : OtpState}

theorem codeOperands_of_key_too_long (h : 80 < o.keyLen.toNat) :
    codeOperands o = .error .lengthRange := by
  rw [codeOperands, if_pos (keyTooLong_iff.2 h)]

theorem codeOperands_of_no_algorithm (hlen : o.keyLen.toNat ≤ 80) (halg : o.alg = 3) :
    codeOperands o = .error .unsupportedAlgorithm := by
  simp [codeOperands, keyTooLong_eq_false hlen, hashAlgorithm_eq_none_iff.2 halg]

theorem codeOperands_of_digits_illegal (hlen : o.keyLen.toNat ≤ 80) (halg : o.alg ≠ 3)
    (hdigits : ¬ DigitsLegal o) : codeOperands o = .error .invalidDigitCount := by
  simp [codeOperands, keyTooLong_eq_false hlen, hashAlgorithm_eq_algorithm halg,
    mt digitsLegal_codeDigits_iff.1 hdigits]

theorem codeOperands_of_no_secret (hlen : o.keyLen.toNat = 0) (halg : o.alg ≠ 3)
    (hdigits : DigitsLegal o) : codeOperands o = .error .invalidSecretLength := by
  simp [codeOperands, keyTooLong_eq_false (o := o) (by omega), hashAlgorithm_eq_algorithm halg,
    digitsLegal_codeDigits_iff.2 hdigits, keyLength, hlen]

theorem codeOperands_of_legal (hpos : 1 ≤ o.keyLen.toNat) (hlen : o.keyLen.toNat ≤ 80)
    (halg : o.alg ≠ 3) (hdigits : DigitsLegal o) : codeOperands o = .ok (algorithm o.alg) :=
  codeOperands_eq_ok_iff.2 ⟨hlen, hashAlgorithm_eq_algorithm halg,
    digitsLegal_codeDigits_iff.2 hdigits, by omega⟩

end Operands

/-! ### Code generation -/

/-- Byte `i` of the digest a code is generated from is the port's answer to the counter message. -/
theorem genCode_digest_getD_toNat (alg : HashAlg) (key : List Byte) (c : Dword) (n i : Nat) :
    ((genCode Config.params alg key c n).1.getD i 0).toNat = digestNat alg key c i := by
  rw [digestNat, ← be64_eq_message]
  simp [genCode, Config.params, byteNat, List.getD_eq_getElem?_getD]

/-- What HOTP and TOTP write is the digest and the code of KEY for the counter they take. -/
theorem codeGenerated_writeGenerated {o : OtpState} (halg : o.alg ≠ 3) (hdigits : DigitsLegal o)
    (c : Dword) :
    CodeGenerated o c (writeGenerated Config.params (algorithm o.alg) c o) := by
  have hbyte := genCode_digest_getD_toNat (algorithm o.alg) (keyBytes o) c (codeDigits o)
  have hlength := genCode_digest_length Config.params (algorithm o.alg) (keyBytes o) c (codeDigits o)
  obtain ⟨hge, hle⟩ := digestLen_range (algorithm o.alg)
  rw [CodeGenerated, ← digestLen_algorithm halg]
  refine ⟨?code, fun i hi => ?digest, writeGenerated_frame _ _ _ _⟩
  case code =>
    rw [← hlength]
    exact codeOf_writeCode (fun i _ => (hbyte i).symm) (hlength ▸ hge) hdigits.2 _
  case digest =>
    rw [byteNat_eq_bufferByte_toNat, writeGenerated, writeCode_dig, writeDigest_dig,
      bufferByte_overlay, hlength]
    by_cases hi' : i < (algorithm o.alg).digestLen
    · rw [if_pos (by omega), if_pos hi']
      exact hbyte i
    · rw [if_neg (by omega), if_neg hi', byteNat_eq_bufferByte_toNat]

/-! ### HOTP -/

theorem hotpCmd_of_error {p : Config.Params} {o : OtpState} {e : CmdError}
    (h : codeOperands o = .error e) : hotpCmd p o = .error e := by
  rw [hotpCmd, h]

theorem hotpCmd_of_ok {p : Config.Params} {o : OtpState} {alg : HashAlg}
    (h : codeOperands o = .ok alg) : hotpCmd p o = .ok (writeGenerated p alg o.ctr o, false) := by
  rw [hotpCmd, h]

/-- Settles O32: the errors are those of the shared checks, in their order, and on success
`codeGenerated_writeGenerated` at CTR. -/
theorem hotpGeneratesTheCode : Obligations.HotpGeneratesTheCode := by
  have herror {s : State} {e : CmdError} (h : codeOperands s.otp = .error e) :
      Yields .hotp s (completedErr e.code s.otp) :=
    yields_of_error (i := .hotp) (hotpCmd_of_error h)
  refine ⟨rfl, fun s => ⟨fun hlong => ?tooLong, fun hlen halg => ?noAlgorithm,
    fun hlen halg hdigits => ?digitCount, fun hlen halg hdigits => ?noSecret,
    fun hpos hlen halg hdigits => ?code⟩⟩
  case tooLong => exact herror (codeOperands_of_key_too_long hlong)
  case noAlgorithm => exact herror (codeOperands_of_no_algorithm hlen halg)
  case digitCount => exact herror (codeOperands_of_digits_illegal hlen halg hdigits)
  case noSecret => exact herror (codeOperands_of_no_secret hlen halg hdigits)
  case code =>
    exact ⟨_, yields_of_ok (i := .hotp) (hotpCmd_of_ok (codeOperands_of_legal hpos hlen halg hdigits)),
      codeGenerated_writeGenerated halg hdigits s.otp.ctr⟩

end Sys2Proof.Claims

/-!
PROOF. The time-to-counter divider (R160, R162) and the commands TDIV (R165) and TOTP (R170): the quotient
on each side of the epoch, that no command of this block reports TimeBeforeEpoch, and what the two commands
answer for each of their operands.
-/

namespace Sys2Proof.Claims

open Sys2Proof.Machine

/-! ### The divider -/

/-- A number no larger than a time fits the counter. -/
theorem toNat_ofNat_of_le_toNat {t : Dword} {n : Nat} (h : n ≤ t.toNat) :
    (BitVec.ofNat 64 n).toNat = n := by
  rw [BitVec.toNat_ofNat, Nat.mod_eq_of_lt (h.trans_lt t.isLt)]

theorem counterOf_of_lt_epoch {p : Config.Params} {t : Dword} (h : t.toNat < p.t0) :
    counterOf p t = .error .timeBeforeEpoch := if_pos h

theorem counterOf_of_epoch_le {p : Config.Params} {t : Dword} (h : p.t0 ≤ t.toNat) :
    counterOf p t = .ok (BitVec.ofNat 64 ((t.toNat - p.t0) / p.stepSeconds)) := if_neg h.not_gt

/-! ### TDIV -/

theorem tdivCmd_of_error {p : Config.Params} {o : OtpState} {e : CmdError}
    (h : counterOf p o.time = .error e) : tdivCmd p o = .error e := by
  rw [tdivCmd, h]

theorem tdivCmd_of_ok {p : Config.Params} {o : OtpState} {c : Dword}
    (h : counterOf p o.time = .ok c) : tdivCmd p o = .ok ({ o with ctr := c }, false) := by
  rw [tdivCmd, h]

/-- Settles O33: with T0 = 0 the divider always answers (`tdivCmd_eq`), and its quotient is no larger than
TIME. -/
theorem tdivWritesTheCounter : Obligations.TdivWritesTheCounter :=
  ⟨rfl, fun s => ⟨yields_of_ok (i := .tdiv) (tdivCmd_eq s.otp),
    toNat_ofNat_of_le_toNat (Nat.div_le_self _ _)⟩⟩

/-! ### What TOTP answers -/

theorem totpCmd_of_ok {o : OtpState} {alg : HashAlg} (h : codeOperands o = .ok alg) :
    totpCmd Config.params o =
      .ok (writeGenerated Config.params alg (BitVec.ofNat 64 (o.time.toNat / 30))
        { o with ctr := BitVec.ofNat 64 (o.time.toNat / 30) }, false) := by
  rw [totpCmd, h, counterOf_params]

/-- The errors of TOTP are those of its operands: with T0 = 0 the divider adds none. -/
theorem totpCmd_eq_error_iff {o : OtpState} {e : CmdError} :
    totpCmd Config.params o = .error e ↔ codeOperands o = .error e := by
  cases h : codeOperands o with
  | error e' => rw [totpCmd, h]; simp
  | ok alg => simp [totpCmd_of_ok h]

/-! ### TimeBeforeEpoch is not reported by this block -/

theorem code_eq_seven_iff {e : CmdError} : e.code = 7 ↔ e = .timeBeforeEpoch := by
  cases e <;> decide

theorem hotpCmd_eq_error_iff {p : Config.Params} {o : OtpState} {e : CmdError} :
    hotpCmd p o = .error e ↔ codeOperands o = .error e := by
  cases h : codeOperands o with
  | error e' => simp [hotpCmd_of_error h]
  | ok alg => simp [hotpCmd_of_ok h]

theorem codeOperands_ne_timeBeforeEpoch (o : OtpState) :
    codeOperands o ≠ .error .timeBeforeEpoch := by
  rw [codeOperands]
  repeat' split
  all_goals simp

/-- Only the divider raises TimeBeforeEpoch, and with T0 = 0 it does not (`counterOf_params`). -/
theorem resultOf_ne_timeBeforeEpoch (i : Instr) (o : OtpState) :
    resultOf i o ≠ .error .timeBeforeEpoch := by
  cases i with
  | b32enc =>
    rw [resultOf, b32encCmd]
    split <;> simp
  | b32dec =>
    rw [resultOf, b32decCmd]
    repeat' split
    all_goals simp
  | trunc =>
    rw [resultOf, truncCmd]
    repeat' split
    all_goals simp
  | hotp => exact mt hotpCmd_eq_error_iff.1 (codeOperands_ne_timeBeforeEpoch o)
  | tdiv => simp [resultOf, tdivCmd_eq]
  | totp => exact mt totpCmd_eq_error_iff.1 (codeOperands_ne_timeBeforeEpoch o)
  | verify =>
    rw [resultOf, verifyCmd, counterOf_params]
    dsimp only
    repeat' split
    all_goals simp

/-- Settles O36: the two answers of the divider for any parameters, and that no command raises
TimeBeforeEpoch (`resultOf_ne_timeBeforeEpoch`). -/
theorem dividerForAnyEpochAndStep : Obligations.DividerForAnyEpochAndStep := by
  refine ⟨fun p o _ => ⟨fun hbefore => ?before, fun hfrom => ?quotient⟩, fun i s t h => ?never⟩
  case before =>
    rw [tdivCmd_of_error (counterOf_of_lt_epoch hbefore)]
    rfl
  case quotient =>
    refine ⟨_, toNat_ofNat_of_le_toNat (t := o.time) ?_, ?_⟩
    · exact (Nat.div_le_self _ _).trans (Nat.sub_le _ _)
    · rw [tdivCmd_of_ok (counterOf_of_epoch_le hfrom)]
      rfl
  case never =>
    obtain ⟨e, he, rfl⟩ | ⟨w, hit, -, rfl⟩ := exec_cases h
    · rw [raiseError_errcode, Ne, code_eq_seven_iff]
      rintro rfl
      exact resultOf_ne_timeBeforeEpoch i s.otp he
    · rw [statusSucceed_errcode]
      decide

/-! ### TOTP -/

/-- Settles O37: the errors are those of the checks HOTP has too, in their order, and on success
`codeGenerated_writeGenerated` at the counter of TIME. -/
theorem totpGeneratesTheTimedCode : Obligations.TotpGeneratesTheTimedCode := by
  have herror {s : State} {e : CmdError} (h : codeOperands s.otp = .error e) :
      Yields .totp s (completedErr e.code s.otp) :=
    yields_of_error (i := .totp) (totpCmd_eq_error_iff.2 h)
  refine ⟨rfl, fun s => ⟨
    fun hlong => herror (codeOperands_of_key_too_long hlong),
    fun hlen halg => herror (codeOperands_of_no_algorithm hlen halg),
    fun hlen halg hdigits => herror (codeOperands_of_digits_illegal hlen halg hdigits),
    fun hlen halg hdigits => herror (codeOperands_of_no_secret hlen halg hdigits),
    fun hpos hlen halg hdigits => ?_⟩⟩
  have hresult := totpCmd_of_ok (codeOperands_of_legal hpos hlen halg hdigits)
  have hcode := codeGenerated_writeGenerated
    (o := { s.otp with ctr := BitVec.ofNat 64 (s.otp.time.toNat / 30) }) halg hdigits
    (BitVec.ofNat 64 (s.otp.time.toNat / 30))
  exact ⟨_, yields_of_ok (i := .totp) hresult, hcode⟩

end Sys2Proof.Claims

/-!
PROOF. The window search of VERIFY (R180 to R185): the candidates as a numbered sequence, the comparison with
the submitted code in plain numbers, the first match among the candidates, and what the command answers for
each of its operands.
-/

namespace Sys2Proof.Claims

open Sys2Proof.Machine

/-! ### The candidates -/

/-- The pair at distance `i + 1` from the current counter. -/
theorem candidates_pair (cur : Dword) {w i : Nat} (hi : i < w) :
    (candidates cur w)[2 * i + 1]? = some (cur - BitVec.ofNat 64 (i + 1)) ∧
    (candidates cur w)[2 * i + 2]? = some (cur + BitVec.ofNat 64 (i + 1)) := by
  simp only [candidates, List.getElem?_cons_succ]
  exact (flattened_pairs _ _ w).2 i hi

/-- Settles O40: the count is `candidates_length`, the order `candidates_pair`. -/
theorem candidatesInOrder : Obligations.CandidatesInOrder := by
  refine fun cur w => ⟨candidates_length cur w, rfl, rfl, fun i hpos hi => ?_⟩
  obtain ⟨k, rfl⟩ := Nat.exists_eq_add_of_le' hpos
  exact candidates_pair cur hi

/-- The list of candidates is the statements' numbering of them. -/
theorem candidates_getElem? (cur : Dword) {w j : Nat} (hj : j ≤ 2 * w) :
    (candidates cur w)[j]? = some (candidateAt cur j) := by
  cases j with
  | zero => simp [candidates, candidateAt]
  | succ m =>
    obtain ⟨hminus, hplus⟩ := candidates_pair cur (w := w) (i := m / 2) (by omega)
    rcases Nat.mod_two_eq_zero_or_one m with heven | hodd
    · rw [show m + 1 = 2 * (m / 2) + 1 by omega, hminus, candidateAt, if_pos (by omega)]
      congr 3
      omega
    · rw [show m + 1 = 2 * (m / 2) + 2 by omega, hplus, candidateAt, if_neg (by omega)]
      congr 3
      omega

/-! ### The comparison -/

theorem candidateDigits_length (p : Config.Params) (key : List Byte) (c : Dword) :
    (candidateDigits p key c).length = 6 := by
  simp [candidateDigits, Config.verifyDigits]

/-- The digits VERIFY compares are those of the six-digit SHA-1 code (R180). -/
theorem candidateDigits_getD_toNat (key : List Byte) (c : Dword) {j : Nat} (hj : j < 6) :
    ((candidateDigits Config.params key c).getD j 0).toNat = verifyCodeByte key c j := by
  have hbyte := genCode_digest_getD_toNat .sha1 key c 6
  have hlength := genCode_digest_length Config.params .sha1 key c 6
  obtain ⟨-, -, -, htext⟩ := codeOf_writeCode (fun i _ => (hbyte i).symm)
    (hlength ▸ (digestLen_range .sha1).1) (n := 6) (by decide) OtpState.reset
  rw [candidateDigits, toList_take_getD, Config.verifyDigits, if_pos hj, verifyCodeByte]
  rw [hlength] at htext
  exact htext j (by omega)

/-- Byte strings of one length are equal when their bytes are, as numbers. -/
theorem eq_iff_getD_toNat {n : Nat} {xs ys : List Byte} (hx : xs.length = n) (hy : ys.length = n) :
    xs = ys ↔ ∀ j, j < n → (ys.getD j 0).toNat = (xs.getD j 0).toNat := by
  refine ⟨fun h j _ => by rw [h], fun h => List.ext_getElem (hx.trans hy.symm) fun j hj hj' => ?_⟩
  have := h j (hx ▸ hj)
  rw [List.getD_eq_getElem _ _ hj, List.getD_eq_getElem _ _ hj'] at this
  exact (BitVec.eq_of_toNat_eq this).symm

theorem submittedDigits_length (o : OtpState) : (submittedDigits o).length = 6 := by
  simp [submittedDigits, Config.verifyDigits]

theorem submittedDigits_getD_toNat (o : OtpState) {j : Nat} (hj : j < 6) :
    ((submittedDigits o).getD j 0).toNat = byteNat o.sub j := by
  rw [submittedDigits, toList_take_getD, Config.verifyDigits, if_pos hj, byteNat_eq_bufferByte_toNat]

/-- A candidate matches exactly when the submitted code is its code (R183). -/
theorem candidateMatches_iff {key : List Byte} {o : OtpState} {c : Dword} :
    candidateMatches Config.params key o c = true ↔ Submitted o key c := by
  rw [candidateMatches, Bool.and_eq_true, submittedLengthLegal, beq_iff_eq, beq_iff_eq,
    eq_iff_getD_toNat (candidateDigits_length ..) (submittedDigits_length o), Submitted,
    Config.verifyDigits]
  refine and_congr_right fun _ => forall₂_congr fun j hj => ?_
  rw [submittedDigits_getD_toNat o hj, candidateDigits_getD_toNat key c hj]

/-! ### The search -/

/-- The match found is the candidate of the lowest number whose code is submitted (R182). -/
theorem firstMatch_eq_some_iff_submitted {key : List Byte} {cur c : Dword} {o : OtpState} :
    firstMatch Config.params key cur o = some c ↔
      ∃ j, j ≤ 2 * o.window.toNat ∧ Submitted o key (candidateAt cur j) ∧
        (∀ k, k < j → ¬ Submitted o key (candidateAt cur k)) ∧ c = candidateAt cur j := by
  have hlt (j : Nat) : j < (candidates cur (windowOffset o)).length ↔ j ≤ 2 * o.window.toNat := by
    rw [candidates_length]
    exact Nat.lt_succ_iff
  have hget (j : Nat) (hj : j < (candidates cur (windowOffset o)).length) :
      (candidates cur (windowOffset o))[j] = candidateAt cur j :=
    (List.getElem_eq_iff hj).2 (candidates_getElem? cur ((hlt j).1 hj))
  simp only [firstMatch_eq_some_iff, hget, Bool.not_eq_true', ← Bool.not_eq_true,
    candidateMatches_iff]
  constructor
  · rintro ⟨hsub, j, hj, rfl, hfirst⟩
    exact ⟨j, (hlt j).1 hj, hsub, hfirst, rfl⟩
  · rintro ⟨j, hj, hsub, hfirst, rfl⟩
    exact ⟨hsub, j, (hlt j).2 hj, rfl, hfirst⟩

/-- A match is found exactly when the code of some candidate is submitted. -/
theorem firstMatch_isSome_iff_submitted {key : List Byte} {cur : Dword} {o : OtpState} :
    (firstMatch Config.params key cur o).isSome = true ↔
      ∃ j, j ≤ 2 * o.window.toNat ∧ Submitted o key (candidateAt cur j) := by
  classical
  rw [Option.isSome_iff_exists]
  constructor
  · rintro ⟨c, hc⟩
    obtain ⟨j, hj, hsub, -⟩ := firstMatch_eq_some_iff_submitted.1 hc
    exact ⟨j, hj, hsub⟩
  · intro hex
    obtain ⟨hj, hsub⟩ := Nat.find_spec hex
    refine ⟨_, firstMatch_eq_some_iff_submitted.2 ⟨Nat.find hex, hj, hsub, fun k hk hk' => ?_, rfl⟩⟩
    exact Nat.find_min hex hk ⟨by omega, hk'⟩

/-- Reporting the first match of the secret is what `Searched` says. -/
theorem searched_writeMatch (o : OtpState) (cur : Dword) :
    Searched o cur (firstMatch Config.params (secret o) cur o).isSome
      (writeMatch (firstMatch Config.params (secret o) cur o) { o with ctr := cur }) := by
  refine ⟨firstMatch_isSome_iff_submitted, fun j hj hsub hfirst => ?found, fun hnone => ?none, rfl⟩
  case found =>
    rw [writeMatch_matchCtr, firstMatch_eq_some_iff_submitted.2 ⟨j, hj, hsub, hfirst, rfl⟩,
      Option.getD_some]
  case none =>
    rw [writeMatch_matchCtr, Option.isNone_iff_eq_none.1 (Option.isSome_eq_false_iff.1 hnone),
      Option.getD_none]

/-! ### The secret VERIFY decodes -/

theorem secret_writeKey {b : List Byte} (h : b.length ≤ 80) (o : OtpState) :
    secret (writeKey b o) = b := by
  rw [secret, writeKey_keyLen, writeKey_key, BitVec.toNat_ofNat, Nat.mod_eq_of_lt (by omega),
    take_overlay _ _ h]

theorem base32Decode_eq_none_of_illegal {o : OtpState} (h : o.txtLen.toNat ≤ 128)
    (hillegal : ¬ ∃ d, LegalText o d) : base32Decode false (textBytes o) = none :=
  Option.eq_none_iff_forall_ne_some.2 fun b hb => by
    obtain ⟨d, _, hlegal, -⟩ := (base32Decode_textBytes_iff h).1 hb
    exact hillegal ⟨d, hlegal⟩

theorem exists_base32Decode_of_legalText {o : OtpState} {d : Nat} (h : o.txtLen.toNat ≤ 128)
    (hlegal : LegalText o d) : ∃ key, base32Decode false (textBytes o) = some key ∧
      key.length = 5 * d / 8 ∧ SecretDecoded o d (writeKey key o) := by
  obtain ⟨-, ⟨vs, hvs⟩, -⟩ := (legalText_iff h).1 hlegal
  exact ⟨_, (base32Decode_textBytes_iff h).2 ⟨d, vs, hlegal, hvs, rfl⟩, regroup_length _ _ _,
    secretDecoded_writeKey h hlegal.1 hvs⟩

/-! ### What VERIFY answers -/

section Verify

variable {p : Config.Params} {o : OtpState}

theorem verifyCmd_of_text_too_long (h : 128 < o.txtLen.toNat) :
    verifyCmd p o = .error .lengthRange := by
  rw [verifyCmd, if_pos (textTooLong_iff.2 h)]

theorem verifyCmd_of_decode_eq_none (h : o.txtLen.toNat ≤ 128)
    (hnone : base32Decode p.strictTail (textBytes o) = none) :
    verifyCmd p o = .error .invalidEncoding := by
  simp [verifyCmd, textTooLong_eq_false h, hnone]

theorem verifyCmd_of_empty_secret {key : List Byte} (h : o.txtLen.toNat ≤ 128)
    (hsome : base32Decode p.strictTail (textBytes o) = some key) (hempty : key.length = 0) :
    verifyCmd p o = .error .invalidSecretLength := by
  simp [verifyCmd, textTooLong_eq_false h, hsome, List.length_eq_zero_iff.1 hempty]

end Verify

/-- Settles O39: each error of `verifyCmd` in its order, and on success the decoded secret
(`exists_base32Decode_of_legalText`) and the search with it (`searched_writeMatch`). -/
theorem verifySearchesTheWindow : Obligations.VerifySearchesTheWindow := by
  refine ⟨rfl, fun s => ⟨fun hlong => ?tooLong, fun hlen hillegal => ?illegal,
    fun d hlen hlegal => ?_⟩⟩
  case tooLong => exact yields_of_error (i := .verify) (verifyCmd_of_text_too_long hlong)
  case illegal =>
    exact yields_of_error (i := .verify)
      (verifyCmd_of_decode_eq_none hlen (base32Decode_eq_none_of_illegal hlen hillegal))
  obtain ⟨key, hkey, hlength, hsecret⟩ := exists_base32Decode_of_legalText hlen hlegal
  refine ⟨fun hempty => ?noSecret, fun hpos => ?search⟩
  case noSecret =>
    exact yields_of_error (i := .verify)
      (verifyCmd_of_empty_secret hlen hkey (hlength.trans hempty))
  case search =>
    have hle : key.length ≤ 80 := by
      have := hlegal.1
      omega
    have hsearched := searched_writeMatch (writeKey key s.otp)
      (BitVec.ofNat 64 (s.otp.time.toNat / 30))
    rw [secret_writeKey hle] at hsearched
    exact ⟨_, _, _, yields_of_ok (i := .verify) (verifyCmd_eq_ok_iff.2
      ⟨textTooLong_eq_false hlen, key, hkey, by omega, rfl, rfl⟩), hsecret, hsearched⟩

/-! ### CFG has no part in VERIFY -/

/-- The block with other code settings in CFG. -/
def withCodeConfig (n : BitVec 4) (a : BitVec 2) (o : OtpState) : OtpState :=
  { o with digits := n, alg := a }

/-- VERIFY computes the same under any code settings, and leaves them. -/
theorem verifyCmd_withCodeConfig (p : Config.Params) (n : BitVec 4) (a : BitVec 2) (o : OtpState) :
    verifyCmd p (withCodeConfig n a o) =
      (verifyCmd p o).map fun r => (withCodeConfig n a r.1, r.2) := by
  have hlong : textTooLong (withCodeConfig n a o) = textTooLong o := rfl
  have htext : textBytes (withCodeConfig n a o) = textBytes o := rfl
  have htime : (withCodeConfig n a o).time = o.time := rfl
  rw [verifyCmd, verifyCmd, hlong, htext, htime]
  split
  case isTrue => rfl
  case isFalse =>
    cases base32Decode p.strictTail (textBytes o) with
    | none => rfl
    | some key =>
      dsimp only
      split
      case isTrue => rfl
      case isFalse => cases counterOf p o.time <;> rfl

theorem commit_withCodeConfig (n : BitVec 4) (a : BitVec 2) (o : OtpState) (r : CmdResult) :
    commit (withCodeConfig n a o) (r.map fun r => (withCodeConfig n a r.1, r.2)) =
      withCodeConfig n a (commit o r) := by
  cases r <;> rfl

/-- The errors of VERIFY: with T0 = 0 the divider adds none. -/
theorem verifyCmd_error_cases {o : OtpState} {e : CmdError}
    (h : verifyCmd Config.params o = .error e) :
    e = .lengthRange ∨ e = .invalidEncoding ∨ e = .invalidSecretLength := by
  rw [verifyCmd, counterOf_params] at h
  dsimp only at h
  repeat' split at h
  all_goals cases h <;> simp

/-- Settles O42: the compared digits are those of R180, `verifyCmd` does not read the code settings
(`verifyCmd_withCodeConfig`), and its errors are three others (`verifyCmd_error_cases`). -/
theorem verifyIgnoresDigitsAndAlgorithm : Obligations.VerifyIgnoresDigitsAndAlgorithm := by
  refine ⟨fun key c => ⟨candidateDigits_length _ key c, fun j => candidateDigits_getD_toNat key c⟩,
    fun s n a => ⟨_, exec_eq .verify s, ?same, ?code⟩⟩
  case same =>
    rw [Yields, exec_eq]
    have hcommit := commit_withCodeConfig n a s.otp (verifyCmd Config.params s.otp)
    rw [← verifyCmd_withCodeConfig] at hcommit
    exact congrArg (fun o => Host.Outcome.next { s with otp := o }) hcommit
  case code =>
    rw [resultOf]
    cases h : verifyCmd Config.params s.otp with
    | ok r =>
      obtain ⟨o, hit⟩ := r
      rw [commit_ok, statusSucceed_errcode]
      decide
    | error e =>
      rw [commit_error, raiseError_errcode]
      obtain rfl | rfl | rfl := verifyCmd_error_cases h <;> decide

end Sys2Proof.Claims

/-!
PROOF. Errors (R200 to R203): the first error, in the order of priority, whose condition holds for a command
word is exactly the one the engine's computation ends in, and an engine step is that computation committed.
-/

namespace Sys2Proof.Claims

open Sys2Proof.Machine

/-! ### The conditions of a word -/

theorem encode_injective {i j : Instr} (h : encode i = encode j) : i = j := by
  have hdecode := decode_encode i
  rw [h, decode_encode] at hdecode
  exact (Except.ok.inj hdecode).symm

theorem not_raisedBy_badCommand_encode (i : Instr) (o : OtpState) :
    ¬ RaisedBy (encode i) o .badCommand := by
  have hcommand := (exists_eq_encode_iff (encode i)).1 ⟨i, rfl⟩
  rw [RaisedBy]
  omega

theorem raisedBy_encode_iff {i : Instr} {o : OtpState} {e : CmdError} :
    RaisedBy (encode i) o e ↔ Raised i o e := by
  have hcommand : (∃ j, encode i = encode j ∧ Raised j o e) ↔ Raised i o e :=
    ⟨fun ⟨_, hj, hraised⟩ => encode_injective hj ▸ hraised, fun hraised => ⟨i, rfl, hraised⟩⟩
  cases e with
  | badCommand => exact iff_of_false (not_raisedBy_badCommand_encode i o) id
  | _ => exact hcommand

theorem raisedBy_badCommand_of_decode_error {w : Word} {d : DecodeError} (h : decode w = .error d)
    (o : OtpState) : RaisedBy w o .badCommand := by
  have hno : ¬ ∃ i, w = encode i := by
    rintro ⟨i, rfl⟩
    rw [decode_encode] at h
    cases h
  rw [exists_eq_encode_iff] at hno
  rw [RaisedBy]
  omega

/-! ### The first error in the order of priority -/

section Priority

open Classical

variable {w : Word} {o : OtpState}

/-- The first error in the order of priority whose condition holds for a word, if one holds (R202). -/
noncomputable def firstRaised (w : Word) (o : OtpState) : Option CmdError :=
  priority.find? fun e => RaisedBy w o e

theorem firstRaised_eq_some_of_split {before after : List CmdError} {e : CmdError}
    (hsplit : priority = before ++ e :: after) (hbefore : ∀ e' ∈ before, ¬ RaisedBy w o e')
    (hraised : RaisedBy w o e) : firstRaised w o = some e :=
  List.find?_eq_some_iff_append.2
    ⟨decide_eq_true hraised, before, after, hsplit, fun e' he' => by simp [hbefore e' he']⟩

theorem raisedBy_of_firstRaised {e : CmdError} (h : firstRaised w o = some e) : RaisedBy w o e :=
  of_decide_eq_true (List.find?_some (p := fun e => decide (RaisedBy w o e)) h)

theorem firstRaised_of_decode_error {d : DecodeError} (h : decode w = .error d) :
    firstRaised w o = some .badCommand :=
  firstRaised_eq_some_of_split (before := []) rfl (by simp) (raisedBy_badCommand_of_decode_error h o)

/-- R202's order for a command: BadCommand is none of its errors, and no time is before T0 = 0. -/
theorem firstRaised_encode_eq_ite (i : Instr) (o : OtpState) : firstRaised (encode i) o =
    if Raised i o .lengthRange then some .lengthRange
    else if Raised i o .unsupportedAlgorithm then some .unsupportedAlgorithm
    else if Raised i o .invalidDigitCount then some .invalidDigitCount
    else if Raised i o .invalidEncoding then some .invalidEncoding
    else if Raised i o .invalidSecretLength then some .invalidSecretLength
    else none := by
  have hbad : ¬ Raised i o .badCommand := id
  have htime : ¬ Raised i o .timeBeforeEpoch := fun h => Nat.not_lt_zero _ h.2
  simp only [firstRaised, priority, find?_cons_eq_ite, List.find?_nil, decide_eq_true_eq,
    raisedBy_encode_iff, if_neg hbad, if_neg htime]

end Priority

/-! ### Each command's checks stand in the order of priority -/

/-- The error a computation ends in, if it ends in one. -/
def errorOf {α : Type} : Except CmdError α → Option CmdError
  | .ok _ => none
  | .error e => some e

@[simp] theorem errorOf_ok {α : Type} (x : α) : errorOf (.ok x) = none := rfl

@[simp] theorem errorOf_error {α : Type} (e : CmdError) :
    errorOf (.error e : Except CmdError α) = some e := rfl

theorem errorOf_eq_some_iff {α : Type} {r : Except CmdError α} {e : CmdError} :
    errorOf r = some e ↔ r = .error e := by
  cases r <;> simp

/-- Computations that end in the same errors, whatever they answer without one. -/
theorem errorOf_congr {α β : Type} {r : Except CmdError α} {r' : Except CmdError β}
    (h : ∀ e, r = .error e ↔ r' = .error e) : errorOf r = errorOf r' :=
  Option.ext fun e => by rw [errorOf_eq_some_iff, errorOf_eq_some_iff, h]

theorem firstRaised_b32enc (o : OtpState) :
    firstRaised (encode .b32enc) o = errorOf (b32encCmd o) := by
  by_cases hlong : 80 < o.keyLen.toNat
  · simp [firstRaised_encode_eq_ite, Raised, b32encCmd, keyTooLong_iff.2 hlong, hlong]
  · simp [firstRaised_encode_eq_ite, Raised, b32encCmd, keyTooLong_eq_false (not_lt.1 hlong), hlong]

theorem firstRaised_trunc (o : OtpState) :
    firstRaised (encode .trunc) o = errorOf (truncCmd o) := by
  by_cases halg : o.alg = 3#2
  · simp [firstRaised_encode_eq_ite, Raised, truncCmd_of_no_algorithm halg, halg]
  by_cases hdigits : DigitsLegal o <;>
    simp [firstRaised_encode_eq_ite, Raised, truncCmd_of_algorithm halg, digitsLegal_codeDigits_iff,
      halg, hdigits]

/-- The checks HOTP and TOTP share: LengthRange, UnsupportedAlgorithm, InvalidDigitCount,
InvalidSecretLength. -/
theorem firstRaised_codeOperands {i : Instr} (hi : i = .hotp ∨ i = .totp) (o : OtpState) :
    firstRaised (encode i) o = errorOf (codeOperands o) := by
  have hnot : i ≠ .b32dec ∧ i ≠ .verify := by rcases hi with rfl | rfl <;> decide
  by_cases hlong : 80 < o.keyLen.toNat
  · simp [firstRaised_encode_eq_ite, Raised, hi, codeOperands_of_key_too_long hlong, hlong]
  have hlen := not_lt.1 hlong
  by_cases halg : o.alg = 3#2
  · simp [firstRaised_encode_eq_ite, Raised, hi, hnot, codeOperands_of_no_algorithm hlen halg, hlong,
      halg]
  by_cases hdigits : DigitsLegal o
  case neg =>
    simp [firstRaised_encode_eq_ite, Raised, hi, hnot,
      codeOperands_of_digits_illegal hlen halg hdigits, hlong, halg, hdigits]
  by_cases hempty : o.keyLen.toNat = 0
  · simp [firstRaised_encode_eq_ite, Raised, hi, hnot, codeOperands_of_no_secret hempty halg hdigits,
      halg, hdigits, hempty]
  · simp [firstRaised_encode_eq_ite, Raised, hi, hnot,
      codeOperands_of_legal (Nat.one_le_iff_ne_zero.2 hempty) hlen halg hdigits, hlong, halg, hdigits,
      hempty]

theorem firstRaised_tdiv (o : OtpState) :
    firstRaised (encode .tdiv) o = errorOf (tdivCmd Config.params o) := by
  simp [firstRaised_encode_eq_ite, Raised, tdivCmd_eq]

theorem firstRaised_b32dec (o : OtpState) :
    firstRaised (encode .b32dec) o = errorOf (b32decCmd Config.params o) := by
  by_cases hlong : 128 < o.txtLen.toNat
  · simp [firstRaised_encode_eq_ite, Raised, b32decCmd, textTooLong_iff.2 hlong, hlong]
  have hlen := not_lt.1 hlong
  by_cases hlegal : ∃ d, LegalText o d
  · obtain ⟨key, hkey, -⟩ := exists_base32Decode_of_legalText hlen hlegal.choose_spec
    simp [firstRaised_encode_eq_ite, Raised, b32decCmd_of_decode_eq_some hlen hkey, hlong, hlegal]
  · have hnone := base32Decode_eq_none_of_illegal hlen hlegal
    simp [firstRaised_encode_eq_ite, Raised, b32decCmd_of_decode_eq_none hlen hnone, hlong, hlegal]

theorem legalText_unique {o : OtpState} (h : o.txtLen.toNat ≤ 128) {d d' : Nat}
    (hd : LegalText o d) (hd' : LegalText o d') : d = d' :=
  ((legalText_iff h).1 hd).1.trans ((legalText_iff h).1 hd').1.symm

/-- VERIFY of a nonempty secret completes without error: with T0 = 0 the divider adds none. -/
theorem errorOf_verifyCmd_of_secret {o : OtpState} {key : List Byte} (h : o.txtLen.toNat ≤ 128)
    (hkey : base32Decode false (textBytes o) = some key) (hsecret : key.length ≠ 0) :
    errorOf (verifyCmd Config.params o) = none := by
  rw [verifyCmd_eq_ok_iff.2 ⟨textTooLong_eq_false h, key, hkey, hsecret, rfl, rfl⟩, errorOf_ok]

theorem firstRaised_verify (o : OtpState) :
    firstRaised (encode .verify) o = errorOf (verifyCmd Config.params o) := by
  by_cases hlong : 128 < o.txtLen.toNat
  · simp [firstRaised_encode_eq_ite, Raised, verifyCmd_of_text_too_long hlong, hlong]
  have hlen := not_lt.1 hlong
  by_cases hlegal : ∃ d, LegalText o d
  case neg =>
    have hnone := base32Decode_eq_none_of_illegal hlen hlegal
    simp [firstRaised_encode_eq_ite, Raised,
      verifyCmd_of_decode_eq_none (p := Config.params) hlen hnone, hlong, hlegal]
  have ⟨d, hd⟩ := hlegal
  obtain ⟨key, hkey, hlength, -⟩ := exists_base32Decode_of_legalText hlen hd
  have hcondition : (∃ d', LegalText o d' ∧ 5 * d' / 8 = 0) ↔ key.length = 0 :=
    ⟨fun ⟨d', hd', hzero⟩ => by rw [hlength, legalText_unique hlen hd hd', hzero],
      fun hzero => ⟨d, hd, hlength ▸ hzero⟩⟩
  by_cases hempty : key.length = 0
  · simp [-Nat.div_eq_zero_iff, firstRaised_encode_eq_ite, Raised,
      verifyCmd_of_empty_secret (p := Config.params) hlen hkey hempty, hlong, hlegal, hcondition,
      hempty]
  · simp [-Nat.div_eq_zero_iff, firstRaised_encode_eq_ite, Raised,
      errorOf_verifyCmd_of_secret hlen hkey hempty, hlong, hlegal, hcondition, hempty]

/-- Every command ends in the first error whose condition holds, or in none where none holds. -/
theorem firstRaised_encode (i : Instr) (o : OtpState) :
    firstRaised (encode i) o = errorOf (resultOf i o) := by
  cases i with
  | b32enc => exact firstRaised_b32enc o
  | b32dec => exact firstRaised_b32dec o
  | trunc => exact firstRaised_trunc o
  | hotp =>
    exact (firstRaised_codeOperands (.inl rfl) o).trans
      (errorOf_congr fun _ => hotpCmd_eq_error_iff.symm)
  | tdiv => exact firstRaised_tdiv o
  | totp =>
    exact (firstRaised_codeOperands (.inr rfl) o).trans
      (errorOf_congr fun _ => totpCmd_eq_error_iff.symm)
  | verify => exact firstRaised_verify o

/-! ### What an engine step leaves -/

theorem resultOf_busyerr {i : Instr} {o w : OtpState} {hit : Bool}
    (h : resultOf i o = .ok (w, hit)) : w.busyerr = o.busyerr := by
  cases i with
  | b32enc =>
    obtain ⟨-, -, rfl⟩ := b32encCmd_cases h
    rfl
  | b32dec =>
    obtain ⟨-, -, b, -, rfl⟩ := b32decCmd_cases h
    rfl
  | trunc =>
    obtain ⟨-, -, alg, -, rfl⟩ := truncCmd_cases h
    rfl
  | hotp =>
    obtain ⟨-, alg, -, rfl⟩ := hotpCmd_cases h
    rw [writeGenerated_frame]
  | tdiv =>
    rw [resultOf, tdivCmd_eq] at h
    cases h
    rfl
  | totp =>
    obtain ⟨-, alg, -, rfl⟩ := totpCmd_cases h
    rw [writeGenerated_frame]
  | verify =>
    obtain ⟨-, key, -, -, rfl, -⟩ := verifyCmd_eq_ok_iff.1 h
    rfl

/-- STATUS.ERRCODE as the statements number it. -/
theorem code_eq_errorNumber (e : CmdError) : e.code = errorNumber e := by cases e <;> rfl

/-- An engine step reports the first error whose condition holds and writes nothing else; where none holds
it completes without error. -/
theorem step_engine_cases {s : State} (h : EngineSteps s) :
    (∃ e, firstRaised s.otp.pending s.otp = some e ∧
      step s = .next { takeTurn s with otp := completedErr (errorNumber e) s.otp }) ∨
    (firstRaised s.otp.pending s.otp = none ∧
      ∃ o hit, o.busyerr = s.otp.busyerr ∧
        step s = .next { takeTurn s with otp := completedOk hit o }) := by
  rw [step_of_engineSteps h]
  cases hd : decode s.otp.pending with
  | error d =>
    exact .inl ⟨_, firstRaised_of_decode_error hd, engineStep_of_decode_error (s := takeTurn s) hd⟩
  | ok i =>
    have hexec : engineStep (takeTurn s) = exec i (takeTurn s) := by
      simp only [engineStep, takeTurn_otp, hd]
    rw [hexec, eq_encode_of_decode hd, firstRaised_encode]
    cases hr : resultOf i s.otp with
    | error e => exact .inl ⟨e, rfl, code_eq_errorNumber e ▸ yields_of_error (s := takeTurn s) hr⟩
    | ok r => exact .inr ⟨rfl, r.1, r.2, resultOf_busyerr hr, yields_of_ok (s := takeTurn s) hr⟩

/-- Settles O45: the step reports `firstRaised` (`step_engine_cases`), which a split of the priorities at the
first error that holds names (`firstRaised_eq_some_of_split`). -/
theorem firstErrorInPriorityOrderIsReported : Obligations.FirstErrorInPriorityOrderIsReported := by
  intro s hengine
  obtain ⟨e₀, hfirst, hstep⟩ | ⟨hfirst, o, hit, hbusyerr, hstep⟩ := step_engine_cases hengine
  · refine ⟨_, hstep, rfl, fun hnone => ?none, fun before after e hsplit hbefore hraised => ?first⟩
    case none => exact absurd (raisedBy_of_firstRaised hfirst) (hnone e₀)
    case first =>
      obtain rfl : e₀ = e := Option.some.inj <|
        hfirst.symm.trans (firstRaised_eq_some_of_split hsplit hbefore hraised)
      exact ⟨rfl, rfl⟩
  · refine ⟨_, hstep, hbusyerr, fun _ => ⟨rfl, rfl⟩, fun before after e hsplit hbefore hraised => ?_⟩
    rw [firstRaised_eq_some_of_split hsplit hbefore hraised] at hfirst
    cases hfirst

/-- Settles O46: of the two ends of an engine step (`step_engine_cases`) only the first sets ERR. -/
theorem errorWritesStatusAlone : Obligations.ErrorWritesStatusAlone := by
  intro s t hengine hstep herr
  obtain ⟨e, hfirst, hstep'⟩ | ⟨-, o, hit, -, hstep'⟩ := step_engine_cases hengine
  · rw [hstep'] at hstep
    cases hstep
    exact ⟨e, raisedBy_of_firstRaised hfirst, rfl⟩
  · rw [hstep'] at hstep
    cases hstep
    cases herr

end Sys2Proof.Claims

/-!
PROOF. The BUSY hazards of a host write (R240, R26), and the values after reset as fields and as reads (R230).
-/

namespace Sys2Proof.Claims

open Sys2Proof.Machine

/-! ### A write to STATUS, and a write while BUSY -/

theorem busWrite_status {a : Offset} (v : Word) (o : OtpState) (ha : a.toNat = 0x004) :
    busWrite a v o = statusWrite v o :=
  if_pos ((eq_statusOffset_iff a).2 ha)

theorem busWrite_of_busy {a : Offset} (v : Word) {o : OtpState} (ha : a.toNat ≠ 0x004)
    (hbusy : o.busy = true) : busWrite a v o = statusDropped o :=
  (if_neg (mt (eq_statusOffset_iff a).1 ha)).trans (if_pos hbusy)

/-- R26 with bit 8 of the written word in plain numbers. -/
theorem statusWrite_eq_ite_bit8 (v : Word) (o : OtpState) :
    statusWrite v o = { o with busyerr := if v.toNat / 256 % 2 = 1 then false else o.busyerr } := by
  have hbit : v.getLsbD 8 = decide (v.toNat / 256 % 2 = 1) := Nat.testBit_eq_decide_div_mod_eq
  rw [statusWrite_eq, hbit]
  by_cases hset : v.toNat / 256 % 2 = 1 <;> simp [hset]

/-- Settles O8: the write is `statusDropped` at any offset but STATUS, and `statusWrite` at STATUS. -/
theorem busyWritesAreDroppedAndStatusWritesClearBusyerr :
    Obligations.BusyWritesAreDroppedAndStatusWritesClearBusyerr := by
  intro s rest a v hwrite halign
  refine ⟨fun hother hbusy => ?dropped, fun hstatus => ?status⟩
  case dropped => rw [step_write hwrite halign, busWrite_of_busy v hother hbusy, statusDropped]
  case status =>
    rw [step_write hwrite halign, busWrite_status v s.otp hstatus, statusWrite_eq_ite_bit8]

/-! ### The block after reset -/

theorem bufferByte_replicate_zero (n i : Nat) : bufferByte (Vector.replicate n (0 : Byte)) i = 0 := by
  obtain h | h := Nat.lt_or_ge i n
  · rw [bufferByte_of_lt _ i h, Vector.getElem_replicate]
  · exact bufferByte_of_ge _ i h

theorem byteNat_replicate_zero (n i : Nat) : byteNat (Vector.replicate n (0 : Byte)) i = 0 := by
  rw [byteNat_eq_bufferByte_toNat, bufferByte_replicate_zero]
  rfl

theorem bufferWord_replicate_zero (n k : Nat) : bufferWord (Vector.replicate n (0 : Byte)) k = 0 := by
  simp only [bufferWord, bufferByte_replicate_zero]
  rfl

theorem readReg_reset (r : Reg) : readReg OtpState.reset r = if r.addr = 0x008 then 6 else 0 := by
  cases r <;> rfl

theorem readBuf_reset (b : Buf) (k : Nat) : readBuf OtpState.reset b k = 0 := by
  cases b <;> exact bufferWord_replicate_zero _ k

/-- R230: what the host reads after reset, by what the offset names. -/
theorem busValue_reset {a : Offset} (ha : a.toNat % 4 = 0) :
    busValue OtpState.reset a = if a.toNat = 0x008 then 6 else 0 := by
  have hother : locate a ≠ .reg .cfg → a.toNat ≠ 0x008 := mt (locate_of_eq_addr a .cfg)
  cases hl : locate a with
  | reg r =>
    have haddr := addr_eq_of_locate hl
    rw [busValue_of_eq_addr _ haddr, readReg_reset, haddr]
  | buf b k =>
    rw [busValue_of_locate_buf _ hl, readBuf_reset, if_neg (hother (by simp [hl]))]
  | reserved =>
    rw [busValue_of_not_mapped _ ha (not_mapped_of_locate ha hl),
      if_neg (hother (by simp [hl]))]

/-- Settles O14: the scalar fields are `OtpState.reset`'s own; the buffers are all zero, byte by byte; the
reads are `busValue_reset`. -/
theorem resetValues : Obligations.ResetValues := by
  have zero := byteNat_replicate_zero
  exact ⟨rfl, rfl, rfl, rfl, rfl, rfl, rfl, rfl, rfl, rfl, rfl, rfl, rfl, rfl, rfl, rfl, rfl, rfl, rfl,
    zero 8, zero 8, zero 64, zero 80, zero 128, fun _ => busValue_reset⟩

end Sys2Proof.Claims

/-!
PROOF. The Base32 codec as a whole: that B32DEC undoes B32ENC in the block, the packing per 5-byte block
(R101), and that decoding does not see the case of a text (R111).
-/

namespace Sys2Proof.Claims

open Sys2Proof.Machine

/-! ### The round trip in the block -/

/-- The block with the text of its secret in TXT and TXT_LEN, as B32ENC leaves it (R105). -/
def withEncodedSecret (o : OtpState) : OtpState :=
  { o with txt := overlay o.txt 0 (base32Encode o.pad (keyBytes o)),
           txtLen := BitVec.ofNat 8 (base32Encode o.pad (keyBytes o)).length }

/-- Writing the secret back where it stands changes nothing. -/
theorem writeKey_keyBytes_key (o : OtpState) : (writeKey (keyBytes o) o).key = o.key :=
  overlay_take o.key (keyLength o)

section RoundTrip

variable {o : OtpState} (h : o.keyLen.toNat ≤ 80)
include h

theorem withEncodedSecret_txtLen_le : (withEncodedSecret o).txtLen.toNat ≤ 128 :=
  (ofNat_base32Encode_length_toNat h).trans_le (encodedLength_le h)

theorem textBytes_withEncodedSecret :
    textBytes (withEncodedSecret o) = base32Encode o.pad (keyBytes o) := by
  have hlen : textLength (withEncodedSecret o) = (base32Encode o.pad (keyBytes o)).length :=
    (ofNat_base32Encode_length_toNat h).trans (base32Encode_keyBytes_length h).symm
  rw [textBytes, hlen]
  exact take_overlay _ _ (base32Encode_keyBytes_length h ▸ encodedLength_le h)

theorem writeKey_keyBytes_keyLen : (writeKey (keyBytes o) o).keyLen = o.keyLen := by
  rw [writeKey_keyLen, keyBytes_length (keyTooLong_eq_false h), BitVec.ofNat_toNat,
    BitVec.setWidth_eq]

theorem b32decCmd_withEncodedSecret (hit : Bool) :
    b32decCmd Config.params (completedOk hit (withEncodedSecret o)) =
      .ok (writeKey (keyBytes o) (completedOk hit (withEncodedSecret o)), false) := by
  refine b32decCmd_of_decode_eq_some (withEncodedSecret_txtLen_le h) ?_
  exact (congrArg (base32Decode false) (textBytes_withEncodedSecret h)).trans
    (base32Decode_base32Encode _ _ _)

end RoundTrip

/-- Settles O24: the functions' round trip is `base32Decode_base32Encode`; in the block B32DEC finds the
text of the secret and writes the secret back over itself. -/
theorem base32RoundTrip : Obligations.Base32RoundTrip := by
  refine ⟨base32Decode_base32Encode false, fun s hlen => ?_⟩
  have henc : exec .b32enc s = .next { s with otp := completedOk false (withEncodedSecret s.otp) } :=
    yields_of_ok (b32encCmd_of_le hlen)
  have hdec := yields_of_ok (i := .b32dec)
    (s := { s with otp := completedOk false (withEncodedSecret s.otp) })
    (b32decCmd_withEncodedSecret hlen false)
  exact ⟨_, _, henc, rfl, hdec, rfl, writeKey_keyBytes_key s.otp, writeKey_keyBytes_keyLen hlen⟩

/-! ### The packing of a 5-byte block -/

/-- The eight values c0 to c7 of a whole block (40_base32.md section 1). -/
def blockValues (b0 b1 b2 b3 b4 : Byte) : List (BitVec 5) :=
  [b0.extractLsb' 3 5, b0.extractLsb' 0 3 ++ b1.extractLsb' 6 2, b1.extractLsb' 1 5,
   b1.extractLsb' 0 1 ++ b2.extractLsb' 4 4, b2.extractLsb' 0 4 ++ b3.extractLsb' 7 1,
   b3.extractLsb' 2 5, b3.extractLsb' 0 2 ++ b4.extractLsb' 5 3, b4.extractLsb' 0 5]

/-- A value is another when its bits are the other's. -/
theorem ofMsbs_eq {v : Nat} {f : Nat → Bool} {x : BitVec v} (h : ∀ r, r < v → f r = x.getMsbD r) :
    ofMsbs f v = x :=
  BitVec.eq_of_getMsbD_eq fun r hr => by rw [ofMsbs_getMsbD, decide_eq_true hr, Bool.true_and, h r hr]

theorem regroup_block (b0 b1 b2 b3 b4 : Byte) :
    regroup 5 [b0, b1, b2, b3, b4] 8 = blockValues b0 b1 b2 b3 b4 := by
  rw [regroup, show List.range 8 = [0, 1, 2, 3, 4, 5, 6, 7] from rfl, blockValues]
  simp only [List.map_cons, List.map_nil, List.cons.injEq, and_true]
  refine ⟨ofMsbs_eq ?_, ofMsbs_eq_append (a := 3) (b := 2) _ _ _ ?_ ?_, ofMsbs_eq ?_,
    ofMsbs_eq_append (a := 1) (b := 4) _ _ _ ?_ ?_, ofMsbs_eq_append (a := 4) (b := 1) _ _ _ ?_ ?_,
    ofMsbs_eq ?_, ofMsbs_eq_append (a := 2) (b := 3) _ _ _ ?_ ?_, ofMsbs_eq ?_⟩
  all_goals
    intro r hr
    interval_cases r <;> simp [bitOf, BitVec.getMsbD_eq_getLsbD]

theorem base32Encode_false (b : List Byte) :
    base32Encode false b = (regroup 5 b (textLengthOf b.length)).map alphaChar := by
  simp [base32Encode]

theorem base32Encode_block_append (b0 b1 b2 b3 b4 : Byte) (rest : List Byte) :
    base32Encode false (b0 :: b1 :: b2 :: b3 :: b4 :: rest) =
      (blockValues b0 b1 b2 b3 b4).map alphaChar ++ base32Encode false rest := by
  have hlen : textLengthOf (rest.length + 5) = 8 + textLengthOf rest.length := by
    unfold textLengthOf
    omega
  have hcut := regroup_append (by decide) 5 [b0, b1, b2, b3, b4] rest 8
    (textLengthOf rest.length) rfl
  rw [base32Encode_false, base32Encode_false, ← List.map_append, ← regroup_block, ← hcut, ← hlen]
  rfl

/-- A final block of 1 to 4 bytes is a whole block with the missing bytes 0, cut short. -/
theorem base32Encode_final_block {b : List Byte} {k m : Nat} {b0 b1 b2 b3 b4 : Byte}
    (hk : b ++ List.replicate k 0 = [b0, b1, b2, b3, b4]) (hm : textLengthOf b.length = m)
    (h8 : m ≤ 8) :
    base32Encode false b = ((blockValues b0 b1 b2 b3 b4).take m).map alphaChar := by
  rw [base32Encode_false, hm, ← regroup_append_zeros 5 b k, hk, ← regroup_block,
    regroup_take _ _ _ _ h8]

/-- Settles O22: a cut at a multiple of 40 bits (`base32Encode_block_append`), and a final block completed
with 0 bytes (`base32Encode_final_block`). -/
theorem packingPerFiveByteBlock : Obligations.PackingPerFiveByteBlock := by
  refine fun b0 b1 b2 b3 b4 => ⟨base32Encode_block_append b0 b1 b2 b3 b4, ?_, ?_, ?_, ?_⟩
  · exact base32Encode_final_block (k := 1) rfl (by simp [textLengthOf]) (by decide)
  · exact base32Encode_final_block (k := 2) rfl (by simp [textLengthOf]) (by decide)
  · exact base32Encode_final_block (k := 3) rfl (by simp [textLengthOf]) (by decide)
  · exact base32Encode_final_block (k := 4) rfl (by simp [textLengthOf]) (by decide)

/-! ### Case -/

theorem foldCase_toNat (x : Byte) : (foldCase x).toNat = foldNat x.toNat := by
  unfold foldCase foldNat
  split
  · rw [BitVec.toNat_sub_of_le]
    · rfl
    · rw [BitVec.le_def]
      exact Nat.le_trans (by decide) (by omega : 0x61 ≤ x.toNat)
  · rfl

/-- The block with another text in TXT. -/
def withText (v : Vector Byte 128) (o : OtpState) : OtpState := { o with txt := v }

/-- Texts that agree after folding, byte by byte, are one text after folding. -/
theorem foldedText_withText {v : Vector Byte 128} {o : OtpState}
    (h : ∀ i, i < 128 → foldNat (byteNat v i) = foldNat (byteNat o.txt i)) :
    foldedText (withText v o) = foldedText o := by
  have hlen : (foldedText (withText v o)).length = (foldedText o).length := by
    simp [foldedText, textBytes, withText, textLength]
  refine List.ext_getElem hlen fun i hi hi' => BitVec.eq_of_toNat_eq ?_
  have h128 : i < 128 := by
    simp only [foldedText, textBytes, List.length_map, List.length_take, Vector.length_toList] at hi'
    omega
  rw [← List.getD_eq_getElem _ 0 hi, ← List.getD_eq_getElem _ 0 hi', foldedText_getD _ hi,
    foldedText_getD _ hi', foldCase_toNat, foldCase_toNat]
  exact h i h128

theorem b32decCmd_withText {v : Vector Byte 128} {o : OtpState}
    (h : foldedText (withText v o) = foldedText o) :
    b32decCmd Config.params (withText v o) =
      (b32decCmd Config.params o).map fun r => (withText v r.1, r.2) := by
  have hlong : textTooLong (withText v o) = textTooLong o := rfl
  rw [b32decCmd, b32decCmd, hlong, base32Decode_congr h]
  split
  case isTrue => rfl
  case isFalse => cases base32Decode Config.params.strictTail (textBytes o) <;> rfl

/-- Settles O25: B32DEC sees TXT only after folding (`b32decCmd_withText`). -/
theorem decodingIgnoresCase : Obligations.DecodingIgnoresCase := by
  intro s v h
  have hcmd := b32decCmd_withText (foldedText_withText h)
  cases hr : b32decCmd Config.params s.otp with
  | error e =>
    rw [hr] at hcmd
    exact ⟨_, yields_of_error (i := .b32dec) hr,
      yields_of_error (i := .b32dec) (s := { s with otp := withText v s.otp }) hcmd⟩
  | ok r =>
    rw [hr] at hcmd
    exact ⟨_, yields_of_ok (i := .b32dec) (o := r.1) (hit := r.2) hr,
      yields_of_ok (i := .b32dec) (s := { s with otp := withText v s.otp }) hcmd⟩

end Sys2Proof.Claims

/-!
PROOF. What one step does to the block: the frame of every command (R45, R84), what an engine step leaves
and what a host step leaves, and the invariant of the block through both (R25, R36 to R39, R200).
-/

namespace Sys2Proof.Claims

open Sys2Proof.Machine

/-! ### The frame of a command's result -/

/-- No command writes what only the host writes, or STATUS, before it completes. -/
theorem resultOf_frame {i : Instr} {o w : OtpState} {hit : Bool}
    (h : resultOf i o = .ok (w, hit)) :
    w = { o with
      keyLen := w.keyLen, txtLen := w.txtLen, ctr := w.ctr, matchCtr := w.matchCtr,
      offset := w.offset, binary := w.binary, codeBin := w.codeBin, codeTxt := w.codeTxt,
      dig := w.dig, key := w.key, txt := w.txt } := by
  cases i with
  | b32enc =>
    obtain ⟨-, -, rfl⟩ := b32encCmd_cases h
    rfl
  | b32dec =>
    obtain ⟨-, -, b, -, rfl⟩ := b32decCmd_cases h
    rfl
  | trunc =>
    obtain ⟨-, -, alg, -, rfl⟩ := truncCmd_cases h
    rfl
  | hotp =>
    obtain ⟨-, alg, -, rfl⟩ := hotpCmd_cases h
    rw [writeGenerated_frame]
  | tdiv =>
    rw [resultOf, tdivCmd_eq] at h
    cases h
    rfl
  | totp =>
    obtain ⟨-, alg, -, rfl⟩ := totpCmd_cases h
    rw [writeGenerated_frame]
  | verify =>
    obtain ⟨-, key, -, -, rfl, -⟩ := verifyCmd_eq_ok_iff.1 h
    rfl

/-- Only VERIFY reports a match. -/
theorem eq_verify_of_hit {i : Instr} {o w : OtpState} (h : resultOf i o = .ok (w, true)) :
    i = .verify := by
  cases i with
  | b32enc => cases (b32encCmd_cases h).1
  | b32dec => cases (b32decCmd_cases h).1
  | trunc => cases (truncCmd_cases h).1
  | hotp => cases (hotpCmd_cases h).1
  | tdiv =>
    rw [resultOf, tdivCmd_eq] at h
    cases h
  | totp => cases (totpCmd_cases h).1
  | verify => rfl

/-! ### The block an engine step leaves -/

/-- The block the engine makes of `o`: the pending command's result committed, or BadCommand for an illegal
word (R82, R84). -/
def engineBlock (o : OtpState) : OtpState :=
  match decode o.pending with
  | .ok i => commit o (resultOf i o)
  | .error _ => completedErr 5 o

theorem engineBlock_of_decode_ok {o : OtpState} {i : Instr} (h : decode o.pending = .ok i) :
    engineBlock o = commit o (resultOf i o) := by
  rw [engineBlock, h]

theorem engineBlock_of_decode_error {o : OtpState} {e : DecodeError}
    (h : decode o.pending = .error e) : engineBlock o = completedErr 5 o := by
  rw [engineBlock, h]

theorem engineStep_eq (s : State) : engineStep s = .next { s with otp := engineBlock s.otp } := by
  cases h : decode s.otp.pending with
  | ok i => rw [engineBlock_of_decode_ok h, ← exec_eq, engineStep, h]
  | error e => rw [engineBlock_of_decode_error h, engineStep_of_decode_error h]

theorem step_eq_of_engineSteps {s : State} (h : EngineSteps s) :
    step s = .next { takeTurn s with otp := engineBlock s.otp } := by
  rw [step_of_engineSteps h, engineStep_eq, takeTurn_otp]

/-- An engine step raises one error, or completes the pending command with its result. -/
theorem engineBlock_cases (o : OtpState) :
    (∃ e : CmdError, engineBlock o = completedErr e.code o) ∨
    (∃ i w hit, decode o.pending = .ok i ∧ resultOf i o = .ok (w, hit) ∧
      engineBlock o = completedOk hit w) := by
  cases hd : decode o.pending with
  | error e => exact .inl ⟨.badCommand, engineBlock_of_decode_error hd⟩
  | ok i =>
    rw [engineBlock_of_decode_ok hd]
    cases hr : resultOf i o with
    | error e => exact .inl ⟨e, rfl⟩
    | ok r => exact .inr ⟨i, r.1, r.2, rfl, hr, rfl⟩

/-- The registers only the host writes, BUSYERR and the latch. -/
def hostRegisters (o : OtpState) :
    Dword × BitVec 8 × Vector Byte 8 × BitVec 4 × BitVec 4 × BitVec 2 × Bool × Bool × Word :=
  (o.time, o.window, o.sub, o.subLen, o.digits, o.alg, o.pad, o.busyerr, o.pending)

theorem hostRegisters_engineBlock (o : OtpState) :
    hostRegisters (engineBlock o) = hostRegisters o := by
  obtain ⟨e, he⟩ | ⟨i, w, hit, -, hr, hw⟩ := engineBlock_cases o
  · rw [he]
    rfl
  · rw [hw]
    exact (congrArg hostRegisters (resultOf_frame hr)).trans rfl

/-- Settles O5: the step leaves `engineBlock`, which completes with an error or without one. -/
theorem engineStepAlwaysCompletes : Obligations.EngineStepAlwaysCompletes := by
  intro s hengine
  refine ⟨_, step_eq_of_engineSteps hengine, ?_⟩
  have hhost := hostRegisters_engineBlock s.otp
  simp only [hostRegisters, Prod.mk.injEq] at hhost
  obtain ⟨-, -, -, -, -, -, -, hbusyerr, hpending⟩ := hhost
  obtain ⟨e, he⟩ | ⟨i, w, hit, hd, hr, hw⟩ := engineBlock_cases s.otp
  · rw [he]
    exact ⟨rfl, rfl, rfl, rfl, (nomatch ·), (nomatch ·), fun _ => ⟨rfl, e.code_range⟩⟩
  · rw [hw] at hbusyerr hpending ⊢
    refine ⟨rfl, rfl, hbusyerr, hpending, fun _ => rfl, fun hhit => ?matched, (nomatch ·)⟩
    case matched =>
      obtain rfl : hit = true := hhit
      exact ⟨eq_verify_of_hit hr ▸ hd, rfl⟩

/-! ### What a step leaves of the block -/

/-- The engine leaves the block or completes the pending command. -/
theorem otp_cases_of_engine {s t : State} (hagent : nextAgent s = .engine) (h : step s = .next t) :
    t.otp = s.otp ∨ t.otp = engineBlock s.otp := by
  cases hbusy : s.otp.busy with
  | true =>
    rw [step_eq_of_engineSteps ⟨hagent, hbusy⟩] at h
    cases h
    exact .inr rfl
  | false =>
    obtain ⟨-, -, rfl⟩ | ⟨-, hbusy', -⟩ | ⟨hhost, -⟩ | ⟨_, _, hhost, -⟩ := step_cases h
    · exact .inl rfl
    · simp [hbusy] at hbusy'
    · simp [hagent] at hhost
    · simp [hagent] at hhost

/-- The host leaves the block, writes to it over the bus, or resets it. -/
theorem hostStep_otp_cases {i : Input} {s t : State} (h : hostStep i s = .next t) :
    t.otp = s.otp ∨ (∃ a v, t.otp = busWrite a v s.otp) ∨ (i = .reset ∧ t.otp = OtpState.reset) := by
  obtain ⟨a, v, -, -, rfl⟩ | ⟨a, -, -, rfl⟩ | ⟨-, rfl | rfl⟩ | ⟨hi, rfl⟩ := hostStep_cases h
  · exact .inr (.inl ⟨a, v, rfl⟩)
  · exact .inl (by rw [busRead_frame])
  · exact .inl (by rw [busRead_frame])
  · exact .inl (by rw [busRead_frame])
  · exact .inr (.inr ⟨hi, rfl⟩)

theorem otp_cases_of_host {s t : State} (hagent : nextAgent s = .host) (h : step s = .next t) :
    t.otp = s.otp ∨ (∃ a v, t.otp = busWrite a v s.otp) ∨
      (s.inputs.head? = some .reset ∧ t.otp = OtpState.reset) := by
  obtain ⟨hengine, -⟩ | ⟨hengine, -⟩ | ⟨-, -, rfl⟩ | ⟨i, rest, -, hinputs, hstep⟩ := step_cases h
  · simp [hagent] at hengine
  · simp [hagent] at hengine
  · exact .inl rfl
  · simpa [hinputs] using hostStep_otp_cases hstep

/-- Settles O18: of what a step of the engine leaves (`otp_cases_of_engine`) these registers are as they
were (`hostRegisters_engineBlock`). -/
theorem engineLeavesTheHostsRegisters : Obligations.EngineLeavesTheHostsRegisters := by
  intro s t hagent hstep
  have hhost : hostRegisters t.otp = hostRegisters s.otp := by
    obtain h | h := otp_cases_of_engine hagent hstep
    · rw [h]
    · rw [h, hostRegisters_engineBlock]
  simpa only [hostRegisters, Prod.mk.injEq] using hhost

/-- Settles O19: a step of the host that is no reset leaves the block or is a bus write, and no write changes
a result (`busWrite_results`). -/
theorem hostLeavesTheResults : Obligations.HostLeavesTheResults := by
  intro s t hagent hreset hstep
  obtain h | ⟨a, v, h⟩ | ⟨h, -⟩ := otp_cases_of_host hagent hstep
  · rw [h]
    exact ⟨rfl, rfl, rfl, rfl, rfl⟩
  · rw [h]
    exact busWrite_results a v s.otp
  · exact absurd h hreset

/-! ### The code registers -/

theorem codeOk_congr {o o' : OtpState} (hoffset : o'.offset = o.offset)
    (hbinary : o'.binary = o.binary) (hcode : o'.codeBin = o.codeBin)
    (htext : o'.codeTxt = o.codeTxt) : o'.codeOk ↔ o.codeOk := by
  simp only [OtpState.codeOk, hoffset, hbinary, hcode, htext]

/-- The registers of one truncation belong together (R138). -/
theorem codeOk_writeCode {alg : HashAlg} {h : List Byte} {n : Nat} (hlen : h.length = alg.digestLen)
    (hn : digitsLegal n = true) (o : OtpState) : (writeCode (truncate h n) o).codeOk := by
  obtain ⟨hpos, hle⟩ := digitsLegal_iff.1 hn
  have hcode := truncate_codeBin_toNat h hle
  refine .inr ⟨h, n, ?_, hpos, hle, rfl, rfl, hcode, ?_⟩
  · rw [hlen]
    cases alg <;> decide
  · rw [writeCode_codeBin, hcode]
    rfl

theorem codeOk_writeGenerated {o : OtpState} {alg : HashAlg}
    (h : digitsLegal (codeDigits o) = true) (p : Config.Params) (c : Dword) :
    (writeGenerated p alg c o).codeOk :=
  codeOk_writeCode (genCode_digest_length p alg (keyBytes o) c (codeDigits o)) h _

/-- A command writes all the code registers from one truncation, or none of them. -/
theorem resultOf_codeOk {i : Instr} {o w : OtpState} {hit : Bool} (ho : o.codeOk)
    (h : resultOf i o = .ok (w, hit)) : w.codeOk := by
  cases i with
  | b32enc =>
    obtain ⟨-, -, rfl⟩ := b32encCmd_cases h
    exact ho
  | b32dec =>
    obtain ⟨-, -, b, -, rfl⟩ := b32decCmd_cases h
    exact ho
  | trunc =>
    obtain ⟨-, hdigits, alg, -, rfl⟩ := truncCmd_cases h
    exact codeOk_writeCode (digestBytes_length alg o) hdigits o
  | hotp =>
    obtain ⟨-, alg, hok, rfl⟩ := hotpCmd_cases h
    obtain ⟨-, -, hdigits, -⟩ := codeOperands_eq_ok_iff.1 hok
    exact codeOk_writeGenerated hdigits _ _
  | tdiv =>
    rw [resultOf, tdivCmd_eq] at h
    cases h
    exact ho
  | totp =>
    obtain ⟨-, alg, hok, rfl⟩ := totpCmd_cases h
    obtain ⟨-, -, hdigits, -⟩ := codeOperands_eq_ok_iff.1 hok
    exact codeOk_writeGenerated hdigits _ _
  | verify =>
    obtain ⟨-, key, -, -, rfl, -⟩ := verifyCmd_eq_ok_iff.1 h
    exact ho

/-! ### The invariant -/

/-- Settles O16: no error, no match, no command pending, and the code registers all zero. -/
theorem resetIsGood : Obligations.ResetIsGood :=
  ⟨⟨by decide, by decide, by decide⟩, Nat.zero_le 7, .inl ⟨rfl, rfl, rfl, rfl⟩⟩

theorem good_completedOk {o : OtpState} (h : o.codeOk) (hit : Bool) : (completedOk hit o).Good :=
  ⟨⟨by simp [completedOk], fun _ => rfl, (nomatch ·)⟩, Nat.zero_le 7, h⟩

theorem good_completedErr {o : OtpState} (h : o.codeOk) (e : CmdError) :
    (completedErr e.code o).Good := by
  obtain ⟨hpos, hle⟩ := e.code_range
  refine ⟨⟨⟨fun _ hzero => ?_, fun _ => rfl⟩, (nomatch ·), (nomatch ·)⟩, hle, h⟩
  have hzero : e.code = 0 := hzero
  rw [hzero] at hpos
  cases hpos

theorem good_engineBlock {o : OtpState} (h : o.Good) : (engineBlock o).Good := by
  obtain ⟨-, -, hcode⟩ := h
  obtain ⟨e, he⟩ | ⟨i, w, hit, -, hr, hw⟩ := engineBlock_cases o
  · rw [he]
    exact good_completedErr hcode e
  · rw [hw]
    exact good_completedOk (resultOf_codeOk hcode hr) hit

/-- A bus write starts a command, clearing the record of the last one, or leaves STATUS but for BUSYERR. -/
theorem busWrite_statusOk (a : Offset) (v : Word) {o : OtpState} (h : o.statusOk ∧ o.errcodeOk) :
    (busWrite a v o).statusOk ∧ (busWrite a v o).errcodeOk := by
  have haccept : (acceptCommand v o).statusOk ∧ (acceptCommand v o).errcodeOk :=
    ⟨⟨by simp, by simp, by simp⟩, Nat.zero_le 7⟩
  have hstatus : (statusWrite v o).statusOk ∧ (statusWrite v o).errcodeOk := by
    rw [statusWrite_eq]
    exact h
  obtain ⟨-, hw⟩ | ⟨-, -, hw⟩ | ⟨-, -, ⟨r, -, hw⟩ | ⟨b, k, -, hw⟩ | ⟨-, hw⟩⟩ := busWrite_cases a v o <;>
    rw [hw]
  · exact hstatus
  · exact h
  · cases r with
    | cmd => exact haccept
    | status => exact hstatus
    | _ => exact h
  · cases b <;> simpa [writeBuf, OtpState.statusOk, OtpState.errcodeOk] using h
  · exact h

theorem good_busWrite (a : Offset) (v : Word) {o : OtpState} (h : o.Good) : (busWrite a v o).Good := by
  obtain ⟨hstatus, herrcode, hcode⟩ := h
  obtain ⟨hstatus', herrcode'⟩ := busWrite_statusOk a v ⟨hstatus, herrcode⟩
  obtain ⟨hoffset, hbinary, hcodeBin, htext, -⟩ := busWrite_results a v o
  exact ⟨hstatus', herrcode', (codeOk_congr hoffset hbinary hcodeBin htext).2 hcode⟩

/-- Settles O17: the invariant through a completion (`good_engineBlock`), a bus write (`good_busWrite`) and
the reset input; every other step leaves the block. -/
theorem everyStepKeepsTheBlockGood : Obligations.EveryStepKeepsTheBlockGood := by
  intro s t hgood hstep
  cases hagent : nextAgent s with
  | engine =>
    obtain h | h := otp_cases_of_engine hagent hstep <;> rw [h]
    · exact hgood
    · exact good_engineBlock hgood
  | host =>
    obtain h | ⟨a, v, h⟩ | ⟨-, h⟩ := otp_cases_of_host hagent hstep <;> rw [h]
    · exact hgood
    · exact good_busWrite a v hgood
    · exact resetIsGood

end Sys2Proof.Claims

/-!
PROOF. The command word once more (R80, R82), and the host's steps one by one: what a read answers (R63,
R241), what a write to an idle block stores and leaves (R64), the poll of a WAIT (R89) and the reset input
(R231).
-/

namespace Sys2Proof.Claims

open Sys2Proof.Machine

/-! ### The command word and the step -/

/-- Settles O1: seven words of the map, and five outside it. -/
theorem tabulatedWordsDecode : Obligations.TabulatedWordsDecode := by
  unfold Obligations.TabulatedWordsDecode
  decide

/-- Settles O2: the decoder accepts the commands' own words (`decode_encode`) and no others
(`eq_encode_of_decode`). -/
theorem decodeIsExactlyEncodeInverse : Obligations.DecodeIsExactlyEncodeInverse :=
  fun _ i => ⟨eq_encode_of_decode, fun h => h ▸ decode_encode i⟩

/-- Settles O4: the agent whose turn it is and what it finds to do decide the step. -/
theorem stepRunsTheDecodedCommandOrTheHostInput :
    Obligations.StepRunsTheDecodedCommandOrTheHostInput := by
  refine fun s => ⟨fun i hengine hdecode _ => ?command, fun i rest h => step_of_hostSteps h,
    fun hagent hidle => ?enginePasses, fun hagent hinputs => ?hostPasses⟩
  case command => simp only [step_of_engineSteps hengine, engineStep, takeTurn_otp, hdecode]
  case enginePasses =>
    simp only [step, hagent, engineTurn, takeTurn_otp, hidle, Bool.false_eq_true, if_false]
  case hostPasses => simp only [step, hagent, hostTurn, takeTurn_inputs, hinputs]

/-- Settles O15: the reset input is the host's step `resetBlock`. -/
theorem resetInputAbandonsTheCommand : Obligations.ResetInputAbandonsTheCommand :=
  fun _ _ h => step_of_hostSteps h

/-! ### Reads -/

theorem step_read {s : State} {rest : List Input} {a : Offset} (h : HostSteps s (.read a 4) rest)
    (ha : a.toNat % 4 = 0) : step s = .next (busRead a { takeTurn s with inputs := rest }) := by
  rw [step_of_hostSteps h, hostStep, if_pos ((busAccessLegal_iff a 4).2 ⟨ha, rfl⟩)]

/-- A read of an idle block, or of STATUS, answers the map. -/
theorem busRead_of_answered {s : State} {a : Offset} (h : s.otp.busy = false ∨ a.toNat = 0x004) :
    busRead a s = { s with readData := busValue s.otp a } := by
  rw [busRead, if_neg]
  simpa [eq_statusOffset_iff, ← Bool.not_eq_true, imp_iff_not_or] using h

theorem busRead_of_busy {s : State} {a : Offset} (hbusy : s.otp.busy = true) (ha : a.toNat ≠ 0x004) :
    busRead a s = { s with readData := Config.busyRead s.draws, draws := s.draws + 1 } := by
  rw [busRead, if_pos]
  simpa [eq_statusOffset_iff, hbusy] using ha

theorem statusWord_eq_ofNat (o : OtpState) : statusWord o = BitVec.ofNat 32 (statusNat o) := by
  rw [← statusWord_toNat, BitVec.ofNat_toNat, BitVec.setWidth_eq]

/-- Settles O9: the read answers `busValue`, which is the numeric map's value. -/
theorem readsReturnTheRegisterMap : Obligations.ReadsReturnTheRegisterMap := by
  intro s rest a hread ha hanswered
  refine ⟨_, (step_read hread ha).trans (congrArg _ (busRead_of_answered hanswered)), ?_, rfl⟩
  exact (mapNat_eq_busValue_toNat s.otp ha).symm

/-- Settles O10: while BUSY = 1 a read is a draw, except of STATUS. -/
theorem busyReadsReturnFreeDraws : Obligations.BusyReadsReturnFreeDraws := by
  intro s rest a hread ha hbusy
  rw [step_read hread ha]
  refine ⟨fun hother => ?draw, fun hstatus => ?status⟩
  case draw => exact congrArg _ (busRead_of_busy hbusy hother)
  case status =>
    obtain rfl : a = statusOffset := (eq_statusOffset_iff a).2 hstatus
    rw [busRead_of_answered (.inr hstatus), busValue_statusOffset, statusWord_eq_ofNat]
    rfl

/-! ### The poll of a WAIT -/

theorem statusWord_getLsbD_zero (o : OtpState) : (statusWord o).getLsbD 0 = o.busy := by
  have hbit : (statusWord o).getLsbD 0 = decide (statusNat o % 2 = 1) := by
    rw [← statusWord_toNat, BitVec.getLsbD, Nat.testBit_zero]
  rw [hbit, statusNat]
  cases o.busy
  · exact decide_eq_false (by rw [Bool.toNat_false]; omega)
  · exact decide_eq_true (by rw [Bool.toNat_true]; omega)

/-- One poll: STATUS is read, and the WAIT goes on while it says BUSY = 1. -/
theorem step_wait {s : State} {rest : List Input} (h : HostSteps s .wait rest) :
    step s = .next
      { afterHost s (if s.otp.busy then .wait :: rest else rest) s.otp with
        readData := statusWord s.otp } := by
  have hpoll : busRead statusOffset { takeTurn s with inputs := rest } =
      { takeTurn s with inputs := rest, readData := statusWord s.otp } := by
    rw [busRead_of_answered (.inr rfl), busValue_statusOffset]
    rfl
  simp only [step_of_hostSteps h, hostStep, hpoll, statusWord_getLsbD_zero]
  cases s.otp.busy <;> rfl

/-- Settles O54: the poll is `step_wait`, and its value's bit 0 is BUSY. -/
theorem waitPollsUntilNotBusy : Obligations.WaitPollsUntilNotBusy := by
  intro s rest h
  refine ⟨statusWord s.otp, statusWord_toNat s.otp, by rw [statusWord_getLsbD_zero],
    fun hbusy => ?_, fun hidle => ?_⟩
  · rw [step_wait h, hbusy, if_pos rfl]
  · rw [step_wait h, hidle, if_neg (by decide)]

/-! ### What a write leaves -/

theorem highHalf_setLowHalf (x : Dword) (v : Word) : highHalf (setLowHalf x v) = highHalf x :=
  BitVec.eq_of_toNat_eq (by rw [highHalf_toNat, setLowHalf_toNat, highHalf_toNat]; omega)

theorem lowHalf_setHighHalf (x : Dword) (v : Word) : lowHalf (setHighHalf x v) = lowHalf x :=
  BitVec.eq_of_toNat_eq (by rw [lowHalf_toNat, setHighHalf_toNat, lowHalf_toNat]; omega)

/-- A write to a register leaves what every other register reads. -/
theorem readReg_writeReg_other (v : Word) (o : OtpState) {r r' : Reg} (hcmd : r ≠ .cmd)
    (hstatus : r ≠ .status) (hne : r' ≠ r) : readReg (writeReg v o r) r' = readReg o r' := by
  cases r
  case cmd => exact absurd rfl hcmd
  case status => exact absurd rfl hstatus
  all_goals
    cases r' <;> simp [readReg, writeReg, statusWord, highHalf_setLowHalf, lowHalf_setHighHalf] at hne ⊢

theorem readBuf_writeReg (v : Word) (o : OtpState) (r : Reg) (b : Buf) (k : Nat) :
    readBuf (writeReg v o r) b k = readBuf o b k := by
  cases r <;> cases b <;> simp [readBuf, writeReg, statusWrite_eq]

theorem readReg_writeBuf (v : Word) (o : OtpState) (b : Buf) (k : Nat) (r : Reg) :
    readReg (writeBuf v o b k) r = readReg o r := by
  cases b <;> cases r <;> simp [readReg, writeBuf, statusWord]

theorem bufferWord_setBufferWord_other {n : Nat} (x : Vector Byte n) {k j : Nat} (v : Word)
    (h : j ≠ k) : bufferWord (setBufferWord x k v) j = bufferWord x j := by
  have lane : ∀ i, i / 4 = j → bufferByte (setBufferWord x k v) i = bufferByte x i := fun i hi => by
    rw [bufferByte_setBufferWord, if_neg (by omega)]
  rw [bufferWord, bufferWord, lane _ (by omega), lane _ (by omega), lane _ (by omega),
    lane _ (by omega)]

/-- A write to a buffer word leaves every other buffer word. -/
theorem readBuf_writeBuf_other (v : Word) (o : OtpState) {b b' : Buf} {k k' : Nat}
    (h : b' ≠ b ∨ k' ≠ k) : readBuf (writeBuf v o b k) b' k' = readBuf o b' k' := by
  by_cases hb : b' = b
  · subst hb
    have hk : k' ≠ k := h.resolve_left (· rfl)
    cases b' <;> simp [readBuf, writeBuf, bufferWord_setBufferWord_other _ v hk]
  · cases b <;> cases b' <;> simp [readBuf, writeBuf] at hb ⊢

theorem busWrite_pending {a : Offset} (v : Word) {o : OtpState} (hidle : o.busy = false)
    (hcmd : a.toNat ≠ 0x000) (hstatus : a.toNat ≠ 0x004) :
    (busWrite a v o).pending = o.pending := by
  rw [busWrite_of_idle a v o hidle hstatus]
  cases hl : locate a with
  | reg r =>
    obtain ⟨hc, hs⟩ := not_cmd_or_status_of_addr hcmd hstatus (addr_eq_of_locate hl)
    cases r <;> simp [writeReg] at hc hs ⊢
  | buf b k => cases b <;> simp [writeBuf]
  | reserved => rfl

/-- What an idle write leaves: every other word of the register space. -/
theorem busValue_busWrite_other {a b : Offset} (v : Word) {o : OtpState} (ha : a.toNat % 4 = 0)
    (hb : b.toNat % 4 = 0) (hidle : o.busy = false) (hcmd : a.toNat ≠ 0x000)
    (hstatus : a.toNat ≠ 0x004) (hne : b.toNat ≠ a.toNat) :
    busValue (busWrite a v o) b = busValue o b := by
  rw [busWrite_of_idle a v o hidle hstatus]
  cases hl : locate a with
  | reserved => rfl
  | reg r =>
    have haddr := addr_eq_of_locate hl
    obtain ⟨hc, hs⟩ := not_cmd_or_status_of_addr hcmd hstatus haddr
    cases hlb : locate b with
    | reg r' =>
      have hr : r' ≠ r := fun h => hne (by rw [haddr, addr_eq_of_locate hlb, h])
      simp only [busValue, hlb, readReg_writeReg_other v o hc hs hr]
    | buf b' k' => simp only [busValue, hlb, readBuf_writeReg]
    | reserved => simp only [busValue, hlb]
  | buf b' k' =>
    obtain ⟨haddr, -⟩ := addr_eq_of_locate_buf ha hl
    cases hlb : locate b with
    | reg r => simp only [busValue, hlb, readReg_writeBuf]
    | buf c j =>
      obtain ⟨haddr', -⟩ := addr_eq_of_locate_buf hb hlb
      have hcj : c ≠ b' ∨ j ≠ k' := by
        by_contra! h
        obtain ⟨rfl, rfl⟩ := h
        exact hne (haddr'.trans haddr.symm)
      simp only [busValue, hlb, readBuf_writeBuf_other v o hcj]
    | reserved => simp only [busValue, hlb]

theorem mapNat_busWrite_other {a : Offset} (v : Word) {o : OtpState} (ha : a.toNat % 4 = 0)
    (hidle : o.busy = false) (hcmd : a.toNat ≠ 0x000) (hstatus : a.toNat ≠ 0x004) {b : Nat}
    (hlt : b < 4096) (hb : b % 4 = 0) (hne : b ≠ a.toNat) :
    mapNat (busWrite a v o) b = mapNat o b := by
  have hoff : (BitVec.ofNat 12 b).toNat = b := by rw [BitVec.toNat_ofNat, Nat.mod_eq_of_lt hlt]
  have hother := busValue_busWrite_other v ha (hoff.symm ▸ hb) hidle hcmd hstatus
    (hoff.symm ▸ hne : (BitVec.ofNat 12 b).toNat ≠ a.toNat)
  rw [← hoff, mapNat_eq_busValue_toNat _ (hoff.symm ▸ hb), hother,
    mapNat_eq_busValue_toNat _ (hoff.symm ▸ hb)]

/-- Settles O11: the write stores (`busWrite_stores`) or is ignored (`busWrite_of_storedBits_eq_zero`), and
every other word is as it was (`mapNat_busWrite_other`). -/
theorem idleWritesStoreTheWritableBits : Obligations.IdleWritesStoreTheWritableBits := by
  intro s rest a v hwrite ha hidle hcmd hstatus
  exact ⟨_, step_write hwrite ha, busWrite_pending v hidle hcmd hstatus,
    busWrite_of_storedBits_eq_zero v ha hidle hcmd hstatus,
    fun hsome => ⟨busWrite_stores v ha hidle hstatus hsome,
      fun b hlt hb hne => mapNat_busWrite_other v ha hidle hcmd hstatus hlt hb hne⟩⟩

end Sys2Proof.Claims

/-!
PROOF. What each command leaves unchanged (R45, R203): its write set, and the bytes of the register space
outside it.
-/

namespace Sys2Proof.Claims

open Sys2Proof.Machine

/-! ### Write sets -/

/-- Past the end of what is written a buffer is as it was. -/
theorem byteNat_overlay_of_ge {n : Nat} (v : Vector Byte n) {bs : List Byte} {k : Nat}
    (h : bs.length ≤ k) : byteNat (overlay v 0 bs) k = byteNat v k := by
  rw [byteNat_eq_bufferByte_toNat, bufferByte_overlay, if_neg (by omega), byteNat_eq_bufferByte_toNat]

/-- The length of a secret decoded from TXT fits KEY_LEN. -/
theorem ofNat_decoded_length_toNat {o : OtpState} {key : List Byte}
    (h : base32Decode false (textBytes o) = some key) :
    (BitVec.ofNat 7 key.length).toNat = key.length := by
  have h128 : (textBytes o).length ≤ 128 := by simp [textBytes]
  have := base32Decode_length_le h h128
  rw [BitVec.toNat_ofNat, Nat.mod_eq_of_lt (by omega)]

theorem byteNat_writeKey_of_ge {o : OtpState} {key : List Byte}
    (h : base32Decode false (textBytes o) = some key) {k : Nat}
    (hk : (BitVec.ofNat 7 key.length).toNat ≤ k) :
    byteNat (overlay o.key 0 key) k = byteNat o.key k :=
  byteNat_overlay_of_ge o.key (by rwa [ofNat_decoded_length_toNat h] at hk)

theorem digestLen_of_hashAlgorithm {o : OtpState} {alg : HashAlg} (h : hashAlgorithm o = some alg) :
    alg.digestLen = digestLength o.alg := by
  have halg : o.alg ≠ 3 := fun h3 => by simp [hashAlgorithm_eq_none_iff.2 h3] at h
  rw [hashAlgorithm_eq_algorithm halg] at h
  obtain rfl := Option.some.inj h
  exact digestLen_algorithm halg

section Generated

variable {p : Config.Params} {alg : HashAlg} {c : Dword} {o w : OtpState}

theorem byteNat_dig_of_generated (h : w = writeGenerated p alg c o) {k : Nat}
    (hk : alg.digestLen ≤ k) : byteNat w.dig k = byteNat o.dig k := by
  rw [h, writeGenerated, writeCode_dig, writeDigest_dig]
  exact byteNat_overlay_of_ge o.dig (by rwa [genCode_digest_length])

theorem frame_of_generated (h : w = writeGenerated p alg c o) :
    w = { o with
      dig := w.dig, offset := w.offset, binary := w.binary, codeBin := w.codeBin,
      codeTxt := w.codeTxt } := by
  rw [h]
  exact writeGenerated_frame p alg c o

/-- Generating a code for a counter that CTR takes too writes CTR, DIG and the code registers. -/
theorem frame_of_generated_ctr (h : w = writeGenerated p alg c { o with ctr := c }) :
    w = { o with
      ctr := w.ctr, dig := w.dig, offset := w.offset, binary := w.binary, codeBin := w.codeBin,
      codeTxt := w.codeTxt } := by
  have hframe := frame_of_generated h
  have hctr : w.ctr = c := congrArg OtpState.ctr hframe
  rw [hctr]
  exact hframe

end Generated

/-- A command that succeeds writes its write set and STATUS, and nothing past the end of a buffer's new
contents. -/
theorem outsideWriteSetSame_of_resultOf {i : Instr} {o w : OtpState} {hit : Bool}
    (h : resultOf i o = .ok (w, hit)) : OutsideWriteSetSame i o (completedOk hit w) := by
  cases i with
  | b32enc =>
    obtain ⟨rfl, hlen, rfl⟩ := b32encCmd_cases h
    have h80 : o.keyLen.toNat ≤ 80 := by
      rwa [← Bool.not_eq_true, keyTooLong_iff, not_lt] at hlen
    refine ⟨fun k hk => byteNat_overlay_of_ge o.txt ?_, rfl⟩
    rw [base32Encode_keyBytes_length h80, ← ofNat_base32Encode_length_toNat h80]
    exact hk
  | b32dec =>
    obtain ⟨rfl, -, b, hb, rfl⟩ := b32decCmd_cases h
    exact ⟨fun k hk => byteNat_writeKey_of_ge hb hk, rfl⟩
  | trunc =>
    obtain ⟨rfl, -, alg, -, rfl⟩ := truncCmd_cases h
    rfl
  | hotp =>
    obtain ⟨rfl, alg, hok, hw⟩ := hotpCmd_cases h
    obtain ⟨-, halg, -⟩ := codeOperands_eq_ok_iff.1 hok
    exact ⟨fun k hk => byteNat_dig_of_generated hw ((digestLen_of_hashAlgorithm halg).trans_le hk),
      congrArg (completedOk false) (frame_of_generated hw)⟩
  | tdiv =>
    rw [resultOf, tdivCmd_eq] at h
    cases h
    rfl
  | totp =>
    obtain ⟨rfl, alg, hok, hw⟩ := totpCmd_cases h
    obtain ⟨-, halg, -⟩ := codeOperands_eq_ok_iff.1 hok
    exact ⟨fun k hk => byteNat_dig_of_generated hw ((digestLen_of_hashAlgorithm halg).trans_le hk),
      congrArg (completedOk false) (frame_of_generated_ctr hw)⟩
  | verify =>
    obtain ⟨-, key, hkey, -, rfl, rfl⟩ := verifyCmd_eq_ok_iff.1 h
    refine ⟨fun k hk => byteNat_writeKey_of_ge hkey hk, fun hmiss => ?_, rfl⟩
    have hnone := Option.isNone_iff_eq_none.1 (Option.isSome_eq_false_iff.1 hmiss)
    simp [completedOk, hnone]

/-- Settles O47: of the two ends of a command (`exec_cases`) success is `outsideWriteSetSame_of_resultOf`,
and an error writes STATUS alone. -/
theorem writeSetsAsTabulated : Obligations.WriteSetsAsTabulated := by
  intro i s t h
  obtain ⟨e, -, rfl⟩ | ⟨w, hit, hr, rfl⟩ := exec_cases h
  · exact ⟨rfl, (nomatch ·), fun _ => rfl⟩
  · exact ⟨rfl, fun _ => outsideWriteSetSame_of_resultOf hr, (nomatch ·)⟩

/-! ### The bytes of the register space -/

/-- The aligned offset of the word that holds a byte. -/
theorem wordOffset_toNat (a : Offset) : (a.extractLsb' 2 10 ++ 0#2).toNat = 4 * (a.toNat / 4) := by
  rw [append_toNat_eq_mul_add, extractLsb'_toNat_eq_div_mod]
  have := a.isLt
  simp only [BitVec.toNat_ofNat]
  omega

theorem busByte_toNat (o : OtpState) (a : Offset) : (busByte o a).toNat =
    (busValue o (a.extractLsb' 2 10 ++ 0#2)).toNat / 2 ^ (8 * (a.toNat % 4)) % 256 :=
  extractLsb'_toNat_eq_div_mod _ _ 8

/-- A byte of the register space is a byte of a register, a byte of a buffer, or reserved. -/
theorem busByte_cases (a : Offset) :
    (∃ r : Reg, r.addr ≤ a.toNat ∧ a.toNat < r.addr + 4 ∧
      ∀ o o', readReg o' r = readReg o r → busByte o' a = busByte o a) ∨
    (∃ (b : Buf) (k : Nat), k < b.size ∧ a.toNat = b.addr + k ∧
      ∀ o o', bufferNat o' b k = bufferNat o b k → busByte o' a = busByte o a) ∨
    ∀ o o', busByte o' a = busByte o a := by
  have hword := wordOffset_toNat a
  cases hl : locate (a.extractLsb' 2 10 ++ 0#2) with
  | reg r =>
    have haddr := addr_eq_of_locate hl
    exact .inl ⟨r, by omega, by omega, fun o o' h => by simp only [busByte, busValue, hl, h]⟩
  | buf b j =>
    obtain ⟨haddr, hj⟩ := addr_eq_of_locate_buf (by omega) hl
    have hsize : b.size % 4 = 0 := by cases b <;> rfl
    refine .inr (.inl ⟨b, 4 * j + a.toNat % 4, by omega, by omega, fun o o' h => ?_⟩)
    apply BitVec.eq_of_toNat_eq
    rw [busByte_toNat, busByte_toNat, busValue_of_locate_buf _ hl, busValue_of_locate_buf _ hl,
      readBuf_lane _ _ _ (by omega), readBuf_lane _ _ _ (by omega), h]
  | reserved => exact .inr (.inr fun o o' => by simp only [busByte, busValue, hl])

section Frame

variable {i : Instr} {o o' : OtpState} (h : OutsideWriteSetSame i o o')
include h

/-- A register outside the stored words of a command reads as before: case by case, the registers named are
those of the write set, whose words are stored. -/
theorem readReg_of_outsideWriteSetSame {r : Reg} {a : Nat} (hlow : r.addr ≤ a)
    (hhigh : a < r.addr + 4) (hout : ¬ storedOffsets i o o' a) : readReg o' r = readReg o r := by
  cases i with
  | b32enc =>
    obtain ⟨-, hframe⟩ := h
    cases r
    case status | txtLen => simp only [storedOffsets, Reg.addr] at *; omega
    all_goals exact (congrArg (readReg · _) hframe).trans rfl
  | b32dec =>
    obtain ⟨-, hframe⟩ := h
    cases r
    case status | keyLen => simp only [storedOffsets, Reg.addr] at *; omega
    all_goals exact (congrArg (readReg · _) hframe).trans rfl
  | trunc =>
    change o' = _ at h
    cases r
    case status | offset | binary | codeBin => simp only [storedOffsets, Reg.addr] at *; omega
    all_goals exact (congrArg (readReg · _) h).trans rfl
  | hotp =>
    obtain ⟨-, hframe⟩ := h
    cases r
    case status | offset | binary | codeBin => simp only [storedOffsets, Reg.addr] at *; omega
    all_goals exact (congrArg (readReg · _) hframe).trans rfl
  | tdiv =>
    change o' = _ at h
    cases r
    case status | ctrLo | ctrHi => simp only [storedOffsets, Reg.addr] at *; omega
    all_goals exact (congrArg (readReg · _) h).trans rfl
  | totp =>
    obtain ⟨-, hframe⟩ := h
    cases r
    case status | ctrLo | ctrHi | offset | binary | codeBin =>
      simp only [storedOffsets, Reg.addr] at *; omega
    all_goals exact (congrArg (readReg · _) hframe).trans rfl
  | verify =>
    obtain ⟨-, hmiss, hframe⟩ := h
    cases r
    case status | keyLen | ctrLo | ctrHi => simp only [storedOffsets, Reg.addr] at *; omega
    case matchCtrLo | matchCtrHi =>
      have hmatched : o'.matched = false := by
        by_contra hhit
        rw [Bool.not_eq_false] at hhit
        simp only [storedOffsets, hhit, true_and] at hout
        simp only [Reg.addr] at hlow hhigh
        omega
      simp only [readReg, hmiss hmatched]
    all_goals exact (congrArg (readReg · _) hframe).trans rfl

/-- A byte of a buffer outside what a command stores is as before: only the buffer of the write set has
bytes that are stored, and those it names. -/
theorem bufferNat_of_outsideWriteSetSame {b : Buf} {k : Nat} (hk : k < b.size)
    (hout : ¬ storedOffsets i o o' (b.addr + k)) : bufferNat o' b k = bufferNat o b k := by
  simp only [storedOffsets] at hout
  cases i with
  | b32enc =>
    obtain ⟨hpast, hframe⟩ := h
    cases b
    case txt => exact hpast k (by simp only [Buf.addr] at hout; omega)
    all_goals exact (congrArg (bufferNat · _ k) hframe).trans rfl
  | b32dec =>
    obtain ⟨hpast, hframe⟩ := h
    cases b
    case key => exact hpast k (by simp only [Buf.addr] at hout; omega)
    all_goals exact (congrArg (bufferNat · _ k) hframe).trans rfl
  | trunc =>
    change o' = _ at h
    cases b
    case codeTxt => simp only [Buf.addr, Buf.size, Config.codeSize] at hout hk; omega
    all_goals exact (congrArg (bufferNat · _ k) h).trans rfl
  | hotp =>
    obtain ⟨hpast, hframe⟩ := h
    cases b
    case codeTxt => simp only [Buf.addr, Buf.size, Config.codeSize] at hout hk; omega
    case dig => exact hpast k (by simp only [Buf.addr] at hout; omega)
    all_goals exact (congrArg (bufferNat · _ k) hframe).trans rfl
  | tdiv =>
    change o' = _ at h
    cases b <;> exact (congrArg (bufferNat · _ k) h).trans rfl
  | totp =>
    obtain ⟨hpast, hframe⟩ := h
    cases b
    case codeTxt => simp only [Buf.addr, Buf.size, Config.codeSize] at hout hk; omega
    case dig => exact hpast k (by simp only [Buf.addr] at hout; omega)
    all_goals exact (congrArg (bufferNat · _ k) hframe).trans rfl
  | verify =>
    obtain ⟨hpast, -, hframe⟩ := h
    cases b
    case key => exact hpast k (by simp only [Buf.addr] at hout; omega)
    all_goals exact (congrArg (bufferNat · _ k) hframe).trans rfl

end Frame

/-- Settles O48: a byte the host can read is one of a register or of a buffer (`busByte_cases`), and outside
the stored offsets both are as they were. -/
theorem commandsLeaveEveryOtherByte : Obligations.CommandsLeaveEveryOtherByte := by
  intro i s t a hexec herr hout
  have hsame := (writeSetsAsTabulated i s t hexec).2.1 herr
  obtain ⟨r, hlow, hhigh, hbyte⟩ | ⟨b, k, hk, haddr, hbyte⟩ | hbyte := busByte_cases a
  · exact hbyte _ _ (readReg_of_outsideWriteSetSame hsame hlow hhigh hout)
  · exact hbyte _ _ (bufferNat_of_outsideWriteSetSame hsame hk (haddr ▸ hout))
  · exact hbyte _ _

end Sys2Proof.Claims

/-!
PROOF. The laws of truncation (41_truncation.md section 2), of the counter (42_time_counter.md sections 1 and
3) and of the window search (43_verify.md sections 1 and 3).
-/

namespace Sys2Proof.Claims

open Sys2Proof.Machine

/-! ### Truncation -/

theorem byteNat_truncate_codeTxt (h : List Byte) (n j : Nat) :
    byteNat (truncate h n).codeTxt j =
      if j < n ∧ j < 8 then 0x30 + decDigit n ((truncate h n).binary.toNat % pow10 n) j else 0 :=
  bufferByte_decText n _ j

theorem dynamicOffset_congr {h h' : List Byte} (hlen : h'.length = h.length)
    (hlast : h'.getD (h.length - 1) 0 = h.getD (h.length - 1) 0) :
    dynamicOffset h' = dynamicOffset h := by
  rw [dynamicOffset, dynamicOffset, hlen, hlast]

theorem extractBinary_congr {h h' : List Byte} {i : Nat}
    (hbytes : ∀ j, j < 4 → h'.getD (i + j) 0 = h.getD (i + j) 0) :
    extractBinary h' i = extractBinary h i := by
  have hfirst : h'.getD i 0 = h.getD i 0 := hbytes 0 (by decide)
  rw [extractBinary, extractBinary, hfirst, hbytes 1 (by decide), hbytes 2 (by decide),
    hbytes 3 (by decide)]

/-- Settles O29: each byte of the text is a digit or 0, CODE_BIN is a remainder modulo 10^N, and a truncation
reads the last byte and the four at the offset. -/
theorem lawsOfTruncation : Obligations.LawsOfTruncation := by
  intro h n _ _ hn
  refine ⟨fun j hj => ?digit, fun j hj => ?zero, ?code, (truncate h n).binary.isLt,
    fun h' hlen hlast => ?reads⟩
  case digit =>
    have := decDigit_lt n ((truncate h n).binary.toNat % pow10 n) j
    rw [byteNat_truncate_codeTxt, if_pos (by omega)]
    omega
  case zero => rw [byteNat_truncate_codeTxt, if_neg (by omega)]
  case code =>
    rw [truncate_codeBin_toNat h hn]
    exact Nat.mod_lt _ (by positivity)
  case reads =>
    have hoffset := dynamicOffset_congr hlen hlast
    refine ⟨hoffset, fun hbytes => ?_⟩
    have hbinary : extractBinary h' (dynamicOffset h).toNat = extractBinary h (dynamicOffset h).toNat :=
      extractBinary_congr hbytes
    rw [truncate, truncate, hoffset, hbinary]

/-! ### The counter -/

theorem ctr_toNat_of_tdiv {s t : State} (h : exec .tdiv s = .next t) :
    t.otp.ctr.toNat = s.otp.time.toNat / 30 := by
  obtain ⟨-, hyields⟩ := tdivWritesTheCounter
  obtain ⟨hstep, hquotient⟩ := hyields s
  rw [Yields, h] at hstep
  cases hstep
  exact hquotient

/-- Settles O34: 15 * 0x8888888888888889 = 2^67 + 7, so for the half of a 64-bit time the excess stays below
one unit of 2^67. -/
theorem dividerEqualsFixedPointForm : Obligations.DividerEqualsFixedPointForm := by
  intro s t h
  have hlt := s.otp.time.isLt
  rw [ctr_toNat_of_tdiv h, Nat.shiftRight_eq_div_pow, Nat.shiftRight_eq_div_pow]
  omega

/-- Settles O35: the quotient by 30 of a 64-bit time. -/
theorem counterRangeAndIntervals : Obligations.CounterRangeAndIntervals := by
  intro s t h
  have hctr := ctr_toNat_of_tdiv h
  have hlt := s.otp.time.isLt
  refine ⟨by omega, ?top, fun c => by omega, fun s' t' h' hle => ?monotone⟩
  case top =>
    apply BitVec.eq_of_toNat_eq
    rw [extractLsb'_toNat_eq_div_mod]
    change _ = 0
    omega
  case monotone =>
    rw [hctr, ctr_toNat_of_tdiv h']
    exact Nat.div_le_div_right hle

/-! ### TOTP as TDIV, then HOTP -/

section Congr

variable {o o' : OtpState}

theorem keyTooLong_congr (hlen : o.keyLen = o'.keyLen) : keyTooLong o = keyTooLong o' := by
  rw [keyTooLong, keyTooLong, keyLength, keyLength, hlen]

theorem hashAlgorithm_congr (halg : o.alg = o'.alg) : hashAlgorithm o = hashAlgorithm o' := by
  rw [hashAlgorithm, hashAlgorithm, halg]

/-- The checks HOTP and TOTP share read KEY_LEN and CFG alone. -/
theorem codeOperands_congr (hlen : o.keyLen = o'.keyLen) (halg : o.alg = o'.alg)
    (hdigits : o.digits = o'.digits) : codeOperands o = codeOperands o' := by
  rw [codeOperands, codeOperands, keyTooLong_congr hlen, hashAlgorithm_congr halg, codeDigits,
    codeDigits, keyLength, keyLength, hlen, hdigits]

end Congr

/-- Settles O38: HOTP finds the operands TOTP checks, and for the counter TDIV left it generates TOTP's
code. -/
theorem totpIsTdivThenHotp : Obligations.TotpIsTdivThenHotp := by
  intro s
  have htdiv := yields_of_ok (i := .tdiv) (s := s) (tdivCmd_eq s.otp)
  generalize hu : completedOk false { s.otp with ctr := BitVec.ofNat 64 (s.otp.time.toNat / 30) } = u
    at htdiv
  have hsame : codeOperands u = codeOperands s.otp := by
    rw [← hu]
    exact codeOperands_congr rfl rfl rfl
  cases hok : codeOperands s.otp with
  | error e =>
    have htotp := yields_of_error (i := .totp) (s := s) (totpCmd_eq_error_iff.2 hok)
    have hhotp := yields_of_error (i := .hotp) (s := { s with otp := u })
      (hotpCmd_of_error (hsame.trans hok))
    refine ⟨_, _, _, htotp, htdiv, hhotp, (nomatch ·), fun _ => ?_⟩
    rw [← hu]
    rfl
  | ok alg =>
    have htotp := yields_of_ok (i := .totp) (s := s) (totpCmd_of_ok hok)
    have hhotp := yields_of_ok (i := .hotp) (s := { s with otp := u })
      (hotpCmd_of_ok (hsame.trans hok))
    refine ⟨_, _, _, htotp, htdiv, hhotp, fun _ => ?_, (nomatch ·)⟩
    rw [← hu]
    rfl

/-! ### VERIFY -/

/-- Settles O43: it is InvalidEncoding of O39. -/
theorem verifyRejectsInvalidSecretText : Obligations.VerifyRejectsInvalidSecretText := by
  intro s hlen hillegal
  obtain ⟨-, hverify⟩ := verifySearchesTheWindow
  obtain ⟨-, hreject, -⟩ := hverify s
  exact ⟨_, hreject hlen hillegal, rfl, rfl, rfl⟩

/-- A counter at most `w` steps away is one of the candidates. -/
theorem exists_candidateAt {cur c : Dword} {i w : Nat} (hi : i ≤ w)
    (hc : c = cur - BitVec.ofNat 64 i ∨ c = cur + BitVec.ofNat 64 i) :
    ∃ j, j ≤ 2 * w ∧ candidateAt cur j = c := by
  obtain rfl | rfl := hc
  · cases i with
    | zero => exact ⟨0, by omega, by simp [candidateAt]⟩
    | succ i =>
      refine ⟨2 * i + 1, by omega, ?_⟩
      rw [candidateAt, if_pos (by omega), show (2 * i + 1 + 1) / 2 = i + 1 by omega]
  · refine ⟨2 * i, by omega, ?_⟩
    rw [candidateAt, if_neg (by omega), show 2 * i / 2 = i by omega]

/-- Settles O41: the counter is a candidate (`exists_candidateAt`) of the search O39 states. -/
theorem windowAcceptsCodesWithinIt : Obligations.WindowAcceptsCodesWithinIt := by
  intro s d i c hlen hlegal hpos hi hc hsubmitted
  obtain ⟨-, hverify⟩ := verifySearchesTheWindow
  obtain ⟨-, -, hsearch⟩ := hverify s
  obtain ⟨-, hsome⟩ := hsearch d hlen hlegal
  obtain ⟨o1, o2, hit, hyields, hsecret, hhit, -⟩ := hsome hpos
  obtain ⟨j, hj, rfl⟩ := exists_candidateAt hi hc
  have hframe : o1 = { s.otp with key := o1.key, keyLen := o1.keyLen } := hsecret.2.2
  have hmatch : Submitted o1 (secret o1) (candidateAt (BitVec.ofNat 64 (s.otp.time.toNat / 30)) j) := by
    obtain ⟨hsix, hbytes⟩ := hsubmitted o1 hsecret
    have hsubLen : o1.subLen = s.otp.subLen := (congrArg OtpState.subLen hframe).trans rfl
    have hsub : o1.sub = s.otp.sub := (congrArg OtpState.sub hframe).trans rfl
    exact ⟨hsubLen ▸ hsix, hsub ▸ hbytes⟩
  have hwindow : o1.window = s.otp.window := (congrArg OtpState.window hframe).trans rfl
  exact ⟨_, hyields, hhit.2 ⟨j, hwindow ▸ hj, hmatch⟩, rfl⟩

/-- What VERIFY finds before it searches, its errors in order: the secret and the current counter (R185). -/
def verifyOperands (o : OtpState) : Except CmdError (List Byte × Dword) :=
  if textTooLong o then .error .lengthRange
  else match base32Decode false (textBytes o) with
    | none => .error .invalidEncoding
    | some key =>
      if key.length = 0 then .error .invalidSecretLength
      else .ok (key, BitVec.ofNat 64 (o.time.toNat / 30))

/-- What VERIFY computes from a secret and the current counter (R185). -/
def searchResult (o : OtpState) (key : List Byte) (cur : Dword) : OtpState × Bool :=
  (writeMatch (firstMatch Config.params key cur o) (writeKey key { o with ctr := cur }),
    (firstMatch Config.params key cur o).isSome)

theorem verifyCmd_eq_map (o : OtpState) : verifyCmd Config.params o =
    (verifyOperands o).map fun x => searchResult o x.1 x.2 := by
  rw [verifyCmd, verifyOperands, counterOf_params, params_strictTail]
  split
  case isTrue => rfl
  case isFalse =>
    cases base32Decode false (textBytes o) with
    | none => rfl
    | some key =>
      dsimp only
      split <;> rfl

/-- The block with another submitted code. -/
def withSubmitted (v : Vector Byte 8) (n : BitVec 4) (o : OtpState) : OtpState :=
  { o with sub := v, subLen := n }

/-- A code that is not six digits long matches no candidate. -/
theorem firstMatch_eq_none_of_subLen {o : OtpState} (h : o.subLen ≠ 6) (key : List Byte)
    (cur : Dword) : (firstMatch Config.params key cur o).isSome = false := by
  rw [← Bool.not_eq_true, firstMatch_isSome_iff_submitted]
  rintro ⟨j, -, hsix, -⟩
  exact h (BitVec.eq_of_toNat_eq hsix)

/-- Settles O44: the errors are those of `verifyOperands`, which reads no submitted code, and what the search
writes to KEY, KEY_LEN and CTR is the same whether it finds a match or not. -/
theorem submittedCodeNeverRaisesAnError : Obligations.SubmittedCodeNeverRaisesAnError := by
  intro s v n
  have hcmd := verifyCmd_eq_map s.otp
  have hcmd' := verifyCmd_eq_map (withSubmitted v n s.otp)
  rw [show verifyOperands (withSubmitted v n s.otp) = verifyOperands s.otp from rfl] at hcmd'
  cases hx : verifyOperands s.otp with
  | error e =>
    rw [hx] at hcmd hcmd'
    exact ⟨_, _, yields_of_error (i := .verify) hcmd,
      yields_of_error (i := .verify) (s := { s with otp := withSubmitted v n s.otp }) hcmd',
      rfl, rfl, rfl, rfl, rfl, fun _ => rfl⟩
  | ok x =>
    rw [hx] at hcmd hcmd'
    refine ⟨_, _, yields_of_ok (i := .verify) hcmd,
      yields_of_ok (i := .verify) (s := { s with otp := withSubmitted v n s.otp }) hcmd',
      rfl, rfl, rfl, rfl, rfl, fun hn => ?_⟩
    exact firstMatch_eq_none_of_subLen (o := withSubmitted v n s.otp) hn x.1 x.2

end Sys2Proof.Claims

/-!
PROOF. What a command's result depends on: its operands alone (R81, R144), never BUSYERR (R26, R202); and that
no host step changes a command already started (R240).
-/

namespace Sys2Proof.Claims

open Sys2Proof.Machine

/-! ### Buffers by what is written and what is read -/

/-- The bytes written do not depend on what they were written over. -/
theorem byteNat_overlay_congr {n : Nat} (v v' : Vector Byte n) {bs : List Byte} {k : Nat}
    (h : k < bs.length) : byteNat (overlay v 0 bs) k = byteNat (overlay v' 0 bs) k := by
  simp only [byteNat_eq_bufferByte_toNat, bufferByte_overlay]
  by_cases hk : k < n
  · rw [if_pos (by omega), if_pos (by omega)]
  · rw [bufferByte_of_ge v k (by omega), bufferByte_of_ge v' k (by omega)]

theorem take_eq_of_byteNat {n : Nat} {v v' : Vector Byte n} {m : Nat}
    (h : ∀ k, k < m → byteNat v k = byteNat v' k) : v.toList.take m = v'.toList.take m := by
  refine List.ext_getElem (by simp) fun k hk hk' => BitVec.eq_of_toNat_eq ?_
  have hm : k < m := by
    rw [List.length_take] at hk
    omega
  rw [← List.getD_eq_getElem _ 0 hk, ← List.getD_eq_getElem _ 0 hk', toList_take_getD,
    toList_take_getD, if_pos hm, if_pos hm]
  exact h k hm

/-- A secret written over any block is the same secret. -/
theorem secret_writeKey_congr (b : List Byte) (o o' : OtpState) :
    secret (writeKey b o) = secret (writeKey b o') :=
  take_eq_of_byteNat fun _ hk =>
    byteNat_overlay_congr o.key o'.key (hk.trans_le (by simp [Nat.mod_le]))

/-! ### The operands alone -/

/-- Two computations of a command report the same and agree on its write set. -/
def SameOutcome (i : Instr) : CmdResult → CmdResult → Prop
  | .error e, .error e' => e = e'
  | .ok (w, hit), .ok (w', hit') =>
    hit = hit' ∧ SameResults i (completedOk hit w) (completedOk hit' w')
  | _, _ => False

/-- What such computations leave when they are committed. -/
theorem exec_of_sameOutcome {i : Instr} {s s' : State}
    (h : SameOutcome i (resultOf i s.otp) (resultOf i s'.otp)) :
    ∃ t t', exec i s = .next t ∧ exec i s' = .next t' ∧ SameReport t.otp t'.otp ∧
      (t.otp.err = false → SameResults i t.otp t'.otp) := by
  refine ⟨_, _, exec_eq i s, exec_eq i s', ?_⟩
  cases hr : resultOf i s.otp <;> cases hr' : resultOf i s'.otp <;> rw [hr, hr'] at h
  case error.error e e' =>
    obtain rfl : e = e' := h
    exact ⟨⟨rfl, rfl, rfl, rfl, rfl⟩, (nomatch ·)⟩
  case ok.ok r r' =>
    obtain ⟨hhit, hresults⟩ := h
    exact ⟨⟨rfl, rfl, rfl, hhit, rfl⟩, fun _ => hresults⟩
  all_goals exact h.elim

section Operands

variable {o o' : OtpState}

theorem textTooLong_congr (hlen : o.txtLen = o'.txtLen) : textTooLong o = textTooLong o' := by
  rw [textTooLong, textTooLong, textLength, textLength, hlen]

theorem textBytes_congr (hlen : o.txtLen = o'.txtLen)
    (htxt : ∀ k, k < o.txtLen.toNat → byteNat o.txt k = byteNat o'.txt k) :
    textBytes o = textBytes o' := by
  rw [textBytes, textBytes, textLength, textLength, ← hlen]
  exact take_eq_of_byteNat htxt

theorem sameOutcome_b32enc (h : SameOperands .b32enc o o') :
    SameOutcome .b32enc (b32encCmd o) (b32encCmd o') := by
  obtain ⟨hlen, hpad, hsecret⟩ := h
  have htext : base32Encode o.pad (keyBytes o) = base32Encode o'.pad (keyBytes o') := by
    rw [hpad]
    exact congrArg _ hsecret
  rw [b32encCmd, b32encCmd, keyTooLong_congr hlen, htext]
  split
  · rfl
  · exact ⟨rfl, rfl, fun k hk => byteNat_overlay_congr o.txt o'.txt
      (hk.trans_le (by simp [completedOk, Nat.mod_le]))⟩

theorem sameOutcome_b32dec (h : SameOperands .b32dec o o') :
    SameOutcome .b32dec (b32decCmd Config.params o) (b32decCmd Config.params o') := by
  obtain ⟨hlen, htxt⟩ := h
  rw [b32decCmd, b32decCmd, textTooLong_congr hlen, textBytes_congr hlen htxt]
  split
  · rfl
  · cases base32Decode Config.params.strictTail (textBytes o') with
    | none => rfl
    | some b => exact ⟨rfl, rfl, secret_writeKey_congr b o o'⟩

theorem sameOutcome_trunc (h : SameOperands .trunc o o') :
    SameOutcome .trunc (truncCmd o) (truncCmd o') := by
  obtain ⟨halg, hdigits, hdig⟩ := h
  rw [truncCmd, truncCmd, ← hashAlgorithm_congr halg, codeDigits, codeDigits, hdigits]
  cases hok : hashAlgorithm o with
  | none => rfl
  | some alg =>
    have hdigest : digestBytes alg o = digestBytes alg o' :=
      take_eq_of_byteNat fun k hk => hdig k (by rwa [← digestLen_of_hashAlgorithm hok])
    dsimp only
    rw [hdigest]
    split
    · exact ⟨rfl, rfl, rfl, rfl, rfl⟩
    · rfl

/-- A code depends on the secret, the counter and CFG, and the digest's bytes with it. -/
theorem writeGenerated_congr {alg : HashAlg} (hhash : hashAlgorithm o = some alg)
    (hsecret : secret o = secret o') (hdigits : o.digits = o'.digits) (p : Config.Params) (c : Dword)
    {w w' : OtpState} (hw : writeGenerated p alg c o = w) (hw' : writeGenerated p alg c o' = w') :
    w.offset = w'.offset ∧ w.binary = w'.binary ∧ w.codeBin = w'.codeBin ∧
      w.codeTxt = w'.codeTxt ∧ ∀ k, k < digestLength w.alg → byteNat w.dig k = byteNat w'.dig k := by
  have hcode : genCode p alg (keyBytes o) c (codeDigits o) =
      genCode p alg (keyBytes o') c (codeDigits o') := by
    rw [codeDigits, codeDigits, hdigits]
    exact congrArg (genCode p alg · c _) hsecret
  rw [← hw, ← hw', writeGenerated, writeGenerated, hcode, writeCode_alg, writeDigest_alg,
    ← digestLen_of_hashAlgorithm hhash]
  refine ⟨rfl, rfl, rfl, rfl, fun k hk => byteNat_overlay_congr o.dig o'.dig ?_⟩
  rwa [genCode_digest_length]

theorem sameOutcome_hotp (h : SameOperands .hotp o o') :
    SameOutcome .hotp (hotpCmd Config.params o) (hotpCmd Config.params o') := by
  obtain ⟨hlen, hsecret, hctr, halg, hdigits⟩ := h
  rw [hotpCmd, hotpCmd, ← codeOperands_congr hlen halg hdigits, hctr]
  cases hok : codeOperands o with
  | error e => rfl
  | ok alg =>
    obtain ⟨-, hhash, -⟩ := codeOperands_eq_ok_iff.1 hok
    dsimp only
    generalize hw : writeGenerated Config.params alg o'.ctr o = w
    generalize hw' : writeGenerated Config.params alg o'.ctr o' = w'
    have hcode := writeGenerated_congr hhash hsecret hdigits _ _ hw hw'
    exact ⟨rfl, hcode⟩

theorem sameOutcome_totp (h : SameOperands .totp o o') :
    SameOutcome .totp (totpCmd Config.params o) (totpCmd Config.params o') := by
  obtain ⟨hlen, hsecret, htime, halg, hdigits⟩ := h
  rw [totpCmd, totpCmd, ← codeOperands_congr hlen halg hdigits, counterOf_params, counterOf_params,
    htime]
  generalize BitVec.ofNat 64 (o'.time.toNat / 30) = c
  cases hok : codeOperands o with
  | error e => rfl
  | ok alg =>
    obtain ⟨-, hhash, -⟩ := codeOperands_eq_ok_iff.1 hok
    obtain ⟨hoffset, hbinary, hcode, htext, hdig⟩ :=
      writeGenerated_congr (o := { o with ctr := c }) (o' := { o' with ctr := c }) hhash hsecret
        hdigits Config.params c rfl rfl
    exact ⟨rfl, hoffset, hbinary, hcode, htext, hdig, rfl⟩

theorem sameOutcome_verify (h : SameOperands .verify o o') :
    SameOutcome .verify (verifyCmd Config.params o) (verifyCmd Config.params o') := by
  obtain ⟨hlen, htxt, htime, hwindow, hsubLen, hsub⟩ := h
  have hoperands : verifyOperands o = verifyOperands o' := by
    rw [verifyOperands, verifyOperands, textTooLong_congr hlen, textBytes_congr hlen htxt, htime]
  have hmatch (key : List Byte) (cur : Dword) :
      firstMatch Config.params key cur o = firstMatch Config.params key cur o' := by
    have hsame : candidateMatches Config.params key o = candidateMatches Config.params key o' := by
      funext c
      rw [candidateMatches, candidateMatches, submittedLengthLegal, submittedLengthLegal,
        submittedDigits, submittedDigits, hsubLen, hsub]
    rw [firstMatch, firstMatch, windowOffset, windowOffset, hwindow, hsame]
  rw [verifyCmd_eq_map, verifyCmd_eq_map, ← hoperands]
  cases verifyOperands o with
  | error e => rfl
  | ok x =>
    obtain ⟨key, cur⟩ := x
    refine ⟨congrArg Option.isSome (hmatch key cur), rfl, secret_writeKey_congr key _ _, rfl,
      fun hhit => ?_⟩
    obtain ⟨c, hc⟩ := Option.isSome_iff_exists.1 hhit
    have hc' := (hmatch key cur).symm.trans hc
    simp [completedOk, hc, hc']

end Operands

/-- Settles O49: each command's computation goes through values its operands determine. -/
theorem resultsDependOnTheOperandsAlone : Obligations.ResultsDependOnTheOperandsAlone := by
  refine fun i s s' h => exec_of_sameOutcome ?_
  cases i with
  | b32enc => exact sameOutcome_b32enc h
  | b32dec => exact sameOutcome_b32dec h
  | trunc => exact sameOutcome_trunc h
  | hotp => exact sameOutcome_hotp h
  | tdiv =>
    have htime : s.otp.time = s'.otp.time := h
    rw [resultOf, resultOf, tdivCmd_eq, tdivCmd_eq, htime]
    exact ⟨rfl, rfl⟩
  | totp => exact sameOutcome_totp h
  | verify => exact sameOutcome_verify h

/-! ### BUSYERR has no part in a command -/

/-- The block with BUSYERR set to `flag`. -/
def withBusyerr (flag : Bool) (o : OtpState) : OtpState := { o with busyerr := flag }

theorem resultOf_withBusyerr (i : Instr) (flag : Bool) (o : OtpState) :
    resultOf i (withBusyerr flag o) = (resultOf i o).map fun r => (withBusyerr flag r.1, r.2) := by
  cases i with
  | b32enc =>
    rw [resultOf, resultOf, b32encCmd, b32encCmd,
      show keyTooLong (withBusyerr flag o) = keyTooLong o from rfl]
    split <;> rfl
  | b32dec =>
    rw [resultOf, resultOf, b32decCmd, b32decCmd,
      show textTooLong (withBusyerr flag o) = textTooLong o from rfl,
      show textBytes (withBusyerr flag o) = textBytes o from rfl]
    split
    · rfl
    · cases base32Decode Config.params.strictTail (textBytes o) <;> rfl
  | trunc =>
    rw [resultOf, resultOf, truncCmd, truncCmd,
      show hashAlgorithm (withBusyerr flag o) = hashAlgorithm o from rfl,
      show codeDigits (withBusyerr flag o) = codeDigits o from rfl]
    cases hashAlgorithm o with
    | none => rfl
    | some alg =>
      dsimp only
      split <;> rfl
  | hotp =>
    rw [resultOf, resultOf, hotpCmd, hotpCmd,
      show codeOperands (withBusyerr flag o) = codeOperands o from rfl]
    cases codeOperands o <;> rfl
  | tdiv =>
    rw [resultOf, resultOf, tdivCmd_eq, tdivCmd_eq]
    rfl
  | totp =>
    rw [resultOf, resultOf, totpCmd, totpCmd, counterOf_params, counterOf_params,
      show codeOperands (withBusyerr flag o) = codeOperands o from rfl]
    cases codeOperands o <;> rfl
  | verify =>
    rw [resultOf, resultOf, verifyCmd_eq_map, verifyCmd_eq_map,
      show verifyOperands (withBusyerr flag o) = verifyOperands o from rfl]
    cases verifyOperands o <;> rfl

theorem commit_withBusyerr (i : Instr) (flag : Bool) (o : OtpState) :
    commit (withBusyerr flag o) (resultOf i (withBusyerr flag o)) =
      withBusyerr flag (commit o (resultOf i o)) := by
  rw [resultOf_withBusyerr]
  cases resultOf i o <;> rfl

theorem engineBlock_withBusyerr (flag : Bool) (o : OtpState) :
    engineBlock (withBusyerr flag o) = withBusyerr flag (engineBlock o) := by
  cases hd : decode o.pending with
  | ok i =>
    rw [engineBlock_of_decode_ok hd, engineBlock_of_decode_ok (o := withBusyerr flag o) hd,
      commit_withBusyerr]
  | error e =>
    rw [engineBlock_of_decode_error hd, engineBlock_of_decode_error (o := withBusyerr flag o) hd]
    rfl

/-! ### The host while a command is pending -/

/-- While BUSY = 1 a bus write changes BUSYERR alone (R240, R26). -/
theorem busWrite_of_busy_eq_withBusyerr (a : Offset) (v : Word) {o : OtpState}
    (hbusy : o.busy = true) : ∃ flag, busWrite a v o = withBusyerr flag o := by
  by_cases ha : a.toNat = 0x004
  · exact ⟨_, (busWrite_status v o ha).trans (statusWrite_eq v o)⟩
  · exact ⟨true, busWrite_of_busy v ha hbusy⟩

/-- Settles O20: while BUSY = 1 a bus write reaches BUSYERR alone (`busWrite_of_busy_eq_withBusyerr`), and every
command's result carries it through (`commit_withBusyerr`). -/
theorem startedCommandCannotBeChanged : Obligations.StartedCommandCannotBeChanged := by
  refine ⟨fun s t hagent hbusy hreset hstep => ?host, fun i s o flag h => ?command⟩
  case host =>
    obtain hsame | ⟨a, v, hwrite⟩ | ⟨hhead, -⟩ := otp_cases_of_host hagent hstep
    · rw [hsame]
    · obtain ⟨flag, hflag⟩ := busWrite_of_busy_eq_withBusyerr a v hbusy
      rw [hwrite, hflag]
      rfl
    · exact absurd hhead hreset
  case command =>
    rw [Yields, exec_eq] at h
    cases h
    rw [Yields, exec_eq]
    exact congrArg (fun o => Host.Outcome.next { s with otp := o }) (commit_withBusyerr i flag s.otp)

end Sys2Proof.Claims

/-!
PROOF. Runs: every accepted command completes under every schedule (R250, R251), and what the
pseudo-statements RUN, WR64 and WRBUF of a host program do (R89).
-/

namespace Sys2Proof.Claims

open Sys2Proof.Machine

/-! ### Runs -/

theorem run_add_of_run (M : Host.Core) {s t : M.State} {n : Nat} (h : M.run n s = .next t) (k : Nat) :
    M.run (n + k) s = M.run k t := by
  induction n generalizing s with
  | zero =>
    cases h
    rw [Nat.zero_add]
  | succ n ih =>
    rw [Nat.succ_add, Host.Core.run]
    rw [Host.Core.run] at h
    cases hstep : M.step s with
    | next s' =>
      rw [hstep] at h
      exact ih h
    | fault r => simp [hstep] at h
    | refused r => simp [hstep] at h

theorem run_one_of_step {s t : State} (h : step s = .next t) : core.run 1 s = .next t :=
  run_succ_of_step core h

/-! ### Every accepted command completes -/

theorem engineBlock_completed (o : OtpState) :
    (engineBlock o).busy = false ∧ (engineBlock o).done = true := by
  obtain ⟨e, he⟩ | ⟨i, w, hit, -, -, hw⟩ := engineBlock_cases o
  · rw [he]
    exact ⟨rfl, rfl⟩
  · rw [hw]
    exact ⟨rfl, rfl⟩

/-- While BUSY = 1 a host step that is no reset changes BUSYERR alone. -/
theorem hostStep_of_busy {i : Input} {s t : State} (hbusy : s.otp.busy = true)
    (h : hostStep i s = .next t) :
    (∃ flag, t.otp = withBusyerr flag s.otp) ∨ (i = .reset ∧ t.otp = OtpState.reset) := by
  obtain hsame | ⟨a, v, hwrite⟩ | hreset := hostStep_otp_cases h
  · exact .inl ⟨s.otp.busyerr, hsame⟩
  · obtain ⟨flag, hflag⟩ := busWrite_of_busy_eq_withBusyerr a v hbusy
    exact .inl ⟨flag, hwrite.trans hflag⟩
  · exact .inr hreset

/-- A step of the host leaves the turns, and adds no input but the WAIT it took. -/
theorem hostStep_frame {i : Input} {s t : State} (h : hostStep i s = .next t) :
    t.turns = s.turns ∧ ∀ j ∈ t.inputs, j ∈ i :: s.inputs := by
  obtain ⟨a, v, -, -, rfl⟩ | ⟨a, -, -, rfl⟩ | ⟨rfl, rfl | rfl⟩ | ⟨-, rfl⟩ := hostStep_cases h
  · exact ⟨rfl, fun j hj => List.mem_cons_of_mem i hj⟩
  · rw [busRead_frame]
    exact ⟨rfl, fun j hj => List.mem_cons_of_mem i hj⟩
  · rw [busRead_frame]
    exact ⟨rfl, fun j hj => List.mem_cons_of_mem _ hj⟩
  · rw [busRead_frame]
    exact ⟨rfl, fun j hj => hj⟩
  · exact ⟨rfl, fun j hj => List.mem_cons_of_mem i hj⟩

/-- While a command is pending the host's turn does not stop, and leaves the command unless it resets the
block. -/
theorem step_of_host_while_busy {s : State} (hagent : nextAgent s = .host)
    (hbusy : s.otp.busy = true) (hlegal : s.inputsLegal) :
    ∃ t, step s = .next t ∧ t.turns = s.turns.tail ∧ (∀ j ∈ t.inputs, j ∈ s.inputs) ∧
      ((∃ flag, t.otp = withBusyerr flag s.otp) ∨ (.reset ∈ s.inputs ∧ t.otp = OtpState.reset)) := by
  cases hinputs : s.inputs with
  | nil =>
    refine ⟨takeTurn s, ?_, rfl, by simp [hinputs], .inl ⟨s.otp.busyerr, rfl⟩⟩
    simp only [step, hagent, hostTurn, takeTurn_inputs, hinputs]
  | cons i rest =>
    have hi : i.legal = true := hlegal i (by simp [hinputs])
    obtain ⟨t, ht⟩ := (hostStep_stops_iff i { takeTurn s with inputs := rest }).2 hi
    obtain ⟨hturns, hmem⟩ := hostStep_frame ht
    refine ⟨t, (step_of_hostSteps ⟨hagent, hinputs⟩).trans ht, hturns, hmem, ?_⟩
    obtain hflag | ⟨rfl, hreset⟩ := hostStep_of_busy (s := { takeTurn s with inputs := rest }) hbusy ht
    · exact .inl hflag
    · exact .inr ⟨List.mem_cons_self, hreset⟩

/-- The engine's turn completes the command. -/
theorem run_completes_of_engine {s : State} (hagent : nextAgent s = .engine)
    (hbusy : s.otp.busy = true) (n : Nat) :
    ∃ k t, k ≤ n + 1 ∧ core.run k s = .next t ∧ t.otp.busy = false ∧
      (.reset ∉ s.inputs → t.otp = withBusyerr t.otp.busyerr (engineBlock s.otp)) :=
  ⟨1, _, by omega, run_one_of_step (step_eq_of_engineSteps ⟨hagent, hbusy⟩),
    (engineBlock_completed s.otp).1, fun _ => rfl⟩

/-- Along the listed turns those of the host leave the pending command, and the engine's first, or the step
after the list, completes it. -/
theorem run_completes (turns : List Agent) {s : State} (hturns : s.turns = turns)
    (hbusy : s.otp.busy = true) (hlegal : s.inputsLegal) :
    ∃ k t, k ≤ turns.length + 1 ∧ core.run k s = .next t ∧ t.otp.busy = false ∧
      (.reset ∉ s.inputs → t.otp = withBusyerr t.otp.busyerr (engineBlock s.otp)) := by
  induction turns generalizing s with
  | nil => exact run_completes_of_engine (by rw [nextAgent, hturns, hbusy]; rfl) hbusy _
  | cons a rest ih =>
    cases a with
    | engine => exact run_completes_of_engine (by rw [nextAgent, hturns]) hbusy _
    | host =>
      have hagent : nextAgent s = .host := by rw [nextAgent, hturns]
      obtain ⟨t, hstep, htail, hmem, ⟨flag, hotp⟩ | ⟨hreset, hotp⟩⟩ :=
        step_of_host_while_busy hagent hbusy hlegal
      · obtain ⟨k, u, hk, hrun, hidle, hblock⟩ := ih (s := t) (by rw [htail, hturns]; rfl)
          (by rw [hotp]; exact hbusy) (fun j hj => hlegal j (hmem j hj))
        refine ⟨k + 1, u, by simpa using hk, (run_succ_of_step core hstep).trans hrun, hidle,
          fun hno => ?_⟩
        rw [hblock (fun h => hno (hmem _ h)), hotp, engineBlock_withBusyerr]
        rfl
      · exact ⟨1, t, by omega, run_one_of_step hstep, by rw [hotp]; rfl,
          fun hno => absurd hreset hno⟩

/-- Settles O50: the run of `run_completes` ends in `engineBlock`, which is the pending word's. -/
theorem everyAcceptedCommandCompletes : Obligations.EveryAcceptedCommandCompletes := by
  intro s hbusy hlegal
  obtain ⟨k, t, hk, hrun, hidle, hblock⟩ := run_completes s.turns rfl hbusy hlegal
  refine ⟨k, t, hk, hrun, hidle, fun hreset => ⟨?done, fun i hi => ?command, fun hno => ?illegal⟩⟩
  case done =>
    rw [hblock hreset]
    exact (engineBlock_completed s.otp).2
  case command =>
    refine ⟨engineBlock s.otp, ?_, hblock hreset⟩
    rw [Yields, exec_eq, engineBlock_of_decode_ok hi]
  case illegal =>
    cases hd : decode s.otp.pending with
    | ok i => exact absurd hd (hno i)
    | error e => rw [← engineBlock_of_decode_error hd]; exact hblock hreset

/-! ### RUN -/

/-- Polls of a WAIT while a command is pending, for as many turns of the host: nothing changes but what the
host last read. -/
theorem run_polls (n : Nat) {s : State} {rest : List Input} {tail : List Agent}
    (hturns : s.turns = List.replicate n .host ++ tail) (hinputs : s.inputs = .wait :: rest)
    (hbusy : s.otp.busy = true) :
    ∃ v, core.run n s = .next { s with turns := tail, readData := v } := by
  induction n generalizing s with
  | zero =>
    refine ⟨s.readData, ?_⟩
    rw [← show s.turns = tail from hturns]
    rfl
  | succ n ih =>
    have hagent : nextAgent s = .host := by rw [nextAgent, hturns]; rfl
    have hpoll := step_wait ⟨hagent, hinputs⟩
    rw [hbusy, if_pos rfl, ← hinputs] at hpoll
    obtain ⟨v, hv⟩ := ih (s := { afterHost s s.inputs s.otp with readData := statusWord s.otp })
      (by rw [afterHost, hturns]; rfl) hinputs hbusy
    exact ⟨v, (run_succ_of_step core hpoll).trans hv⟩

/-- The two schedules after the CMD write: with no turns listed, or the engine's and then the host's, the
engine takes the next step and the host the one after. -/
theorem run_engine_then_poll {s : State} {rest : List Input}
    (hturns : s.turns = [] ∨ s.turns = [.engine, .host]) (hinputs : s.inputs = .wait :: rest)
    (hbusy : s.otp.busy = true) :
    ∃ t, core.run 2 s = .next t ∧ t.otp = engineBlock s.otp ∧ t.inputs = rest ∧
      t.readData = statusWord t.otp := by
  have hengine : nextAgent s = .engine := by
    obtain h | h := hturns <;> simp [nextAgent, h, hbusy]
  have hidle := (engineBlock_completed s.otp).1
  have hhost : nextAgent { takeTurn s with otp := engineBlock s.otp } = .host := by
    obtain h | h := hturns <;> simp [nextAgent, h, hidle]
  have hpoll := step_wait (s := { takeTurn s with otp := engineBlock s.otp }) ⟨hhost, hinputs⟩
  refine ⟨_, (run_succ_of_step core (step_eq_of_engineSteps ⟨hengine, hbusy⟩)).trans
    (run_one_of_step hpoll), rfl, ?_, rfl⟩
  simp [afterHost, hidle]

/-- What a schedule of RUN leaves after the CMD write: the polls, and one of the two schedules above. -/
theorem exists_tail_of_schedule {turns : List Agent} {n : Nat}
    (h : turns = [] ∧ n = 0 ∨ turns = List.replicate (n + 1) .host ++ [.engine, .host]) :
    ∃ tail, (tail = [] ∨ tail = [Agent.engine, .host]) ∧
      turns.tail = List.replicate n .host ++ tail := by
  obtain ⟨rfl, rfl⟩ | rfl := h
  · exact ⟨[], .inl rfl, rfl⟩
  · exact ⟨[.engine, .host], .inr rfl, rfl⟩

/-- Settles O51: the CMD write (O7), the polls (`run_polls`), the engine's step and the last poll
(`run_engine_then_poll`). -/
theorem runStatementCompletesTheCommand : Obligations.RunStatementCompletesTheCommand := by
  intro i s rest n hidle hschedule hinputs
  have hhost : nextAgent s = .host := by
    obtain ⟨h, -⟩ | h := hschedule
    · simp [nextAgent, h, hidle]
    · rw [nextAgent, h]
      rfl
  have hwrite := commandWriteIsAccepted s (.wait :: rest) (encode i) ⟨hhost, hinputs⟩ hidle
  generalize ho : { s.otp with
    pending := encode i, busy := true, done := false, err := false, matched := false,
    errcode := 0 } = o at hwrite ⊢
  have hbusy : o.busy = true := by rw [← ho]
  have hdecode : decode o.pending = .ok i := by rw [← ho]; exact decode_encode i
  obtain ⟨tail, htail, hlist⟩ := exists_tail_of_schedule hschedule
  obtain ⟨v, hpolls⟩ := run_polls n (s := afterHost s (.wait :: rest) o) hlist rfl hbusy
  obtain ⟨t, hrun, hotp, hrest, hread⟩ := run_engine_then_poll (rest := rest)
    (s := { afterHost s (.wait :: rest) o with turns := tail, readData := v }) htail rfl hbusy
  have hotp : t.otp = engineBlock o := hotp
  obtain ⟨hdone, hdone'⟩ := engineBlock_completed o
  refine ⟨t, ?_, by rw [hotp, hdone], by rw [hotp, hdone'], hrest, by rw [hread, statusWord_toNat],
    ?_⟩
  · exact (run_succ_of_step core hwrite).trans ((run_add_of_run core hpolls 2).trans hrun)
  · rw [exec_eq, hotp, engineBlock_of_decode_ok hdecode]

/-! ### WR64 -/

/-- A host write to an idle block while no turns are listed. -/
theorem step_write_of_idle {s : State} {rest : List Input} {a : Offset} {v : Word}
    (hidle : s.otp.busy = false) (hturns : s.turns = []) (hinputs : s.inputs = .write a 4 v :: rest)
    (ha : a.toNat % 4 = 0) :
    step s = .next { s with otp := busWrite a v s.otp, inputs := rest } := by
  have hhost : nextAgent s = .host := by simp [nextAgent, hturns, hidle]
  rw [step_write ⟨hhost, hinputs⟩ ha, afterHost, hturns]
  rfl

theorem reg_addr_toNat (r : Reg) : (BitVec.ofNat 12 r.addr).toNat = r.addr := by cases r <;> rfl

/-- A WR of a register of an idle block (R88). -/
theorem step_wr_reg {s : State} {rest : List Input} {r : Reg} {v : Word} (hidle : s.otp.busy = false)
    (hturns : s.turns = []) (hinputs : s.inputs = writeAt (.reg r) 0 v :: rest) (hr : r ≠ .status) :
    step s = .next { s with otp := writeReg v s.otp r, inputs := rest } := by
  have haddr := reg_addr_toNat r
  have h4 : r.addr ≠ 4 := by cases r <;> simp [Reg.addr] at hr ⊢
  have halign : r.addr % 4 = 0 := by cases r <;> rfl
  rw [step_write_of_idle (a := BitVec.ofNat 12 r.addr) hidle hturns hinputs (haddr.symm ▸ halign),
    busWrite_of_idle _ v s.otp hidle (haddr.symm ▸ h4), locate_of_eq_addr _ r haddr]

theorem setHighHalf_setLowHalf (x v : Dword) :
    setHighHalf (setLowHalf x (lowHalf v)) (highHalf v) = v := by
  rw [setHighHalf, lowHalf_setLowHalf, highHalf_append_lowHalf]

/-- Two writes to registers of an idle block, of which the first leaves it idle. -/
theorem run_wr_reg_twice {s : State} {rest : List Input} {r r' : Reg} {v v' : Word}
    (hidle : s.otp.busy = false) (hidle' : (writeReg v s.otp r).busy = false) (hturns : s.turns = [])
    (hinputs : s.inputs = writeAt (.reg r) 0 v :: writeAt (.reg r') 0 v' :: rest)
    (hr : r ≠ .status) (hr' : r' ≠ .status) :
    core.run 2 s = .next { s with otp := writeReg v' (writeReg v s.otp r) r', inputs := rest } :=
  (run_succ_of_step core (step_wr_reg hidle hturns hinputs hr)).trans
    (run_one_of_step (step_wr_reg hidle' hturns rfl hr'))

/-- Settles O53: the two halves are written one after the other. -/
theorem wr64StoresTheDoubleWord : Obligations.Wr64StoresTheDoubleWord := by
  intro s v rest hidle hturns
  refine ⟨fun hinputs => ?time, fun hinputs => ?ctr⟩
  case time =>
    rw [run_wr_reg_twice (rest := rest) (r := .timeLo) (r' := .timeHi) hidle hidle hturns hinputs
      (by decide) (by decide)]
    simp only [writeReg, setHighHalf_setLowHalf]
  case ctr =>
    rw [run_wr_reg_twice (rest := rest) (r := .ctrLo) (r' := .ctrHi) hidle hidle hturns hinputs
      (by decide) (by decide)]
    simp only [writeReg, setHighHalf_setLowHalf]

/-! ### WRBUF -/

/-- The block with words stored in a buffer window, from word `k` on (R89). -/
def storeWords (b : Buf) : Nat → List Word → OtpState → OtpState
  | _, [], o => o
  | k, w :: ws, o => storeWords b (k + 1) ws (writeBuf w o b k)

/-- A write of one buffer word: its four bytes are the word's lanes, every other byte is as it was. -/
theorem bufferNat_writeBuf (w : Word) (o : OtpState) {b : Buf} (hb : b ≠ .codeTxt) (k i : Nat) :
    bufferNat (writeBuf w o b k) b i =
      if i / 4 = k ∧ i < b.size then (w.extractLsb' (8 * (i % 4)) 8).toNat else bufferNat o b i := by
  cases b
  case codeTxt => exact absurd rfl hb
  all_goals
    simp only [bufferNat, writeBuf, byteNat_eq_bufferByte_toNat, bufferByte_setBufferWord,
      apply_ite BitVec.toNat]
    rfl

theorem bufferNat_writeBuf_other (w : Word) (o : OtpState) {b b' : Buf} (hne : b' ≠ b) (k i : Nat) :
    bufferNat (writeBuf w o b k) b' i = bufferNat o b' i := by
  cases b <;> cases b' <;> simp [bufferNat, writeBuf] at hne ⊢

/-- The bytes of the window after the words are stored: each word's lanes in its place, and every other byte
as it was. -/
theorem bufferNat_storeWords {b : Buf} (hb : b ≠ .codeTxt) (ws : List Word) (k : Nat) (o : OtpState)
    (i : Nat) :
    bufferNat (storeWords b k ws o) b i =
      if k ≤ i / 4 ∧ i / 4 < k + ws.length ∧ i < b.size then
        ((ws.getD (i / 4 - k) 0).extractLsb' (8 * (i % 4)) 8).toNat
      else bufferNat o b i := by
  induction ws generalizing k o with
  | nil => rw [storeWords, if_neg (by simp; omega)]
  | cons w ws ih =>
    rw [storeWords, ih, bufferNat_writeBuf w o hb, List.length_cons]
    obtain hlt | heq | hgt := Nat.lt_trichotomy (i / 4) k
    · rw [if_neg (by omega), if_neg (by omega), if_neg (by omega)]
    · subst heq
      rw [if_neg (by omega), Nat.sub_self, List.getD_cons_zero]
      simp
    · obtain ⟨j, hj⟩ := Nat.exists_eq_add_of_lt hgt
      rw [if_neg (c := i / 4 = k ∧ i < b.size) (by omega), show i / 4 - k = j + 1 by omega,
        List.getD_cons_succ, show i / 4 - (k + 1) = j by omega]
      exact if_congr (by omega) rfl rfl

theorem bufferNat_storeWords_other {b b' : Buf} (hne : b' ≠ b) (ws : List Word) (k : Nat)
    (o : OtpState) (i : Nat) : bufferNat (storeWords b k ws o) b' i = bufferNat o b' i := by
  induction ws generalizing k o with
  | nil => rfl
  | cons w ws ih => rw [storeWords, ih, bufferNat_writeBuf_other w o hne]

theorem writeBuf_frame (w : Word) (o : OtpState) (b : Buf) (k : Nat) :
    writeBuf w o b k = { o with
      sub := (writeBuf w o b k).sub, dig := (writeBuf w o b k).dig, key := (writeBuf w o b k).key,
      txt := (writeBuf w o b k).txt } := by
  cases b <;> simp [writeBuf]

theorem storeWords_frame (b : Buf) (ws : List Word) (k : Nat) (o : OtpState) :
    storeWords b k ws o = { o with
      sub := (storeWords b k ws o).sub, dig := (storeWords b k ws o).dig,
      key := (storeWords b k ws o).key, txt := (storeWords b k ws o).txt } := by
  induction ws generalizing k o with
  | nil => rfl
  | cons w ws ih =>
    rw [storeWords]
    have hframe := ih (k + 1) (writeBuf w o b k)
    generalize storeWords b (k + 1) ws (writeBuf w o b k) = u at hframe ⊢
    rw [writeBuf_frame] at hframe
    exact hframe

theorem locate_of_eq_buf_addr {a : Offset} {b : Buf} {k : Nat} (ha : a.toNat = b.addr + 4 * k)
    (hk : 4 * k < b.size) : locate a = .buf b k := by
  rw [locate_eq]
  cases b <;> simp only [Buf.addr, Buf.size, Config.codeSize, Config.subSize, Config.digSize,
    Config.keyMax, Config.txtMax] at ha hk
  all_goals
    repeat rw [if_neg (by omega)]
    rw [if_pos (by omega), ha, Nat.add_sub_cancel_left, Nat.mul_div_cancel_left k (by decide)]

/-- A WR of a buffer word of an idle block (R88). -/
theorem step_wr_buf {s : State} {rest : List Input} {b : Buf} {k : Nat} {w : Word}
    (hidle : s.otp.busy = false) (hturns : s.turns = [])
    (hinputs : s.inputs = writeAt (.buf b) (4 * k) w :: rest) (hk : 4 * k < b.size) :
    step s = .next { s with otp := writeBuf w s.otp b k, inputs := rest } := by
  obtain ⟨halign, hend⟩ := buf_window_end_le b
  have haddr : (BitVec.ofNat 12 (b.addr + 4 * k)).toNat = b.addr + 4 * k := by
    rw [BitVec.toNat_ofNat, Nat.mod_eq_of_lt (by omega)]
  have hlow : 4 < b.addr := by cases b <;> decide
  rw [step_write_of_idle (a := BitVec.ofNat 12 (b.addr + 4 * k)) hidle hturns hinputs (by omega),
    busWrite_of_idle _ w s.otp hidle (by omega), locate_of_eq_buf_addr haddr hk]

/-- The bus writes of WRBUF, one word each. -/
theorem run_storeWords {b : Buf} (ws : List Word) {k : Nat} {s : State} {rest : List Input}
    (hidle : s.otp.busy = false) (hturns : s.turns = [])
    (hinputs : s.inputs = (ws.mapIdx fun j w => writeAt (.buf b) (4 * (k + j)) w) ++ rest)
    (hsize : 4 * (k + ws.length) ≤ b.size) :
    core.run ws.length s = .next { s with otp := storeWords b k ws s.otp, inputs := rest } := by
  induction ws generalizing k s with
  | nil =>
    rw [← show s.inputs = rest from hinputs]
    rfl
  | cons w ws ih =>
    rw [List.length_cons] at hsize ⊢
    have hnext : (fun j w => writeAt (.buf b) (4 * (k + (j + 1))) w) =
        fun j w => writeAt (.buf b) (4 * (k + 1 + j)) w := by
      funext j w
      rw [Nat.add_right_comm, Nat.add_assoc k j 1]
    rw [List.mapIdx_cons, hnext] at hinputs
    have hstep := step_wr_buf hidle hturns hinputs (by omega)
    have hidle' : (writeBuf w s.otp b k).busy = false := by rwa [writeBuf_frame]
    exact (run_succ_of_step core hstep).trans (ih hidle' hturns rfl (by omega))

/-! ### The words of a byte string -/

theorem laneWords_length (bs : List Byte) : (laneWords bs).length = (bs.length + 3) / 4 := by
  simp [laneWords]

theorem extractLsb'_wordOfLanes (a b c d : Byte) {r : Nat} (hr : r < 4) :
    (wordOfLanes a b c d).extractLsb' (8 * r) 8 = [a, b, c, d].getD r 0 := by
  rw [← lanesOfWord_wordOfLanes a b c d]
  interval_cases r <;> rfl

/-- Byte `i` of the words is byte `i` of the string, and 0 past its end. -/
theorem laneWords_lane (bs : List Byte) {i : Nat} (hi : i / 4 < (bs.length + 3) / 4) :
    ((laneWords bs).getD (i / 4) 0).extractLsb' (8 * (i % 4)) 8 = bs.getD i 0 := by
  have hword : (laneWords bs).getD (i / 4) 0 = wordOfLanes (bs.getD (4 * (i / 4)) 0)
      (bs.getD (4 * (i / 4) + 1) 0) (bs.getD (4 * (i / 4) + 2) 0) (bs.getD (4 * (i / 4) + 3) 0) := by
    simp [laneWords, List.getD_eq_getElem?_getD, hi]
  have hr : i % 4 < 4 := Nat.mod_lt _ (by decide)
  rw [hword, extractLsb'_wordOfLanes _ _ _ _ hr]
  conv_rhs => rw [← Nat.div_add_mod i 4]
  generalize i % 4 = r at hr ⊢
  interval_cases r <;> rfl

/-- Settles O52: the run is `run_storeWords` of the string's words, whose bytes are the string's
(`laneWords_lane`). -/
theorem wrbufStoresTheBytes : Obligations.WrbufStoresTheBytes := by
  intro s b bytes rest hidle hturns hb hlen hinputs
  have hsize4 : b.size % 4 = 0 := by cases b <;> rfl
  have hrun := run_storeWords (b := b) (laneWords bytes) (k := 0) hidle hturns
    (by simpa [Stmt.inputs] using hinputs) (by rw [laneWords_length]; omega)
  have hbyte (i : Nat) := bufferNat_storeWords hb (laneWords bytes) 0 s.otp i
  rw [laneWords_length] at hrun hbyte
  refine ⟨_, hrun, fun i hi => ?written, fun i hi hi' => ?filled, fun i hi => ?past,
    fun b' i hne => bufferNat_storeWords_other hne _ _ _ i, ?frame⟩
  case written =>
    rw [hbyte, if_pos (by omega), Nat.sub_zero, laneWords_lane bytes (by omega)]
  case filled =>
    rw [hbyte, if_pos (by omega), Nat.sub_zero, laneWords_lane bytes (by omega),
      List.getD_eq_default _ _ hi]
    rfl
  case past => rw [hbyte, if_neg (by omega)]
  case frame => exact congrArg (fun o => { s with otp := o, inputs := rest }) (storeWords_frame b _ _ _)

end Sys2Proof.Claims
